-- ==== Sys2Proof/Word.lean ====
section
/-! DEFINITION. The word types of HUFFCORE: the widths the spec gives its registers, elements and port. -/

namespace Sys2Proof

/-- A 32-bit word: a command word (R90) or a register of the space CSR (R22). -/
abbrev Word := BitVec 32

/-- A symbol, a packed byte or a code length: 8 bits (R39, R43, R47, R48). -/
abbrev Byte := BitVec 8

/-- The 255 bits of an element of CODEBITS (R44). -/
abbrev CodeWord := BitVec 255

/-- The 40-bit frequency of a tree node (R40, parameter NFREQ_W of R9). -/
abbrev NodeFreq := BitVec 40

/-- An index into the space NODE as a node record holds it: 9 bits (R40). -/
abbrev NodeIndex := BitVec 9

/-- The 256 data bits of the host port (R61). -/
abbrev PortData := BitVec 256

/-- A bit sequence, first bit first (R13); `true` is the bit 1. -/
abbrev BitSeq := List Bool

end Sys2Proof
end

