-- ==== Sys2Proof/Config.lean ====
section
/-! DEFINITION. The parameters of HUFFCORE (00_scope.md R8, R9, R10), at the values R9 says this hardware
takes, and the two choices of host software the spec leaves open (R83, N15). -/

namespace Sys2Proof.Config

/-- NSYM: the number of symbol values (R8). -/
def nsym : Nat := 256

/-- ASCII_LIMIT: COUNT counts only symbols below it (R8). -/
def asciiLimit : Nat := 128

/-- BYTE_BITS: bits per packed byte (R8). -/
def byteBits : Nat := 8

/-- BIT_LEFT: the bit of a left edge (R8). -/
def bitLeft : Bool := false

/-- BIT_RIGHT: the bit of a right edge (R8). -/
def bitRight : Bool := true

/-- SENTINEL: the single bit PAD appends before the zeros (R8). -/
def sentinel : Bool := true

/-- TEXT_CAP (R9). DESIGN CHOICE of the spec (D5), log entry 5. -/
def textCap : Nat := 65536

/-- OUT_CAP (R9). DESIGN CHOICE of the spec (D5), log entry 5. -/
def outCap : Nat := 65536

/-- PACK_CAP (R9). DESIGN CHOICE of the spec (D5), log entry 5. -/
def packCap : Nat := 65536

/-- BITS_CAP = 8 × PACK_CAP, always (R9). -/
def bitsCap : Nat := byteBits * packCap

/-- MAXNODES = 2 × NSYM - 1 (R9, R10). -/
def maxNodes : Nat := 2 * nsym - 1

/-- CODE_MAX = NSYM - 1, the greatest code length (R9, R10). -/
def codeMax : Nat := nsym - 1

/-- The constant of the register ID (R23). -/
def idValue : Word := 0x48554631#32

/-- SINGLE_CODE: the code of the only symbol of a one-leaf tree (R9, R153). -/
def singleCode : BitSeq := [false]

/-- TIEBREAK (R9, I1): which of two nodes of equal frequency, given by their indices, is extracted first. -/
abbrev TieBreak := Nat → Nat → Bool

/-- CHILD_ORDER (R9, I3): which of the two extracted nodes is the left child. -/
inductive ChildOrder where
  | firstIsLeft
  | firstIsRight
  deriving DecidableEq, Repr

/-- MALFORMED_POLICY (R83, D33, OPEN): what the host's table-line reader does with a malformed entry. -/
inductive MalformedPolicy where
  | skipEntry
  | rejectLoad
  deriving DecidableEq, Repr

/-- Whether the host's table-line reader accepts a first token that is a decimal number with leading zeros, a plus
sign or spaces: the spec does not say (91_not_in_source.md N15), so nothing is known of it. It is asked of no other
token. DESIGN CHOICE, log entry 15. -/
opaque acceptsOddDecimal : List Char → Bool

end Sys2Proof.Config
end

