-- ==== Sys2Proof/Syntax.lean ====
section
/-! DEFINITION. The commands of HUFFCORE (30_encoding.md R93), one constructor per row of the opcode table, and
the fields of a command word (R90). -/

namespace Sys2Proof

/-- The fourteen commands, in the order of their opcodes (R93). No command carries an operand (R91). -/
inductive Instr where
  /-- NOP (R112). -/
  | nop
  /-- CLR (R113). -/
  | clr
  /-- COUNT (R121). -/
  | count
  /-- BUILD (R138). -/
  | build
  /-- GEN (R152). -/
  | gen
  /-- MAP (R161). -/
  | map
  /-- PAD (R167). -/
  | pad
  /-- PACK (R172). -/
  | pack
  /-- EXPAND (R191). -/
  | expand
  /-- STRIP (R194). -/
  | strip
  /-- MATCH (R199). -/
  | matchCodes
  /-- ENC (R177). -/
  | enc
  /-- DEC (R207). -/
  | dec
  /-- COMPRESS (R180). -/
  | compress
  deriving DecidableEq, Repr

/-- A command word split into its two fields, format C (R90). -/
structure CommandWord where
  /-- RSV, bits [31:4]: reserved, must be zero. -/
  rsv : BitVec 28
  /-- OPC, bits [3:0]. -/
  opc : BitVec 4
  deriving DecidableEq, Repr

end Sys2Proof
end

