-- ==== Sys2Proof/WellFormed.lean ====
section
/-! DEFINITION. What is well formed: a command word (30_encoding.md R92, R96), a command, and an entry of a code
table line (20_memory.md R83). -/

namespace Sys2Proof

/-- The reserved field of a command word is zero (R90, R92). -/
def CommandWord.rsvClear (c : CommandWord) : Bool := c.rsv == 0#28

/-- The opcode is not one of the reserved values 14 and 15 (R92, R96). -/
def CommandWord.opcDefined (c : CommandWord) : Bool := decide (c.opc.toNat < 14)

/-- A command word is legal when both checks pass (R92). -/
def CommandWord.wellFormed (c : CommandWord) : Bool := c.rsvClear && c.opcDefined

/-- Every command is well formed: it has no register number, immediate or mode that could be wrong (R90, R91). -/
def Instr.wellFormed : Instr → Bool
  | .nop => true
  | .clr => true
  | .count => true
  | .build => true
  | .gen => true
  | .map => true
  | .pad => true
  | .pack => true
  | .expand => true
  | .strip => true
  | .matchCodes => true
  | .enc => true
  | .dec => true
  | .compress => true

/-- The symbol of a table entry is one the block has (R83). -/
def entrySymbolFits (s : Nat) : Bool := decide (s < Config.nsym)

/-- The code of a table entry is not empty (R43, R83). -/
def entryCodeNonempty (c : BitSeq) : Bool := !c.isEmpty

/-- The code of a table entry is at most 255 bits long (R43, R83). -/
def entryCodeFits (c : BitSeq) : Bool := decide (c.length ≤ Config.codeMax)

/-- An entry (symbol, code) that CODELEN and CODEBITS can hold (R83). -/
def entryWellFormed (e : Nat × BitSeq) : Bool :=
  entrySymbolFits e.1 && entryCodeNonempty e.2 && entryCodeFits e.2

end Sys2Proof
end

