-- ==== Sys2Proof/Decode.lean ====
section
/-! DEFINITION. Decoding a command word and encoding a command (30_encoding.md R90 to R98). -/

namespace Sys2Proof

/-- Why a command word is illegal (R92, R96). -/
inductive DecodeError where
  /-- RSV, bits [31:4], is not zero. -/
  | reservedBits
  /-- OPC is 14 or 15. -/
  | reservedOpcode
  deriving DecidableEq, Repr

/-- The fields of a command word: OPC is bits [3:0], RSV bits [31:4] (R90). -/
def splitWord (w : Word) : CommandWord := ⟨w.extractLsb' 4 28, w.extractLsb' 0 4⟩

/-- The word made of two fields (R90). -/
def joinWord (c : CommandWord) : Word := c.rsv ++ c.opc

/-- The command of an opcode (R93); 14 and 15 are reserved (R96). -/
def commandOfOpcode (opc : BitVec 4) : Except DecodeError Instr :=
  match opc.toNat with
  | 0 => .ok .nop
  | 1 => .ok .clr
  | 2 => .ok .count
  | 3 => .ok .build
  | 4 => .ok .gen
  | 5 => .ok .map
  | 6 => .ok .pad
  | 7 => .ok .pack
  | 8 => .ok .expand
  | 9 => .ok .strip
  | 10 => .ok .matchCodes
  | 11 => .ok .enc
  | 12 => .ok .dec
  | 13 => .ok .compress
  | _ => .error .reservedOpcode

/-- Decoding, by the word alone (R92). -/
def decode (w : Word) : Except DecodeError Instr :=
  if (splitWord w).rsvClear then commandOfOpcode (splitWord w).opc else .error .reservedBits

/-- The opcode of a command (R93). -/
def opcode : Instr → BitVec 4
  | .nop => 0x0#4
  | .clr => 0x1#4
  | .count => 0x2#4
  | .build => 0x3#4
  | .gen => 0x4#4
  | .map => 0x5#4
  | .pad => 0x6#4
  | .pack => 0x7#4
  | .expand => 0x8#4
  | .strip => 0x9#4
  | .matchCodes => 0xA#4
  | .enc => 0xB#4
  | .dec => 0xC#4
  | .compress => 0xD#4

/-- The word of a command: its opcode under a zero RSV (R90, R93). -/
def encode (i : Instr) : Word := joinWord ⟨0#28, opcode i⟩

/-- The word whose bits are `w` below `nbits` and 0 above, numbered as spec/opcode_table.json numbers them. A
command is one 32-bit word (R90), so nothing above bit 31 belongs to it. -/
def tableWord (nbits w : Nat) : Word := BitVec.ofNat 32 (w % 2 ^ nbits)

/-- What the decoder reads from a row's word; none where it refuses. -/
def decodeTableWord (nbits w : Nat) : Option Instr :=
  match decode (tableWord nbits w) with
  | .ok i => some i
  | .error _ => none

end Sys2Proof
end

