-- ==== Sys2Proof/Machine/State.lean ====
section
/-! DEFINITION. The state of HUFFCORE (10_state.md), its reset value (R51), the host's transactions (20_memory.md
R61), and the reasons a step could stop. -/

namespace Sys2Proof.Machine

/-- A primitive command: one that is a single step, and a stage of a composite (R18, R93, R114). -/
inductive Primitive where
  | nop
  | clr
  | count
  | build
  | gen
  | map
  | pad
  | pack
  | expand
  | strip
  | matchCodes
  deriving DecidableEq, Repr

/-- The kinds of command failure (R241). -/
inductive ErrorKind where
  | emptyFreq
  | undecodable
  | noSentinel
  | capacity
  | unaligned
  | noTree
  | illegal
  deriving DecidableEq, Repr

/-- The nine spaces of the address map (R38, R72, R95). -/
inductive Space where
  | csr
  | text
  | freq
  | node
  | codelen
  | codebits
  | bits
  | packed
  | out
  deriving DecidableEq, Repr

/-- The sixteen registers of the space CSR (R22). -/
inductive Csr where
  | id
  | cmd
  | err
  | errstage
  | errinfo
  | esticky
  | tlen
  | blen
  | plen
  | olen
  | nnodes
  | root
  | capText
  | capBits
  | capPack
  | capOut
  deriving DecidableEq, Repr

/-- A Huffman tree node (R40): a leaf with its symbol and count, or an internal node with the sum of its
children's frequencies and their indices. The fields the other kind has are zero in the 67-bit record (log entry 8). -/
inductive Node where
  | leaf (sym : Byte) (nfreq : NodeFreq)
  | internal (nfreq : NodeFreq) (left right : NodeIndex)
  deriving DecidableEq, Repr

/-- The element of NODE whose 67 bits are all zero (R51). -/
abbrev Node.zero : Node := .leaf 0#8 0#40

/-- A data space: the elements that do not read as the space's reset value, by index, in the canonical form
`Mem.Wf` (Machine/Ops.lean). What an unlisted index reads as is the reset value, zero (R51). -/
abbrev Mem (α : Type) := List (Nat × α)

/-- A host transaction (R61): `we` 1 = write; the space id; the element index; the write data. -/
structure Transaction where
  we : Bool
  space : BitVec 4
  index : BitVec 32
  wdata : PortData
  deriving DecidableEq, Repr

/-- The answer to a transaction (R61): `err` 1 = bus error; the read data. -/
structure Answer where
  err : Bool
  rdata : PortData
  deriving DecidableEq, Repr

/-- What can arrive at the block: a transaction on the port (R60), or the reset input sampled as 1 between two
transactions (R270, R272; log entry 3). -/
inductive Event where
  | transaction (t : Transaction)
  | reset
  deriving DecidableEq, Repr

/-- The state: the registers of the space CSR that are not constants, the eight data spaces (R20), and the model's
two fields for the port. -/
@[ext]
structure State where
  /-- CMD (R24). -/
  cmd : Word
  /-- ERR, bits [3:0] (R25). -/
  err : BitVec 4
  /-- ERRSTAGE, bits [3:0] (R26). -/
  errstage : BitVec 4
  /-- ERRINFO (R27). -/
  errinfo : Word
  /-- ESTICKY, bit 0 (R28). -/
  esticky : BitVec 1
  /-- TLEN (R29). -/
  tlen : Word
  /-- BLEN (R30). -/
  blen : Word
  /-- PLEN (R31). -/
  plen : Word
  /-- OLEN (R32). -/
  olen : Word
  /-- NNODES, bits [9:0] (R33). -/
  nnodes : BitVec 10
  /-- ROOT, bits [8:0] (R34). -/
  root : NodeIndex
  /-- TEXT (R39). -/
  text : Mem Byte
  /-- FREQ (R42). -/
  freq : Mem Word
  /-- NODE (R40, R41). -/
  node : Mem Node
  /-- CODELEN (R43). -/
  codelen : Mem Byte
  /-- CODEBITS (R44). -/
  codebits : Mem CodeWord
  /-- BITS (R46). -/
  bits : Mem Bool
  /-- PACKED (R47). -/
  packed : Mem Byte
  /-- OUT (R48). -/
  out : Mem Byte
  /-- The port events still to come, oldest first. The model's own field (log entry 1). -/
  inbox : List Event
  /-- The answers given so far, oldest first. The model's own field (log entry 2). -/
  answers : List Answer
  deriving DecidableEq, Repr

/-- The machine right after reset (R51): every register and every element zero; nothing has arrived at the port
and nothing has been answered (DESIGN CHOICE, log entries 1 and 2). -/
def State.reset : State where
  cmd := 0#32
  err := 0#4
  errstage := 0#4
  errinfo := 0#32
  esticky := 0#1
  tlen := 0#32
  blen := 0#32
  plen := 0#32
  olen := 0#32
  nnodes := 0#10
  root := 0#9
  text := []
  freq := []
  node := []
  codelen := []
  codebits := []
  bits := []
  packed := []
  out := []
  inbox := []
  answers := []

/-- The ways the machine can stop: none. A command failure is a next state (R240, R246), a bus error is an answer
(R66), and no state is stuck (93_implementation_defined.md, part 2), so nothing raises a fault. -/
inductive Fault where
  deriving DecidableEq, Repr

/-- What the model refuses. -/
inductive Refusal where
  /-- Raised by `exec` for a command that has no meaning yet, naming its mnemonic. Safe: it only stops. No arm
  raises it now. -/
  | notModelled (mnemonic : String)
  deriving DecidableEq, Repr

end Sys2Proof.Machine
end

