-- ==== Sys2Proof/Machine/Flags.lean ====
section
/-! DEFINITION. The block's condition registers: the error codes of ERR, the stage opcodes of ERRSTAGE, the value
of ERRINFO, and the sticky flag (10_state.md R25 to R28; 60_exceptions.md R241, R243, R246, R250). -/

namespace Sys2Proof.Machine

/-- The value of `ERR` for a kind of failure (R241); 0 is success, 8 to 15 are never produced. -/
def errorCode : ErrorKind → BitVec 4
  | .emptyFreq => 1#4
  | .undecodable => 2#4
  | .noSentinel => 3#4
  | .capacity => 4#4
  | .unaligned => 5#4
  | .noTree => 6#4
  | .illegal => 7#4

/-- The command a primitive is (R93). -/
def primitiveCommand : Primitive → Instr
  | .nop => .nop
  | .clr => .clr
  | .count => .count
  | .build => .build
  | .gen => .gen
  | .map => .map
  | .pad => .pad
  | .pack => .pack
  | .expand => .expand
  | .strip => .strip
  | .matchCodes => .matchCodes

/-- The value of `ERRSTAGE` when a primitive or stage fails: its opcode (R26, R246). -/
def primitiveOpcode (p : Primitive) : BitVec 4 := opcode (primitiveCommand p)

/-- The value of `ERRINFO` for a length, index or count: the number mod 2^32 (R163, R243). -/
def infoWord (n : Nat) : Word := BitVec.ofNat 32 n

/-- The failure registers as dispatch clears them; `ESTICKY` stays (R110). -/
def clearFailure (s : State) : State := { s with err := 0#4, errstage := 0#4, errinfo := 0#32 }

/-- The failure registers as a failure writes them; `ESTICKY` is set (R246). -/
def recordFailure (e : ErrorKind) (stage : BitVec 4) (info : Word) (s : State) : State :=
  { s with err := errorCode e, errstage := stage, errinfo := info, esticky := 1#1 }

/-- A host write to `ESTICKY`: a 1 in bit 0 clears the flag, a 0 leaves it, the other bits are ignored (R28). -/
def writeSticky (wdata : PortData) (s : State) : State :=
  if wdata.getLsbD 0 then { s with esticky := 0#1 } else s

end Sys2Proof.Machine
end

