-- ==== Sys2Proof/Machine/Ops.lean ====
section
/-! DEFINITION. The named operations: reading and writing a data space, the updates of State the commands make,
starting a command, taking a failure (60_exceptions.md R246), invalidation (R248) and answering the host. -/

namespace Sys2Proof.Machine

/-- The canonical form of a data space: indices strictly rising, no entry equal to the value `z` an unlisted index
reads as. Equal contents are then equal lists. -/
abbrev Mem.Wf {α : Type} (z : α) (m : Mem α) : Prop :=
  m.Pairwise (fun a b => a.1 < b.1) ∧ ∀ c ∈ m, c.2 ≠ z

/-- Every index listed is below the space's number of elements (R38). -/
abbrev Mem.Below {α : Type} (size : Nat) (m : Mem α) : Prop := ∀ c ∈ m, c.1 < size

/-- `MemRead` (R15): the element at an index; an index not listed reads as the reset value `z` (R51). -/
def Mem.read {α : Type} (z : α) : Mem α → Nat → α
  | [], _ => z
  | (j, v) :: m, i => if j = i then v else Mem.read z m i

/-- `MemWrite` (R15) of one whole element. Writing `z` takes the entry out, which keeps the canonical form. -/
def Mem.write {α : Type} [DecidableEq α] (z : α) : Mem α → Nat → α → Mem α
  | [], i, v => if v = z then [] else [(i, v)]
  | (j, u) :: m, i, v =>
    if i < j then (if v = z then (j, u) :: m else (i, v) :: (j, u) :: m)
    else if i = j then (if v = z then m else (i, v) :: m)
    else (j, u) :: Mem.write z m i v

/-- The entries of a list of elements that stand at consecutive indices from `base` up. -/
def Mem.entries {α : Type} [DecidableEq α] (z : α) (base : Nat) (vs : List α) : Mem α :=
  ((vs.zipIdx base).map fun p => (p.2, p.1)).filter fun c => decide (c.2 ≠ z)

/-- Writing a list of elements at consecutive indices, from `base` up: the elements below and above stay. -/
def Mem.writeFrom {α : Type} [DecidableEq α] (z : α) (m : Mem α) (base : Nat) (vs : List α) : Mem α :=
  m.filter (fun c => decide (c.1 < base)) ++ Mem.entries z base vs
    ++ m.filter (fun c => decide (base + vs.length ≤ c.1))

/-- The `n` elements from `base` up, in index order. -/
def Mem.slice {α : Type} (z : α) (m : Mem α) (base n : Nat) : List α :=
  (List.range n).map fun k => m.read z (base + k)

/-- A space all of whose elements have the reset value. -/
def Mem.cleared {α : Type} : Mem α := []

/-- The new contents of FREQ (R94, COUNT). -/
def State.setFreq (s : State) (f : Mem Word) : State := { s with freq := f }

/-- The new tree: NODE, `NNODES` and `ROOT` (R94, BUILD). -/
def State.setTree (s : State) (m : Mem Node) (n : BitVec 10) (r : NodeIndex) : State :=
  { s with node := m, nnodes := n, root := r }

/-- The new code table: CODELEN and CODEBITS (R94, GEN). -/
def State.setTable (s : State) (l : Mem Byte) (b : Mem CodeWord) : State := { s with codelen := l, codebits := b }

/-- The new bit sequence: BITS and `BLEN` (R94, MAP, PAD, EXPAND). -/
def State.setBits (s : State) (m : Mem Bool) (n : Word) : State := { s with bits := m, blen := n }

/-- A new `BLEN` alone (R94, STRIP). -/
def State.setBlen (s : State) (n : Word) : State := { s with blen := n }

/-- The new packed buffer: PACKED and `PLEN` (R94, PACK). -/
def State.setPacked (s : State) (m : Mem Byte) (n : Word) : State := { s with packed := m, plen := n }

/-- The new decoded text: OUT and `OLEN` (R94, MATCH). -/
def State.setOut (s : State) (m : Mem Byte) (n : Word) : State := { s with out := m, olen := n }

/-- INV(P): the destination of the primitive P is marked as holding no result (R248). -/
def invalidate : Primitive → State → State
  | .nop, s => s
  | .clr, s => s
  | .count, s => s
  | .build, s => { s with nnodes := 0#10, root := 0#9 }
  | .gen, s => { s with codelen := Mem.cleared }
  | .map, s => { s with blen := 0#32 }
  | .pad, s => s
  | .pack, s => { s with plen := 0#32 }
  | .expand, s => s
  | .strip, s => s
  | .matchCodes, s => { s with olen := 0#32 }

/-- How a primitive or stage ends: it completed, or it failed and its failure has been taken (R246). -/
inductive StageResult where
  | completed (s : State)
  | failed (s : State)
  deriving DecidableEq, Repr

/-- `raise E(info)` in the primitive P (R246): the failure registers are written, `ESTICKY` set, INV(P) applied.
This is the block's one exception entry; nothing else is saved and control goes nowhere. -/
def raiseFailure (p : Primitive) (e : ErrorKind) (info : Nat) (s : State) : StageResult :=
  .failed (invalidate p (recordFailure e (primitiveOpcode p) (infoWord info) s))

/-- The dispatch lines of R110: the word is stored in `CMD`, `ERR`, `ERRSTAGE`, `ERRINFO` are cleared. -/
def startCommand (w : Word) (s : State) : State := { clearFailure s with cmd := w }

/-- An illegal command word (R97): ILLEGAL with stage `w[3:0]` and info `w`; no primitive ran, so nothing is
invalidated (R248). -/
def illegalCommand (w : Word) (s : State) : State := recordFailure .illegal (splitWord w).opc w s

/-- The block gives the host an answer; the newest stands last. -/
def answer (a : Answer) (s : State) : State := { s with answers := s.answers ++ [a] }

/-- The answer of a write that got no bus error, a `CMD` write's included (R63, R110). -/
def writeDone : Answer := ⟨false, 0#256⟩

/-- The answer of a transaction that got a bus error (R66). -/
def busErrorAnswer : Answer := ⟨true, 0#256⟩

/-- The answer of a read: the element, zero above (R62). -/
def readDone (v : PortData) : Answer := ⟨false, v⟩

/-- The reset input (R270): every register and element takes its reset value. What the host has still to send and
what it has been told are not the block's (log entry 3). There is no return from a failure (R249). -/
def resetBlock (s : State) : State := { State.reset with inbox := s.inbox, answers := s.answers }

end Sys2Proof.Machine
end

