-- ==== Sys2Proof/Machine/Operands.lean ====
section
/-! DEFINITION. The implicit operands of the commands (30_encoding.md R94): the text, the bit sequence, the packed
buffer, the code table, a node record, and the bit orders of 00_scope.md R14 and 10_state.md R44. -/

namespace Sys2Proof.Machine

/-- The text `TEXT[0..TLEN)` (R29). -/
def textSymbols (s : State) : List Byte := s.text.slice 0#8 0 s.tlen.toNat

/-- `bitseq` = `BITS[0..BLEN)` (R30). -/
def bitSequence (s : State) : BitSeq := s.bits.slice false 0 s.blen.toNat

/-- The packed byte buffer `PACKED[0..PLEN)` (R31). -/
def packedBytes (s : State) : List Byte := s.packed.slice 0#8 0 s.plen.toNat

/-- `OUT[0..OLEN)` (R32). -/
def outSymbols (s : State) : List Byte := s.out.slice 0#8 0 s.olen.toNat

/-- `CODELEN[sym]` as a number; 0 means not in the table (R43). -/
def codeLength (s : State) (sym : Byte) : Nat := (s.codelen.read 0#8 sym.toNat).toNat

/-- `code(sym)`: bits 0 to `CODELEN[sym] - 1` of `CODEBITS[sym]`, bit 0 first (R44); empty for a symbol not in the
table. -/
def codeOf (s : State) (sym : Byte) : BitSeq :=
  (List.range (codeLength s sym)).map fun j => (s.codebits.read 0#255 sym.toNat).getLsbD j

/-- `Σ path[j] × 2^j` (R152): the first bit is the least significant. -/
def lsbFirst : BitSeq → Nat
  | [] => 0
  | b :: bs => b.toNat + 2 * lsbFirst bs

/-- The element of CODEBITS that holds a code; the bits above are 0 (R44, R152). -/
def codeWordOf (path : BitSeq) : CodeWord := BitVec.ofNat 255 (lsbFirst path)

/-- The unsigned base-2 value of a bit sequence, the first bit most significant (R14, R173). -/
def msbFirst (b : BitSeq) : Nat := b.foldl (fun v x => 2 * v + x.toNat) 0

/-- `byte(b)` of an 8-bit sequence (R14, R68). -/
def byteOfBits (b : BitSeq) : Byte := BitVec.ofNat 8 (msbFirst b)

/-- `bits8(v)`: bit 7 of the byte first (R14, R68). -/
def bitsOfByte (v : Byte) : BitSeq := (List.range Config.byteBits).map fun k => v.getLsbD (7 - k)

/-- The field NFREQ of a node record (R40). -/
def nodeFreq : Node → NodeFreq
  | .leaf _ f => f
  | .internal f _ _ => f

/-- The 67 bits of a node record: NFREQ [66:27], RIGHT [26:18], LEFT [17:9], SYM [8:1], KIND [0] (R40). -/
def nodeBits : Node → BitVec 67
  | .leaf sym f => f ++ 0#9 ++ 0#9 ++ sym ++ 0#1
  | .internal f l r => f ++ r ++ l ++ 0#8 ++ 1#1

end Sys2Proof.Machine
end

