-- ==== Sys2Proof/Machine/CodeTable.lean ====
section
/-! DEFINITION. The stage GEN, the code-table generator (43_code_table.md R150 to R158). -/

namespace Sys2Proof.Machine

/-- The two spaces GEN writes (R94). -/
structure CodeTable where
  codelen : Mem Byte
  codebits : Mem CodeWord
  deriving DecidableEq, Repr

/-- The empty table GEN starts from (R152, R155). -/
def emptyTable : CodeTable := ⟨Mem.cleared, Mem.cleared⟩

/-- The code of a symbol is recorded: its length and its bits (R152). -/
def recordCode (sym : Byte) (path : BitSeq) (t : CodeTable) : CodeTable :=
  ⟨t.codelen.write 0#8 sym.toNat (BitVec.ofNat 8 path.length),
    t.codebits.write 0#255 sym.toNat (codeWordOf path)⟩

/-- `visit(i, path)` (R152): a leaf records its path, an internal node visits left with 0, then right with 1. The
first argument is the depth still allowed; on a tree that keeps the invariant of R41 it never runs out (log
entry 11). -/
def visit (m : Mem Node) : Nat → Nat → BitSeq → CodeTable → CodeTable
  | 0, _, _, t => t
  | depth + 1, i, path, t =>
    match m.read Node.zero i with
    | .leaf sym _ => recordCode sym path t
    | .internal _ l r =>
      visit m depth r.toNat (path ++ [Config.bitRight]) (visit m depth l.toNat (path ++ [Config.bitLeft]) t)

/-- The depth of the recursion of `visit`: at most 256 (R152). -/
def visitDepth : Nat := Config.codeMax + 1

/-- The table of the tree with this root: a root that is a leaf gets the one-bit code (R153), else the traversal. -/
def tableOfTree (m : Mem Node) (root : Nat) : CodeTable :=
  match m.read Node.zero root with
  | .leaf sym _ => recordCode sym Config.singleCode emptyTable
  | .internal _ _ _ => visit m visitDepth root [] emptyTable

/-- GEN (R152): NO_TREE when `NNODES` = 0 (R154), else the table of the tree. -/
def stageGen (s : State) : StageResult :=
  if s.nnodes = 0#10 then raiseFailure .gen .noTree 0 s
  else
    let t := tableOfTree s.node s.root.toNat
    .completed (s.setTable t.codelen t.codebits)

end Sys2Proof.Machine
end

