-- ==== Sys2Proof/Machine/Control.lean ====
section
/-! DEFINITION. The stages NOP and CLR (40_control.md R112, R113). -/

namespace Sys2Proof.Machine

/-- NOP (R112): nothing. -/
def stageNop (s : State) : StageResult := .completed s

/-- CLR (R113): every register but `CMD` and the constants, and every element, to zero. -/
def stageClr (s : State) : StageResult := .completed { resetBlock s with cmd := s.cmd }

end Sys2Proof.Machine
end

