-- ==== Sys2Proof/Machine/Decoder.lean ====
section
/-! DEFINITION. The stages EXPAND, STRIP and MATCH, the bit unpacker and symbol resolver (45_decoder.md R190 to
R206). -/

namespace Sys2Proof.Machine

/-- EXPAND (R191): every byte gives its 8 bits, bit 7 first. It cannot fail. -/
def stageExpand (s : State) : StageResult :=
  .completed (s.setBits (s.bits.writeFrom false 0 ((packedBytes s).flatMap bitsOfByte))
    (infoWord (Config.byteBits * s.plen.toNat)))

/-- The greatest index of a `1` bit, none when there is none (R194). -/
def lastOne : BitSeq → Option Nat
  | [] => none
  | b :: bs =>
    match lastOne bs with
    | some p => some (p + 1)
    | none => if b then some 0 else none

/-- STRIP (R194): `BLEN` becomes the index of the last `1` bit; NO_SENTINEL(B) when there is none (R195). -/
def stageStrip (s : State) : StageResult :=
  match lastOne (bitSequence s) with
  | none => raiseFailure .strip .noSentinel s.blen.toNat s
  | some p => .completed (s.setBlen (infoWord p))

/-- The candidate equals the code of the symbol: the lengths agree and the bits agree (the set M of R199). -/
def candidateIs (s : State) (cand : BitSeq) (sym : Byte) : Bool :=
  codeLength s sym == cand.length && codeOf s sym == cand

/-- DUP_MATCH of this block (R9, R200): the lowest symbol whose code is the candidate; none when M is empty. -/
def resolve (s : State) (cand : BitSeq) : Option Byte :=
  ((List.range Config.nsym).map (BitVec.ofNat 8)).find? (candidateIs s cand)

/-- How the scan of MATCH ends (R199): with the symbols emitted, with the index of the first dangling bit, or with
the index of the bit that completed a symbol too many. -/
inductive ScanResult where
  | decoded (syms : List Byte)
  | dangling (start : Nat)
  | overflow (i : Nat)
  deriving DecidableEq, Repr

/-- A symbol emitted before the rest of the scan; a failure later in the scan delivers no symbol (R201). -/
def emitBefore (sym : Byte) : ScanResult → ScanResult
  | .decoded syms => .decoded (sym :: syms)
  | .dangling start => .dangling start
  | .overflow i => .overflow i

/-- The scan of MATCH (R199): the bits still to scan, the index of the first of them, the candidate, the index where
the candidate started, the number of symbols emitted so far. `cap` symbols fit (OUT_CAP, R203). -/
def scan (look : BitSeq → Option Byte) (cap : Nat) : BitSeq → Nat → BitSeq → Nat → Nat → ScanResult
  | [], _, cand, start, _ => if cand = [] then .decoded [] else .dangling start
  | b :: bs, i, cand, start, emitted =>
    match look (cand ++ [b]) with
    | none => scan look cap bs (i + 1) (cand ++ [b]) start emitted
    | some sym =>
      if emitted = cap then .overflow i
      else emitBefore sym (scan look cap bs (i + 1) [] (i + 1) (emitted + 1))

/-- MATCH (R199): the whole scan first, then OUT and `OLEN` on success only; UNDECODABLE(start) (R201),
CAPACITY(i) (R203). -/
def stageMatch (s : State) : StageResult :=
  match scan (resolve s) Config.outCap (bitSequence s) 0 [] 0 0 with
  | .decoded syms => .completed (s.setOut (s.out.writeFrom 0#8 0 syms) (infoWord syms.length))
  | .dangling start => raiseFailure .matchCodes .undecodable start s
  | .overflow i => raiseFailure .matchCodes .capacity i s

end Sys2Proof.Machine
end

