-- ==== Sys2Proof/Machine/Encoder.lean ====
section
/-! DEFINITION. The stages MAP, PAD and PACK, the bitstream packer (44_encoder.md R160 to R176). -/

namespace Sys2Proof.Machine

/-- P, the payload length (R161): a symbol not in the table adds 0. -/
def payloadLength (s : State) : Nat := ((textSymbols s).map (codeLength s)).sum

/-- The payload: the codes of the text's symbols one after the other; a symbol not in the table has the empty code
and is skipped (R161, R162). -/
def payload (s : State) : BitSeq := (textSymbols s).flatMap (codeOf s)

/-- MAP (R161): CAPACITY(P) when the payload does not fit (R163), before any bit is written. -/
def stageMap (s : State) : StageResult :=
  if payloadLength s > Config.bitsCap then raiseFailure .map .capacity (payloadLength s) s
  else .completed (s.setBits (s.bits.writeFrom false 0 (payload s)) (infoWord (payloadLength s)))

/-- k, the number of bits PAD appends to a sequence of length `b`: 1 to 8 (R167, R168). -/
def padCount (b : Nat) : Nat := Config.byteBits - b % Config.byteBits

/-- The bits PAD appends: the sentinel and k - 1 zeros (R167). -/
def padBits (b : Nat) : BitSeq := Config.sentinel :: List.replicate (padCount b - 1) false

/-- PAD (R167): CAPACITY(B + k) when the padded sequence does not fit (R170). -/
def stagePad (s : State) : StageResult :=
  let b := s.blen.toNat
  if b + padCount b > Config.bitsCap then raiseFailure .pad .capacity (b + padCount b) s
  else .completed (s.setBits (s.bits.writeFrom false b (padBits b)) (infoWord (b + padCount b)))

/-- Byte j of the packed sequence: bits 8j to 8j + 7, the first most significant (R172, R173). -/
def packByte (m : Mem Bool) (j : Nat) : Byte := byteOfBits (m.slice false (Config.byteBits * j) Config.byteBits)

/-- PACK (R172): UNALIGNED(B) when the length is no multiple of 8 (R175). -/
def stagePack (s : State) : StageResult :=
  let b := s.blen.toNat
  if b % Config.byteBits ≠ 0 then raiseFailure .pack .unaligned b s
  else
    let n := b / Config.byteBits
    .completed (s.setPacked (s.packed.writeFrom 0#8 0 ((List.range n).map (packByte s.bits))) (infoWord n))

end Sys2Proof.Machine
end

