-- ==== Sys2Proof/Machine/Frequency.lean ====
section
/-! DEFINITION. The stage COUNT, the frequency counter (41_frequency.md R120 to R126). -/

namespace Sys2Proof.Machine

/-- One symbol of the text: below 128 its count goes up by one, else nothing (R121, R122). -/
def countSymbol (f : Mem Word) (sym : Byte) : Mem Word :=
  if sym.toNat < Config.asciiLimit then f.write 0#32 sym.toNat (f.read 0#32 sym.toNat + 1#32) else f

/-- The counts of a text, from an empty table (R121, R123). -/
def countText (text : List Byte) : Mem Word := text.foldl countSymbol Mem.cleared

/-- COUNT (R121). It cannot fail. -/
def stageCount (s : State) : StageResult := .completed (s.setFreq (countText (textSymbols s)))

end Sys2Proof.Machine
end

