-- ==== Sys2Proof/Machine/TreeBuilder.lean ====
section
/-! DEFINITION. The stage BUILD, the Huffman tree builder and its priority queue (42_tree_builder.md R130 to
R145). The functions take the tie-break and the child order as arguments (parameters TIEBREAK and CHILD_ORDER of
00_scope.md R9); the block takes the defaults (log entry 6). -/

namespace Sys2Proof.Machine

/-- A member of the priority queue with its key `(NFREQ, index)` (R132). A record is not changed again during a
BUILD (R136), so the key is taken when the node is inserted. -/
structure QueueKey where
  nfreq : NodeFreq
  index : Nat
  deriving DecidableEq, Repr

/-- The priority queue: its members in the order of their insertion (R131). -/
abbrev Queue := List QueueKey

/-- TIEBREAK of this block (R9, R132): the lower node index first. -/
def tieBreak : Config.TieBreak := fun i j => decide (i < j)

/-- CHILD_ORDER of this block (R9, R135): the first extracted node is the left child. -/
def childOrder : Config.ChildOrder := .firstIsLeft

/-- The order of the queue (R132): the lower frequency first, a tie by the tie-break on the indices. -/
def keyBefore (tb : Config.TieBreak) (a b : QueueKey) : Bool :=
  decide (a.nfreq.toNat < b.nfreq.toNat) || (a.nfreq == b.nfreq && tb a.index b.index)

/-- The least of a key and the members of a list (R133). -/
def leastKey (tb : Config.TieBreak) : QueueKey → List QueueKey → QueueKey
  | k, [] => k
  | k, k' :: q => leastKey tb (if keyBefore tb k' k then k' else k) q

/-- `Q.extract_min()` (R133): the least member and the queue without it; none on an empty queue. -/
def extractMin (tb : Config.TieBreak) : Queue → Option (QueueKey × Queue)
  | [] => none
  | k :: q => some (leastKey tb k q, (k :: q).erase (leastKey tb k q))

/-- The symbols with a non-zero count, ascending (R134). -/
def presentSymbols (f : Mem Word) : List Nat := (List.range Config.nsym).filter fun i => f.read 0#32 i != 0#32

/-- The leaf of a symbol (R134). -/
def leafOf (f : Mem Word) (i : Nat) : Node := .leaf (BitVec.ofNat 8 i) ((f.read 0#32 i).setWidth 40)

/-- The leaves, `NODE[0..n)` (R134). -/
def leaves (f : Mem Word) : List Node := (presentSymbols f).map (leafOf f)

/-- The queue that holds every leaf (R131, R134). -/
def initialQueue (ls : List Node) : Queue := ls.zipIdx.map fun p => ⟨nodeFreq p.1, p.2⟩

/-- The new internal node of a round: the first extracted `a`, the second `b` (R135). -/
def combine (co : Config.ChildOrder) (a b : QueueKey) : Node :=
  match co with
  | .firstIsLeft => .internal (a.nfreq + b.nfreq) (BitVec.ofNat 9 a.index) (BitVec.ofNat 9 b.index)
  | .firstIsRight => .internal (a.nfreq + b.nfreq) (BitVec.ofNat 9 b.index) (BitVec.ofNat 9 a.index)

/-- The rounds (R135 to R138): while the queue has two members, take the two least out, append their internal node
to the nodes, insert it. The first argument bounds the rounds; the number of leaves is enough (R137). -/
def buildRounds (tb : Config.TieBreak) (co : Config.ChildOrder) : Nat → List Node → Queue → List Node × Queue
  | 0, nodes, q => (nodes, q)
  | fuel + 1, nodes, q =>
    match extractMin tb q with
    | none => (nodes, q)
    | some (a, q1) =>
      match extractMin tb q1 with
      | none => (nodes, q)
      | some (b, q2) =>
        buildRounds tb co fuel (nodes ++ [combine co a b]) (q2 ++ [⟨a.nfreq + b.nfreq, nodes.length⟩])

/-- The nodes of the tree over a frequency table, in index order (R138). -/
def buildNodes (tb : Config.TieBreak) (co : Config.ChildOrder) (f : Mem Word) : List Node :=
  (buildRounds tb co (leaves f).length (leaves f) (initialQueue (leaves f))).1

/-- BUILD over a tie-break and a child order (R138): EMPTY_FREQ when no symbol has a count (R140), else the tree. -/
def buildTree (tb : Config.TieBreak) (co : Config.ChildOrder) (s : State) : StageResult :=
  let n := (leaves s.freq).length
  if n = 0 then raiseFailure .build .emptyFreq 0 s
  else .completed (s.setTree (s.node.writeFrom Node.zero 0 (buildNodes tb co s.freq))
    (BitVec.ofNat 10 (2 * n - 1)) (BitVec.ofNat 9 (2 * n - 2)))

/-- BUILD (R138) of this block. -/
def stageBuild (s : State) : StageResult := buildTree tieBreak childOrder s

end Sys2Proof.Machine
end

