-- ==== Sys2Proof/Machine/Composite.lean ====
section
/-! DEFINITION. The sequencing of stages (40_control.md R114 to R116) and the meaning of every command. The
dispatch lines of R110 come before (Machine/Step.lean), once per command (R115). -/

namespace Sys2Proof.Machine

/-- The effect of one primitive as a stage (R115). -/
def runStage : Primitive → State → StageResult
  | .nop, s => stageNop s
  | .clr, s => stageClr s
  | .count, s => stageCount s
  | .build, s => stageBuild s
  | .gen, s => stageGen s
  | .map, s => stageMap s
  | .pad, s => stagePad s
  | .pack, s => stagePack s
  | .expand, s => stageExpand s
  | .strip, s => stageStrip s
  | .matchCodes, s => stageMatch s

/-- INV of every stage that does not run (R116, R248). -/
def invalidateAll : List Primitive → State → State
  | [], s => s
  | p :: ps, s => invalidateAll ps (invalidate p s)

/-- `run_composite` (R116): on success the next stage; on a failure the later stages are invalidated and the
command ends. A primitive command is the list of its one stage. -/
def runStages : List Primitive → State → State
  | [], s => s
  | p :: ps, s =>
    match runStage p s with
    | .completed s' => runStages ps s'
    | .failed s' => invalidateAll ps s'

/-- The stages of a command, in their order: a primitive command is its own one stage (R114). -/
def stagesOf : Instr → List Primitive
  | .nop => [.nop]
  | .clr => [.clr]
  | .count => [.count]
  | .build => [.build]
  | .gen => [.gen]
  | .map => [.map]
  | .pad => [.pad]
  | .pack => [.pack]
  | .expand => [.expand]
  | .strip => [.strip]
  | .matchCodes => [.matchCodes]
  | .enc => [.map, .pad, .pack]
  | .dec => [.expand, .strip, .matchCodes]
  | .compress => [.count, .build, .gen, .map, .pad, .pack]

/-- The end of a command: always a next state (R111). -/
def endCommand (s : State) : Host.Outcome State Fault Refusal := .next s

/-- NOP (R112). -/
def execNop (s : State) : Host.Outcome State Fault Refusal := endCommand (runStages (stagesOf .nop) s)

/-- CLR (R113). -/
def execClr (s : State) : Host.Outcome State Fault Refusal := endCommand (runStages (stagesOf .clr) s)

/-- COUNT (R121). -/
def execCount (s : State) : Host.Outcome State Fault Refusal := endCommand (runStages (stagesOf .count) s)

/-- BUILD (R138). -/
def execBuild (s : State) : Host.Outcome State Fault Refusal := endCommand (runStages (stagesOf .build) s)

/-- GEN (R152). -/
def execGen (s : State) : Host.Outcome State Fault Refusal := endCommand (runStages (stagesOf .gen) s)

/-- MAP (R161). -/
def execMap (s : State) : Host.Outcome State Fault Refusal := endCommand (runStages (stagesOf .map) s)

/-- PAD (R167). -/
def execPad (s : State) : Host.Outcome State Fault Refusal := endCommand (runStages (stagesOf .pad) s)

/-- PACK (R172). -/
def execPack (s : State) : Host.Outcome State Fault Refusal := endCommand (runStages (stagesOf .pack) s)

/-- EXPAND (R191). -/
def execExpand (s : State) : Host.Outcome State Fault Refusal := endCommand (runStages (stagesOf .expand) s)

/-- STRIP (R194). -/
def execStrip (s : State) : Host.Outcome State Fault Refusal := endCommand (runStages (stagesOf .strip) s)

/-- MATCH (R199). -/
def execMatch (s : State) : Host.Outcome State Fault Refusal := endCommand (runStages (stagesOf .matchCodes) s)

/-- ENC (R177). -/
def execEnc (s : State) : Host.Outcome State Fault Refusal := endCommand (runStages (stagesOf .enc) s)

/-- DEC (R207). -/
def execDec (s : State) : Host.Outcome State Fault Refusal := endCommand (runStages (stagesOf .dec) s)

/-- COMPRESS (R180). -/
def execCompress (s : State) : Host.Outcome State Fault Refusal := endCommand (runStages (stagesOf .compress) s)

end Sys2Proof.Machine
end

