-- ==== Sys2Proof/Machine/Dispatch.lean ====
section
/-! DEFINITION. The dispatch: one arm per command (40_control.md R110, 30_encoding.md R93). -/

namespace Sys2Proof.Machine

def exec (i : Instr) (s : State) : Host.Outcome State Fault Refusal :=
  match i with
  | .nop => Sys2Proof.Machine.execNop s
  | .clr => Sys2Proof.Machine.execClr s
  | .count => Sys2Proof.Machine.execCount s
  | .build => Sys2Proof.Machine.execBuild s
  | .gen => Sys2Proof.Machine.execGen s
  | .map => Sys2Proof.Machine.execMap s
  | .pad => Sys2Proof.Machine.execPad s
  | .pack => Sys2Proof.Machine.execPack s
  | .expand => Sys2Proof.Machine.execExpand s
  | .strip => Sys2Proof.Machine.execStrip s
  | .matchCodes => Sys2Proof.Machine.execMatch s
  | .enc => Sys2Proof.Machine.execEnc s
  | .dec => Sys2Proof.Machine.execDec s
  | .compress => Sys2Proof.Machine.execCompress s

end Sys2Proof.Machine
end

