-- ==== Sys2Proof/Machine/Port.lean ====
section
/-! DEFINITION. The host port (20_memory.md R60 to R67): the address map, the register map, bus errors, reading and
writing one whole element. -/

namespace Sys2Proof.Machine

/-- The space of a space id; 9 to 15 are reserved (R38, R95). -/
def spaceOf (id : BitVec 4) : Option Space :=
  match id.toNat with
  | 0 => some .csr
  | 1 => some .text
  | 2 => some .freq
  | 3 => some .node
  | 4 => some .codelen
  | 5 => some .codebits
  | 6 => some .bits
  | 7 => some .packed
  | 8 => some .out
  | _ => none

/-- The number of elements of a space (R38, R66). -/
def spaceSize : Space → Nat
  | .csr => 16
  | .text => Config.textCap
  | .freq => Config.nsym
  | .node => Config.maxNodes
  | .codelen => Config.nsym
  | .codebits => Config.nsym
  | .bits => Config.bitsCap
  | .packed => Config.packCap
  | .out => Config.outCap

/-- The register of an index of the space CSR (R22); there is none above 15 (R36). -/
def csrOf (index : Nat) : Option Csr :=
  match index with
  | 0 => some .id
  | 1 => some .cmd
  | 2 => some .err
  | 3 => some .errstage
  | 4 => some .errinfo
  | 5 => some .esticky
  | 6 => some .tlen
  | 7 => some .blen
  | 8 => some .plen
  | 9 => some .olen
  | 10 => some .nnodes
  | 11 => some .root
  | 12 => some .capText
  | 13 => some .capBits
  | 14 => some .capPack
  | 15 => some .capOut
  | _ => none

/-- The registers a host write may not reach (R22, R66 case 3). -/
def csrReadOnly : Csr → Bool
  | .id => true
  | .cmd => false
  | .err => true
  | .errstage => true
  | .errinfo => true
  | .esticky => false
  | .tlen => false
  | .blen => false
  | .plen => false
  | .olen => true
  | .nnodes => true
  | .root => true
  | .capText => true
  | .capBits => true
  | .capPack => true
  | .capOut => true

/-- The target of a write is read-only: NODE, OUT, or a read-only register (R66 case 3). -/
def readOnly (sp : Space) (index : Nat) : Bool :=
  match sp with
  | .csr =>
    match csrOf index with
    | some r => csrReadOnly r
    | none => true
  | .text => false
  | .freq => false
  | .node => true
  | .codelen => false
  | .codebits => false
  | .bits => false
  | .packed => false
  | .out => true

/-- The greatest value a length register may hold (R29 to R31); the other registers have no such bound. -/
def lengthLimit : Csr → Option Nat
  | .tlen => some Config.textCap
  | .blen => some Config.bitsCap
  | .plen => some Config.packCap
  | _ => none

/-- The register an access reaches, if it reaches one. -/
def targetCsr (sp : Space) (index : Nat) : Option Csr :=
  match sp with
  | .csr => csrOf index
  | _ => none

/-- A write of more than a length register may hold (R66 case 4); only `wdata[31:0]` counts. -/
def lengthTooGreat (sp : Space) (index : Nat) (wdata : PortData) : Bool :=
  match (targetCsr sp index).bind lengthLimit with
  | some limit => decide (limit < (wdata.setWidth 32).toNat)
  | none => false

/-- The four cases of a bus error, in their order (R66). -/
def busError (t : Transaction) : Bool :=
  match spaceOf t.space with
  | none => true
  | some sp =>
    decide (spaceSize sp ≤ t.index.toNat)
      || (t.we && readOnly sp t.index.toNat)
      || (t.we && lengthTooGreat sp t.index.toNat t.wdata)

/-- A register as a host reads it: 32 bits, reserved bits zero (R22 to R35); ID and the capacities are constants. -/
def readCsr (s : State) : Csr → Word
  | .id => Config.idValue
  | .cmd => s.cmd
  | .err => s.err.setWidth 32
  | .errstage => s.errstage.setWidth 32
  | .errinfo => s.errinfo
  | .esticky => s.esticky.setWidth 32
  | .tlen => s.tlen
  | .blen => s.blen
  | .plen => s.plen
  | .olen => s.olen
  | .nnodes => s.nnodes.setWidth 32
  | .root => s.root.setWidth 32
  | .capText => BitVec.ofNat 32 Config.textCap
  | .capBits => BitVec.ofNat 32 Config.bitsCap
  | .capPack => BitVec.ofNat 32 Config.packCap
  | .capOut => BitVec.ofNat 32 Config.outCap

/-- A host write to a register (R63): the read-only ones are never reached (R66); `ESTICKY` clears (R28). A write to
`CMD` stores the word here; the command it starts is run by `step` (R110). -/
def writeCsr (s : State) (wdata : PortData) : Csr → State
  | .id => s
  | .cmd => { s with cmd := wdata.setWidth 32 }
  | .err => s
  | .errstage => s
  | .errinfo => s
  | .esticky => writeSticky wdata s
  | .tlen => { s with tlen := wdata.setWidth 32 }
  | .blen => { s with blen := wdata.setWidth 32 }
  | .plen => { s with plen := wdata.setWidth 32 }
  | .olen => s
  | .nnodes => s
  | .root => s
  | .capText => s
  | .capBits => s
  | .capPack => s
  | .capOut => s

/-- `zext_256` of an element (R62). -/
def readElement (s : State) (sp : Space) (index : Nat) : PortData :=
  match sp with
  | .csr =>
    match csrOf index with
    | some r => (readCsr s r).setWidth 256
    | none => 0#256
  | .text => (s.text.read 0#8 index).setWidth 256
  | .freq => (s.freq.read 0#32 index).setWidth 256
  | .node => (nodeBits (s.node.read Node.zero index)).setWidth 256
  | .codelen => (s.codelen.read 0#8 index).setWidth 256
  | .codebits => (s.codebits.read 0#255 index).setWidth 256
  | .bits => (BitVec.ofBool (s.bits.read false index)).setWidth 256
  | .packed => (s.packed.read 0#8 index).setWidth 256
  | .out => (s.out.read 0#8 index).setWidth 256

/-- The store of `wdata[W-1:0]` into an element (R63); NODE and OUT are never reached (R66). -/
def writeElement (s : State) (sp : Space) (index : Nat) (wdata : PortData) : State :=
  match sp with
  | .csr =>
    match csrOf index with
    | some r => writeCsr s wdata r
    | none => s
  | .text => { s with text := s.text.write 0#8 index (wdata.setWidth 8) }
  | .freq => { s with freq := s.freq.write 0#32 index (wdata.setWidth 32) }
  | .node => s
  | .codelen => { s with codelen := s.codelen.write 0#8 index (wdata.setWidth 8) }
  | .codebits => { s with codebits := s.codebits.write 0#255 index (wdata.setWidth 255) }
  | .bits => { s with bits := s.bits.write false index (wdata.getLsbD 0) }
  | .packed => { s with packed := s.packed.write 0#8 index (wdata.setWidth 8) }
  | .out => s

/-- The transaction is a write to `CSR.CMD`, which starts a command and never gets a bus error (R63, R67). -/
def startsCommand (t : Transaction) : Bool := t.we && t.space == 0#4 && t.index == 1#32

/-- The command word of a write to `CMD`: `wdata[31:0]` (R63, R90). -/
def commandWord (t : Transaction) : Word := t.wdata.setWidth 32

/-- A transaction that starts no command: its effect and its answer (R62, R63, R66). -/
def access (t : Transaction) (s : State) : State :=
  match busError t, spaceOf t.space with
  | true, _ => answer busErrorAnswer s
  | false, none => answer busErrorAnswer s
  | false, some sp =>
    if t.we then answer writeDone (writeElement s sp t.index.toNat t.wdata)
    else answer (readDone (readElement s sp t.index.toNat)) s

end Sys2Proof.Machine
end

