-- ==== Sys2Proof/Machine/Step.lean ====
section
/-! DEFINITION. The step: one event of the host (00_scope.md R19, 20_memory.md R60, R70). -/

namespace Sys2Proof.Machine

/-- A write of the word `w` to `CSR.CMD` (R110): the dispatch lines; an illegal word fails as ILLEGAL, a legal one
runs its command. -/
def runCommand (w : Word) (s : State) : Host.Outcome State Fault Refusal :=
  match decode w with
  | .ok i => exec i (startCommand w s)
  | .error _ => .next (illegalCommand w (startCommand w s))

/-- The write transaction that started a command is answered after the command has ended, with `err = 0` (R110). -/
def answerCommand : Host.Outcome State Fault Refusal → Host.Outcome State Fault Refusal
  | .next s => .next (answer writeDone s)
  | .fault r => .fault r
  | .refused r => .refused r

/-- One transaction, performed completely and answered (R60, R70). -/
def transact (t : Transaction) (s : State) : Host.Outcome State Fault Refusal :=
  if startsCommand t then answerCommand (runCommand (commandWord t) s) else .next (access t s)

/-- One step: the oldest event that waits at the port; with none waiting the block does not move (R255, R271; log
entry 4). -/
def step (s : State) : Host.Outcome State Fault Refusal :=
  match s.inbox with
  | [] => .next s
  | .reset :: rest => .next (resetBlock { s with inbox := rest })
  | .transaction t :: rest => transact t { s with inbox := rest }

/-- The host's write of a command word to `CSR.CMD` (R100, `cmd M`). -/
def commandWrite (w : Word) : Transaction := ⟨true, 0#4, 1#32, w.setWidth 256⟩

/-- `s` with a host write of that word to `CSR.CMD` as the next event, which is how a command comes to run: the
block fetches nothing (R21; log entry 12). -/
def State.withFetchWord (s : State) (nbits w : Nat) : State :=
  { s with inbox := .transaction (commandWrite (tableWord nbits w)) :: s.inbox }

end Sys2Proof.Machine
end

