-- ==== Sys2Proof/Machine/HostScript.lean ====
section
/-! DEFINITION. Host scripts (30_encoding.md R99, R100): the transactions a host issues, and the pseudo-instructions
with their expansions. They are the host's, no state of the block. -/

namespace Sys2Proof.Machine

/-- The id of a space (R38, R95). -/
def spaceId : Space → BitVec 4
  | .csr => 0#4
  | .text => 1#4
  | .freq => 2#4
  | .node => 3#4
  | .codelen => 4#4
  | .codebits => 5#4
  | .bits => 6#4
  | .packed => 7#4
  | .out => 8#4

/-- The index of a register in the space CSR (R22). -/
def csrIndex : Csr → Nat
  | .id => 0
  | .cmd => 1
  | .err => 2
  | .errstage => 3
  | .errinfo => 4
  | .esticky => 5
  | .tlen => 6
  | .blen => 7
  | .plen => 8
  | .olen => 9
  | .nnodes => 10
  | .root => 11
  | .capText => 12
  | .capBits => 13
  | .capPack => 14
  | .capOut => 15

/-- `wr SPACE[i], v` (R99). -/
def wr (sp : Space) (i v : Nat) : Transaction := ⟨true, spaceId sp, BitVec.ofNat 32 i, BitVec.ofNat 256 v⟩

/-- `wr CSR.NAME, v` (R99). -/
def wrCsr (r : Csr) (v : Nat) : Transaction := wr .csr (csrIndex r) v

/-- `rd SPACE[i]`, and `expect SPACE[i] = v` (R99, R100). -/
def rd (sp : Space) (i : Nat) : Transaction := ⟨false, spaceId sp, BitVec.ofNat 32 i, 0#256⟩

/-- `rd CSR.NAME`, and `expect CSR.NAME = v` (R99, R100). -/
def rdCsr (r : Csr) : Transaction := rd .csr (csrIndex r)

/-- `cmd M` (R100). -/
def cmdScript (i : Instr) : List Transaction := [wrCsr .cmd (encode i).toNat]

/-- The writes of a list of elements to indices 0, 1, 2, ... of a space. -/
def wrAll (sp : Space) (vs : List Nat) : List Transaction := vs.zipIdx.map fun p => wr sp p.2 p.1

/-- `text "..."` (R100). -/
def textScript (syms : List Byte) : List Transaction :=
  wrAll .text (syms.map BitVec.toNat) ++ [wrCsr .tlen syms.length]

/-- `bytes b0 b1 ...` (R100). -/
def bytesScript (bytes : List Byte) : List Transaction :=
  wrAll .packed (bytes.map BitVec.toNat) ++ [wrCsr .plen bytes.length]

/-- `bits "..."` (R100). -/
def bitsScript (b : BitSeq) : List Transaction := wrAll .bits (b.map Bool.toNat) ++ [wrCsr .blen b.length]

/-- `code s, "c"` (R100). -/
def codeScript (sym : Nat) (c : BitSeq) : List Transaction :=
  [wr .codelen sym c.length, wr .codebits sym (lsbFirst c)]

/-- A script as events waiting at the port. -/
def eventsOf (script : List Transaction) : List Event := script.map .transaction

end Sys2Proof.Machine
end

