-- ==== Sys2Proof/Machine/TableLine.lean ====
section
/-! DEFINITION. The code-table line (20_memory.md R80 to R84): host software outside the block, given as functions
of the table and of the line. The block neither writes nor reads a line (R80). -/

namespace Sys2Proof.Machine

/-- The decimal numeral of a number, no sign, no leading zeros (R81); the first argument bounds the digits. -/
def decimalDigits : Nat → Nat → List Char
  | 0, _ => []
  | k + 1, n => if n < 10 then [Nat.digitChar n] else decimalDigits k (n / 10) ++ [Nat.digitChar (n % 10)]

/-- The decimal numeral of a symbol value: at most three digits (R81). -/
def decimal (n : Nat) : List Char := decimalDigits 3 n

/-- The character of a bit (R81). -/
def bitChar (b : Bool) : Char := if b then '1' else '0'

/-- The entries of the table, ascending by symbol (R81). -/
def tableEntries (s : State) : List (Nat × BitSeq) :=
  ((List.range Config.nsym).filter fun i => codeLength s (BitVec.ofNat 8 i) != 0).map
    fun i => (i, codeOf s (BitVec.ofNat 8 i))

/-- One entry of the line: numeral, colon, code (R80, R81). -/
def entryText (e : Nat × BitSeq) : List Char := decimal e.1 ++ ':' :: e.2.map bitChar

/-- The line of the table in CODELEN and CODEBITS (R81). A table without a symbol gives the empty line, for which the
grammar of R80 has no entry (N15): DESIGN CHOICE, log entry 18. -/
def tableLine (s : State) : List Char := ['-'].intercalate ((tableEntries s).map entryText)

/-- A line split at every occurrence of a character. -/
def splitAtChar (c : Char) : List Char → List (List Char)
  | [] => [[]]
  | x :: xs =>
    match splitAtChar c xs with
    | [] => [[x]]
    | p :: ps => if x = c then [] :: p :: ps else (x :: p) :: ps

/-- What is trimmed at both ends of the line: space, tab, carriage return, line feed. DESIGN CHOICE, log entry 15. -/
def isBlank (c : Char) : Bool := c == ' ' || c == '\t' || c == '\r' || c == '\n'

/-- The line trimmed at both ends (R82). -/
def trimLine (line : List Char) : List Char := ((line.dropWhile isBlank).reverse.dropWhile isBlank).reverse

/-- At least one character, all of them digits: leading zeros allowed. -/
def digitsOnly (cs : List Char) : Bool := !cs.isEmpty && cs.all Char.isDigit

/-- A canonical decimal numeral: digits only, at least one, no leading zero. -/
def canonicalDecimal (cs : List Char) : Bool := digitsOnly cs && (cs.length == 1 || cs.head? != some '0')

/-- The number a list of decimal digits stands for. -/
def decimalValue (digits : List Char) : Nat := digits.foldl (fun v c => 10 * v + (c.toNat - '0'.toNat)) 0

/-- A first token without its spaces and without a plus sign before the rest (N15). A minus sign cannot stand in a
token: the line is split at every `-` (R82). -/
def decimalBody (cs : List Char) : List Char :=
  match cs.filter fun c => !isBlank c with
  | '+' :: rest => rest
  | rest => rest

/-- The first token as a decimal integer (R82). A canonical numeral is read; whether a number with leading zeros, a
plus sign or spaces is accepted is left open (N15); accepted, its value is that of its digits in their order (DESIGN
CHOICE, log entry 15). No other token is a decimal integer, so its entry is malformed (R83). -/
def parseDecimal (cs : List Char) : Option Nat :=
  if canonicalDecimal cs then some (decimalValue cs)
  else if digitsOnly (decimalBody cs) && Config.acceptsOddDecimal cs then some (decimalValue (decimalBody cs))
  else none

/-- A bit of the second token. -/
def parseBit (c : Char) : Option Bool := if c = '0' then some false else if c = '1' then some true else none

/-- The second token as a code (R82); none when a character is neither 0 nor 1 (R83). -/
def parseCode : List Char → Option BitSeq
  | [] => some []
  | c :: cs =>
    match parseBit c, parseCode cs with
    | some b, some bs => some (b :: bs)
    | _, _ => none

/-- One piece of the line: exactly two tokens, and an entry the block can hold; none is a malformed entry (R82,
R83). -/
def parseEntry (piece : List Char) : Option (Nat × BitSeq) :=
  match splitAtChar ':' piece with
  | [a, b] =>
    match parseDecimal a, parseCode b with
    | some sym, some c => if entryWellFormed (sym, c) then some (sym, c) else none
    | _, _ => none
  | _ => none

/-- The entries of a line; none when the policy rejects the load (R82, R83). An empty line is one malformed piece
(N15): DESIGN CHOICE, log entry 18. -/
def readEntries (policy : Config.MalformedPolicy) (line : List Char) : Option (List (Nat × BitSeq)) :=
  let pieces := (splitAtChar '-' (trimLine line)).map parseEntry
  match policy with
  | .skipEntry => some (pieces.filterMap id)
  | .rejectLoad => if pieces.all Option.isSome then some (pieces.filterMap id) else none

/-- The transactions that load entries: every `CODELEN` to 0 first, then each entry; a symbol given twice keeps the
later (R82, N16). -/
def loadScript (entries : List (Nat × BitSeq)) : List Transaction :=
  wrAll .codelen (List.replicate Config.nsym 0) ++ entries.flatMap fun e => codeScript e.1 e.2

end Sys2Proof.Machine
end

