-- ==== Sys2Proof/Safety.lean ====
section
/-! DEFINITION. What the claims are stated in: the invariants of the block's state (20_memory.md R66, 10_state.md
R26 to R34, R41), a run without a failure (R250), and the notions of the laws (49_laws.md). -/

namespace Sys2Proof.Machine

/-- The length registers are within the capacities (R29 to R32). -/
def State.LengthsInRange (s : State) : Prop :=
  s.tlen.toNat ≤ Config.textCap ∧ s.blen.toNat ≤ Config.bitsCap ∧ s.plen.toNat ≤ Config.packCap
    ∧ s.olen.toNat ≤ Config.outCap

/-- Every data space is in its canonical form and lists no index beyond its size (R38; log entry 7). -/
def State.SpacesCanonical (s : State) : Prop :=
  (Mem.Wf 0#8 s.text ∧ s.text.Below Config.textCap) ∧
  (Mem.Wf 0#32 s.freq ∧ s.freq.Below Config.nsym) ∧
  (Mem.Wf Node.zero s.node ∧ s.node.Below Config.maxNodes) ∧
  (Mem.Wf 0#8 s.codelen ∧ s.codelen.Below Config.nsym) ∧
  (Mem.Wf 0#255 s.codebits ∧ s.codebits.Below Config.nsym) ∧
  (Mem.Wf false s.bits ∧ s.bits.Below Config.bitsCap) ∧
  (Mem.Wf 0#8 s.packed ∧ s.packed.Below Config.packCap) ∧
  (Mem.Wf 0#8 s.out ∧ s.out.Below Config.outCap)

/-- The stages that can raise an error code, by their opcodes (R244); ILLEGAL has any stage (R26). -/
def stagesOfError (code : Nat) : List Nat :=
  match code with
  | 1 => [3]
  | 2 => [10]
  | 3 => [9]
  | 4 => [5, 6, 10]
  | 5 => [7]
  | 6 => [4]
  | 7 => List.range 16
  | _ => []

/-- The failure registers agree with each other and with CMD (R25 to R27, R97, R241, R244): without an error all
are 0; an error is one its stage can raise; ILLEGAL stands exactly with a reserved word, and then names it. -/
def State.FailureRegistersAgree (s : State) : Prop :=
  (s.err = 0#4 → s.errstage = 0#4 ∧ s.errinfo = 0#32) ∧
  (s.err ≠ 0#4 → s.errstage.toNat ∈ stagesOfError s.err.toNat) ∧
  (s.err = 7#4 ↔ 14 ≤ s.cmd.toNat) ∧
  (s.err = 7#4 → s.errstage.toNat = s.cmd.toNat % 16 ∧ s.errinfo = s.cmd)

/-- Node i is an internal node with child j (R40). -/
def isParent (m : Mem Node) (i j : Nat) : Prop :=
  ∃ f l r, m.read Node.zero i = .internal f l r ∧ (l.toNat = j ∨ r.toNat = j)

/-- The frequency of node i (R40). -/
def freqAt (m : Mem Node) (i : Nat) : Nat := (nodeFreq (m.read Node.zero i)).toNat

/-- The tree invariant of R41 over the first `nn` nodes, with R33 (odd, at most 511). -/
def TreeSound (m : Mem Node) (nn : Nat) : Prop :=
  nn % 2 = 1 ∧ nn ≤ Config.maxNodes ∧
  (∀ i < (nn + 1) / 2, ∃ sym f, m.read Node.zero i = .leaf sym f) ∧
  (∀ i j sym sym' f f', i < j → j < (nn + 1) / 2 → m.read Node.zero i = .leaf sym f →
    m.read Node.zero j = .leaf sym' f' → sym.toNat < sym'.toNat) ∧
  (∀ i, (nn + 1) / 2 ≤ i → i < nn → ∃ f l r, m.read Node.zero i = .internal f l r ∧ l.toNat < i ∧ r.toNat < i ∧
    l ≠ r ∧ f.toNat = freqAt m l.toNat + freqAt m r.toNat) ∧
  (∀ j < nn - 1, ∃ i, (i < nn ∧ isParent m i j) ∧ ∀ i' < nn, isParent m i' j → i' = i) ∧
  (∀ i < nn, ¬ isParent m i (nn - 1))

/-- NODE, `NNODES` and `ROOT` hold a sound tree or none (R33, R34, R41). -/
def State.TreeInvariant (s : State) : Prop :=
  (s.nnodes = 0#10 → s.root = 0#9) ∧
  (s.nnodes ≠ 0#10 → s.root.toNat = s.nnodes.toNat - 1 ∧ TreeSound s.node s.nnodes.toNat)

/-- No command has failed since the sticky flag was last cleared (R250). -/
def State.NoFailure (s : State) : Prop := s.esticky = 0#1

/-- The symbol is in the code table (R45). -/
def InTable (s : State) (sym : Byte) : Prop := codeLength s sym ≠ 0

/-- No code of the table is a prefix of the code of another symbol (R221). -/
def PrefixFree (s : State) : Prop :=
  ∀ a b : Byte, a ≠ b → InTable s a → InTable s b → ¬ (codeOf s a <+: codeOf s b)

/-- The node reached from node i along a path, 0 to the left, 1 to the right (R150, R151). -/
def followPath (m : Mem Node) : Nat → BitSeq → Option Nat
  | i, [] => some i
  | i, b :: path =>
    match m.read Node.zero i with
    | .leaf _ _ => none
    | .internal _ l r => followPath m (if b then r.toNat else l.toNat) path

/-- The symbol is the lowest one of the table whose code is the bit sequence (R199, R200). -/
def LowestMatch (s : State) (c : BitSeq) (sym : Byte) : Prop :=
  (InTable s sym ∧ codeOf s sym = c) ∧ ∀ a : Byte, a.toNat < sym.toNat → InTable s a → codeOf s a ≠ c

/-- No code of the table is a non-empty prefix of the bit sequence (R199). -/
def NoCodeStarts (s : State) (b : BitSeq) : Prop := ∀ a : Byte, InTable s a → ¬ (codeOf s a <+: b)

/-- A bit sequence cut greedily (R199, R200): the pieces with their symbols, and what is left. Each piece is the
shortest prefix of what remains that is a code, with the lowest symbol of that code; no code starts what is left. -/
def GreedyCut (s : State) (pieces : List (BitSeq × Byte)) (rest : BitSeq) : Prop :=
  (∀ p ∈ pieces, LowestMatch s p.1 p.2 ∧ ∀ a : Byte, InTable s a → codeOf s a <+: p.1 → codeOf s a = p.1) ∧
  NoCodeStarts s rest

/-- The bits of the pieces, one after the other. -/
def piecesBits (pieces : List (BitSeq × Byte)) : BitSeq := pieces.flatMap Prod.fst

/-- The host performs a script of transactions that starts no command (R99). -/
def performAll (script : List Transaction) (s : State) : State := script.foldl (fun u t => access t u) s

end Sys2Proof.Machine
end

