-- ==== Sys2Proof/Certificates/Slice0/Obligations.lean ====
section
/-! DEFINITION. The statements for the provers. Statements about a step name the model's own fields `inbox` and
`answers` (log entries 1 and 2: the host's transactions still to come, the answers given); what an answer holds is the
spec's (20_memory.md R61). -/

open Sys2Proof Sys2Proof.Machine

/-! ## Encoding -/

/-- R93: the opcode map, each word written out; R96: the two reserved opcodes. -/
def Obligations.OpcodeMapWordsDecode : Prop :=
  decode 0x00000000#32 = .ok .nop ∧ decode 0x00000001#32 = .ok .clr ∧ decode 0x00000002#32 = .ok .count ∧
  decode 0x00000003#32 = .ok .build ∧ decode 0x00000004#32 = .ok .gen ∧ decode 0x00000005#32 = .ok .map ∧
  decode 0x00000006#32 = .ok .pad ∧ decode 0x00000007#32 = .ok .pack ∧ decode 0x00000008#32 = .ok .expand ∧
  decode 0x00000009#32 = .ok .strip ∧ decode 0x0000000A#32 = .ok .matchCodes ∧ decode 0x0000000B#32 = .ok .enc ∧
  decode 0x0000000C#32 = .ok .dec ∧ decode 0x0000000D#32 = .ok .compress ∧
  decode 0x0000000E#32 = .error .reservedOpcode ∧ decode 0x0000000F#32 = .error .reservedOpcode

/-- R92: a word is illegal exactly when `w[31:4]` is not zero or `w[3:0]` is 14 or 15; else its command is the one
of `w[3:0]`. -/
def Obligations.IllegalWordsAreTheReservedOnes : Prop :=
  ∀ w : Word,
    ((∃ e, decode w = .error e) ↔ (w.toNat / 16 ≠ 0 ∨ w.toNat % 16 = 14 ∨ w.toNat % 16 = 15)) ∧
    ∀ i, decode w = .ok i → (opcode i).toNat = w.toNat % 16

/-- Decode and encode agree: every command is decoded from its word, and from no other of the 2^32 words. -/
def Obligations.DecodeAndEncodeAgree : Prop :=
  ∀ i : Instr, i.wellFormed = true → ∀ w : Word, decode w = .ok i ↔ w = encode i

/-! ## The step and the port -/

/-- R110, R97: a write to `CSR.CMD` stores the word and clears `ERR`, `ERRSTAGE`, `ERRINFO`; a legal word runs its
command on that state, an illegal one fails as ILLEGAL and changes nothing else; the write is answered with no bus
error. -/
def Obligations.CommandWriteRunsTheDecodedCommand : Prop :=
  ∀ (s : State) (wdata : PortData) (rest : List Event) (w : Word),
    s.inbox = .transaction ⟨true, 0#4, 1#32, wdata⟩ :: rest → w = wdata.setWidth 32 →
    (∀ i t, decode w = .ok i →
      exec i { s with inbox := rest, cmd := w, err := 0#4, errstage := 0#4, errinfo := 0#32 } = .next t →
      step s = .next { t with answers := t.answers ++ [⟨false, 0#256⟩] }) ∧
    (∀ e, decode w = .error e →
      step s = .next { s with
        inbox := rest, cmd := w, err := 7#4, errstage := w.extractLsb' 0 4, errinfo := w, esticky := 1#1,
        answers := s.answers ++ [⟨false, 0#256⟩] })

/-- The word the host places for the next step runs as its command (log entry 12: a command comes to run by a host
write to `CSR.CMD`). -/
def Obligations.FetchWordRunsItsCommand : Prop :=
  ∀ (s t : State) (i : Instr),
    exec i { s with cmd := encode i, err := 0#4, errstage := 0#4, errinfo := 0#32 } = .next t →
    decodeTableWord 32 (encode i).toNat = some i ∧
    step (s.withFetchWord 32 (encode i).toNat) = .next { t with answers := t.answers ++ [⟨false, 0#256⟩] }

/-- R111: every command and every step ends in one next state; none waits or stops. -/
def Obligations.EveryCommandAndStepEnds : Prop :=
  (∀ (i : Instr) (s : State), ∃ t, exec i s = .next t) ∧ ∀ s : State, ∃ t, step s = .next t

/-- R255, R270, R271: with nothing at the port the block does not move; the reset input gives every register and
element its reset value. That `inbox` and `answers` outlive a reset is the model's choice (log entries 3 and 4). -/
def Obligations.IdleAndResetSteps : Prop :=
  (∀ s : State, s.inbox = [] → step s = .next s) ∧
  ∀ (s : State) (rest : List Event), s.inbox = .reset :: rest →
    step s = .next { State.reset with inbox := rest, answers := s.answers }

/-- R51: what the host reads in the reset state. -/
def Obligations.ResetStateReadsAsTheSpecSays : Prop :=
  readCsr State.reset .id = 0x48554631#32 ∧ readCsr State.reset .capText = 65536#32 ∧
  readCsr State.reset .capBits = 524288#32 ∧ readCsr State.reset .capPack = 65536#32 ∧
  readCsr State.reset .capOut = 65536#32 ∧
  (∀ r : Csr, r ∉ [Csr.id, .capText, .capBits, .capPack, .capOut] → readCsr State.reset r = 0#32) ∧
  ∀ i : Nat,
    State.reset.text.read 0#8 i = 0#8 ∧ State.reset.freq.read 0#32 i = 0#32 ∧
    nodeBits (State.reset.node.read Node.zero i) = 0#67 ∧ State.reset.codelen.read 0#8 i = 0#8 ∧
    State.reset.codebits.read 0#255 i = 0#255 ∧ State.reset.bits.read false i = false ∧
    State.reset.packed.read 0#8 i = 0#8 ∧ State.reset.out.read 0#8 i = 0#8

/-- R66: the answer has `err = 1` in exactly the four cases, then `rdata = 0` and no state changes. -/
def Obligations.BusErrorsAreTheFourCases : Prop :=
  ∀ (s : State) (we : Bool) (space : BitVec 4) (index : BitVec 32) (wdata : PortData) (rest : List Event),
    s.inbox = .transaction ⟨we, space, index, wdata⟩ :: rest →
    ∃ t a, step s = .next t ∧ t.answers = s.answers ++ [a] ∧
      (a.err = true → a.rdata = 0#256 ∧ t = { s with inbox := rest, answers := s.answers ++ [a] }) ∧
      (a.err = true ↔
        (9 ≤ space.toNat ∨
         [16, 65536, 256, 511, 256, 256, 524288, 65536, 65536].getD space.toNat 0 ≤ index.toNat ∨
         (we = true ∧ (space = 3#4 ∨ space = 8#4 ∨
           (space = 0#4 ∧ index.toNat ∈ [0, 2, 3, 4, 9, 10, 11, 12, 13, 14, 15]))) ∨
         (we = true ∧ space = 0#4 ∧
           ((index = 6#32 ∧ 65536 < wdata.toNat % 2 ^ 32) ∨ (index = 7#32 ∧ 524288 < wdata.toNat % 2 ^ 32) ∨
            (index = 8#32 ∧ 65536 < wdata.toNat % 2 ^ 32)))))

/-- R62: a read answers the element with zeros above it and changes nothing; the registers by R22, with zeros for
their reserved bits. -/
def Obligations.ReadsAnswerTheElementAndChangeNothing : Prop :=
  ∀ (s : State) (space : BitVec 4) (index : BitVec 32) (wdata : PortData) (rest : List Event),
    s.inbox = .transaction ⟨false, space, index, wdata⟩ :: rest →
    index.toNat < [16, 65536, 256, 511, 256, 256, 524288, 65536, 65536].getD space.toNat 0 →
    ∃ v : PortData, step s = .next { s with inbox := rest, answers := s.answers ++ [⟨false, v⟩] } ∧
      (space = 0#4 → v.toNat =
        [0x48554631, s.cmd.toNat, s.err.toNat, s.errstage.toNat, s.errinfo.toNat, s.esticky.toNat, s.tlen.toNat,
         s.blen.toNat, s.plen.toNat, s.olen.toNat, s.nnodes.toNat, s.root.toNat, 65536, 524288, 65536,
         65536].getD index.toNat 0) ∧
      (space = 1#4 → v.toNat = (s.text.read 0#8 index.toNat).toNat) ∧
      (space = 2#4 → v.toNat = (s.freq.read 0#32 index.toNat).toNat) ∧
      (space = 3#4 → v.toNat = (nodeBits (s.node.read Node.zero index.toNat)).toNat) ∧
      (space = 4#4 → v.toNat = (s.codelen.read 0#8 index.toNat).toNat) ∧
      (space = 5#4 → v.toNat = (s.codebits.read 0#255 index.toNat).toNat) ∧
      (space = 6#4 → v.toNat = (s.bits.read false index.toNat).toNat) ∧
      (space = 7#4 → v.toNat = (s.packed.read 0#8 index.toNat).toNat) ∧
      (space = 8#4 → v.toNat = (s.out.read 0#8 index.toNat).toNat)

/-- R63, R64: a write to an element of a writable data space stores the low bits of `wdata` in that element and in no
other, and is answered with no bus error. -/
def Obligations.WritesStoreOneElement : Prop :=
  ∀ (s : State) (space : BitVec 4) (index : BitVec 32) (wdata : PortData) (rest : List Event),
    s.SpacesCanonical → s.inbox = .transaction ⟨true, space, index, wdata⟩ :: rest →
    index.toNat < [16, 65536, 256, 511, 256, 256, 524288, 65536, 65536].getD space.toNat 0 →
    (space = 1#4 → ∃ m,
      step s = .next { s with text := m, inbox := rest, answers := s.answers ++ [⟨false, 0#256⟩] } ∧
      ∀ j, m.read 0#8 j = if j = index.toNat then wdata.setWidth 8 else s.text.read 0#8 j) ∧
    (space = 2#4 → ∃ m,
      step s = .next { s with freq := m, inbox := rest, answers := s.answers ++ [⟨false, 0#256⟩] } ∧
      ∀ j, m.read 0#32 j = if j = index.toNat then wdata.setWidth 32 else s.freq.read 0#32 j) ∧
    (space = 4#4 → ∃ m,
      step s = .next { s with codelen := m, inbox := rest, answers := s.answers ++ [⟨false, 0#256⟩] } ∧
      ∀ j, m.read 0#8 j = if j = index.toNat then wdata.setWidth 8 else s.codelen.read 0#8 j) ∧
    (space = 5#4 → ∃ m,
      step s = .next { s with codebits := m, inbox := rest, answers := s.answers ++ [⟨false, 0#256⟩] } ∧
      ∀ j, m.read 0#255 j = if j = index.toNat then wdata.setWidth 255 else s.codebits.read 0#255 j) ∧
    (space = 6#4 → ∃ m,
      step s = .next { s with bits := m, inbox := rest, answers := s.answers ++ [⟨false, 0#256⟩] } ∧
      ∀ j, m.read false j = if j = index.toNat then wdata.getLsbD 0 else s.bits.read false j) ∧
    (space = 7#4 → ∃ m,
      step s = .next { s with packed := m, inbox := rest, answers := s.answers ++ [⟨false, 0#256⟩] } ∧
      ∀ j, m.read 0#8 j = if j = index.toNat then wdata.setWidth 8 else s.packed.read 0#8 j)

/-- R28 to R31, R63: a write to a length register within its capacity stores it; a write to `ESTICKY` clears it where
bit 0 is 1 and leaves it where bit 0 is 0. -/
def Obligations.RegisterWritesStoreOrClear : Prop :=
  ∀ (s : State) (index : BitVec 32) (wdata : PortData) (rest : List Event),
    s.inbox = .transaction ⟨true, 0#4, index, wdata⟩ :: rest →
    (index = 6#32 → wdata.toNat % 2 ^ 32 ≤ 65536 → step s = .next { s with
      tlen := wdata.setWidth 32, inbox := rest, answers := s.answers ++ [⟨false, 0#256⟩] }) ∧
    (index = 7#32 → wdata.toNat % 2 ^ 32 ≤ 524288 → step s = .next { s with
      blen := wdata.setWidth 32, inbox := rest, answers := s.answers ++ [⟨false, 0#256⟩] }) ∧
    (index = 8#32 → wdata.toNat % 2 ^ 32 ≤ 65536 → step s = .next { s with
      plen := wdata.setWidth 32, inbox := rest, answers := s.answers ++ [⟨false, 0#256⟩] }) ∧
    (index = 5#32 → step s = .next { s with
      esticky := if wdata.toNat % 2 = 1 then 0#1 else s.esticky,
      inbox := rest, answers := s.answers ++ [⟨false, 0#256⟩] })

/-- R40: the 67 bits of a node record, field by field. -/
def Obligations.NodeRecordLayout : Prop :=
  (∀ (sym : Byte) (f : NodeFreq), (nodeBits (.leaf sym f)).toNat = f.toNat * 2 ^ 27 + sym.toNat * 2) ∧
  ∀ (f : NodeFreq) (l r : NodeIndex),
    (nodeBits (.internal f l r)).toNat = f.toNat * 2 ^ 27 + r.toNat * 2 ^ 18 + l.toNat * 2 ^ 9 + 1

/-! ## Invariants -/

/-- R29 to R32, R38: every step keeps the length registers within the capacities and every data space in its
canonical form (log entry 7) with no index beyond its size. -/
def Obligations.StepKeepsSpacesAndLengths : Prop :=
  ∀ s s' : State, s.LengthsInRange → s.SpacesCanonical → step s = .next s' →
    s'.LengthsInRange ∧ s'.SpacesCanonical

/-- R41: every step keeps the tree invariant, R33 and R34 with it. -/
def Obligations.StepKeepsTreeInvariant : Prop :=
  ∀ s s' : State, s.TreeInvariant → step s = .next s' → s'.TreeInvariant

/-- R25 to R27, R97, R241, R244: every step keeps the failure registers in agreement with each other and with
`CMD`. -/
def Obligations.StepKeepsFailureRegistersInAgreement : Prop :=
  ∀ s s' : State, s.FailureRegistersAgree → step s = .next s' → s'.FailureRegistersAgree

/-- The reset state meets every invariant. -/
def Obligations.ResetMeetsTheInvariants : Prop :=
  State.reset.LengthsInRange ∧ State.reset.SpacesCanonical ∧ State.reset.TreeInvariant ∧
  State.reset.FailureRegistersAgree

/-! ## Rules over all commands -/

/-- R28, R250: `ESTICKY` is cleared by reset, by CLR and by a host write of 1 to its bit 0 only; it is set by a
failing command only, and by every one. -/
def Obligations.StickyFlagIsSetByFailuresOnly : Prop :=
  ∀ s s' : State, step s = .next s' →
    (s.esticky = 1#1 → s'.esticky = 0#1 →
      (∃ rest, s.inbox = .reset :: rest) ∨
      (∃ wdata rest, s.inbox = .transaction ⟨true, 0#4, 1#32, wdata⟩ :: rest ∧ wdata.setWidth 32 = 1#32) ∨
      ∃ wdata rest, s.inbox = .transaction ⟨true, 0#4, 5#32, wdata⟩ :: rest ∧ wdata.getLsbD 0 = true) ∧
    (s.esticky = 0#1 → s'.esticky = 1#1 →
      s'.err ≠ 0#4 ∧ ∃ wdata rest, s.inbox = .transaction ⟨true, 0#4, 1#32, wdata⟩ :: rest) ∧
    ∀ wdata rest, s.inbox = .transaction ⟨true, 0#4, 1#32, wdata⟩ :: rest → s'.err ≠ 0#4 → s'.esticky = 1#1

/-- R22 ("written by"), R94: what no command outside a list changes. `CMD` and the port are the step's. -/
def Obligations.CommandsWriteOnlyTheirOperands : Prop :=
  ∀ (i : Instr) (s t : State), exec i s = .next t →
    (t.cmd = s.cmd ∧ t.inbox = s.inbox ∧ t.answers = s.answers) ∧
    (i ≠ .clr → t.tlen = s.tlen ∧ t.text = s.text) ∧
    (i ∉ [Instr.clr, .count, .compress] → t.freq = s.freq) ∧
    (i ∉ [Instr.clr, .build, .compress] → t.node = s.node ∧ t.nnodes = s.nnodes ∧ t.root = s.root) ∧
    (i ∉ [Instr.clr, .gen, .compress] → t.codelen = s.codelen ∧ t.codebits = s.codebits) ∧
    (i ∉ [Instr.clr, .map, .pad, .expand, .enc, .dec, .compress] → t.bits = s.bits) ∧
    (i ∉ [Instr.clr, .map, .pad, .expand, .strip, .enc, .dec, .compress] → t.blen = s.blen) ∧
    (i ∉ [Instr.clr, .pack, .enc, .compress] → t.packed = s.packed ∧ t.plen = s.plen) ∧
    (i ∉ [Instr.clr, .matchCodes, .dec] → t.out = s.out ∧ t.olen = s.olen)

/-- R244: the error codes a command can end with; a command that succeeds leaves `ERR` as dispatch cleared it. -/
def Obligations.CommandsRaiseOnlyTheirFailures : Prop :=
  ∀ (i : Instr) (s t : State), s.err = 0#4 → exec i s = .next t →
    (i ∈ [Instr.nop, .clr, .count, .expand] → t.err = 0#4) ∧
    (i = .build → t.err ∈ [0#4, 1#4]) ∧ (i = .gen → t.err ∈ [0#4, 6#4]) ∧
    (i ∈ [Instr.map, .pad, .enc] → t.err ∈ [0#4, 4#4]) ∧ (i = .pack → t.err ∈ [0#4, 5#4]) ∧
    (i = .strip → t.err ∈ [0#4, 3#4]) ∧ (i = .matchCodes → t.err ∈ [0#4, 2#4, 4#4]) ∧
    (i = .dec → t.err ∈ [0#4, 2#4, 3#4, 4#4]) ∧ (i = .compress → t.err ∈ [0#4, 1#4, 4#4])

/-- R247: a primitive command that fails leaves every data space as it was, but for CODELEN, which a failing GEN
clears. -/
def Obligations.FailingPrimitiveWritesNoSpace : Prop :=
  ∀ (i : Instr) (s t : State), i ∉ [Instr.enc, .dec, .compress] → s.err = 0#4 → exec i s = .next t →
    t.err ≠ 0#4 →
    t.text = s.text ∧ t.freq = s.freq ∧ t.node = s.node ∧ t.codebits = s.codebits ∧ t.bits = s.bits ∧
    t.packed = s.packed ∧ t.out = s.out ∧ (i ≠ .gen → t.codelen = s.codelen) ∧
    (i = .gen → ∀ j, t.codelen.read 0#8 j = 0#8)

/-- R116: a composite runs its stages in order; at the first that fails it ends with that stage's failure, and the
destinations of the later stages are invalidated. A failure shows as `ERR ≠ 0`, which dispatch has cleared. -/
def Obligations.CompositesRunTheirStagesAndAbort : Prop :=
  (∀ s s1 s2 : State, s.err = 0#4 → exec .map s = .next s1 → exec .pad s1 = .next s2 →
    (s1.err ≠ 0#4 → exec .enc s = .next { s1 with plen := 0#32 }) ∧
    (s1.err = 0#4 → s2.err ≠ 0#4 → exec .enc s = .next { s2 with plen := 0#32 }) ∧
    (s1.err = 0#4 → s2.err = 0#4 → exec .enc s = exec .pack s2)) ∧
  (∀ s s1 s2 : State, s.err = 0#4 → exec .expand s = .next s1 → exec .strip s1 = .next s2 →
    (s2.err ≠ 0#4 → exec .dec s = .next { s2 with olen := 0#32 }) ∧
    (s2.err = 0#4 → exec .dec s = exec .matchCodes s2)) ∧
  ∀ s s1 s2 s3 : State, s.err = 0#4 → exec .count s = .next s1 → exec .build s1 = .next s2 →
    exec .gen s2 = .next s3 →
    (s2.err ≠ 0#4 → ∃ l, exec .compress s = .next { s2 with codelen := l, blen := 0#32, plen := 0#32 } ∧
      ∀ j, l.read 0#8 j = 0#8) ∧
    (s2.err = 0#4 → s3.err = 0#4 ∧ exec .compress s = exec .enc s3)

/-! ## NOP, CLR, COUNT -/

/-- R112: NOP does nothing; its dispatch stores the word 0 and clears `ERR`, `ERRSTAGE`, `ERRINFO`, and `ESTICKY`
stays. -/
def Obligations.NopClearsTheErrorOnly : Prop :=
  (∀ s : State, exec .nop s = .next s) ∧
  ∀ (s : State) (wdata : PortData) (rest : List Event),
    s.inbox = .transaction ⟨true, 0#4, 1#32, wdata⟩ :: rest → wdata.setWidth 32 = 0#32 →
    step s = .next { s with
      inbox := rest, cmd := 0#32, err := 0#4, errstage := 0#4, errinfo := 0#32,
      answers := s.answers ++ [⟨false, 0#256⟩] }

/-- R113: CLR gives the reset state, `CMD` excepted, which keeps the word that dispatch stored. -/
def Obligations.ClrGivesTheResetStateButCmd : Prop :=
  decode 0x00000001#32 = .ok .clr ∧ ∀ s : State, ∃ t, exec .clr s = .next t ∧ t.cmd = s.cmd ∧
    (∀ r : Csr, r ≠ .cmd → readCsr t r = readCsr State.reset r) ∧
    ∀ i, t.text.read 0#8 i = 0#8 ∧ t.freq.read 0#32 i = 0#32 ∧ t.node.read Node.zero i = .leaf 0#8 0#40 ∧
      t.codelen.read 0#8 i = 0#8 ∧ t.codebits.read 0#255 i = 0#255 ∧ t.bits.read false i = false ∧
      t.packed.read 0#8 i = 0#8 ∧ t.out.read 0#8 i = 0#8

/-- R121: COUNT leaves in FREQ the number of occurrences in the text of every symbol below 128, and 0 for every other
symbol, whatever FREQ held; nothing else changes. -/
def Obligations.CountCountsTheSymbolsBelow128 : Prop :=
  decode 0x00000002#32 = .ok .count ∧ ∀ s : State, ∃ m, exec .count s = .next { s with freq := m } ∧
    ∀ i : Nat, (m.read 0#32 i).toNat =
      if i < 128 then (List.range s.tlen.toNat).countP (fun k => (s.text.read 0#8 k).toNat == i) else 0

/-! ## BUILD -/

/-- R140: BUILD on an empty frequency table fails with EMPTY_FREQ before it writes NODE, and leaves no tree. -/
def Obligations.BuildRejectsTheEmptyTable : Prop :=
  ∀ s : State, (∀ i < 256, s.freq.read 0#32 i = 0#32) →
    exec .build s = .next { s with
      err := 1#4, errstage := 3#4, errinfo := 0#32, esticky := 1#1, nnodes := 0#10, root := 0#9 }

/-- R134 to R137: the leaves stand at indices 0 to n - 1 in ascending symbol order; in round r the two least members
of the queue under (NFREQ, index), least first, become the left and right child of the internal node n + r, whose
frequency is their sum; there are n - 1 rounds and the last node is the root; nodes above keep their records. The
queue in round r is the nodes below n + r that are no child of an earlier internal node. -/
def Obligations.BuildCombinesTheTwoLeastNodes : Prop :=
  ∀ (s : State) (syms : List Nat), syms ≠ [] → syms.Pairwise (· < ·) →
    (∀ i, i ∈ syms ↔ i < 256 ∧ s.freq.read 0#32 i ≠ 0#32) →
    ∃ m : Mem Node,
      exec .build s = .next { s with
        node := m, nnodes := BitVec.ofNat 10 (2 * syms.length - 1), root := BitVec.ofNat 9 (2 * syms.length - 2) } ∧
      (∀ k (h : k < syms.length), m.read Node.zero k =
        .leaf (BitVec.ofNat 8 syms[k]) ((s.freq.read 0#32 syms[k]).setWidth 40)) ∧
      (∀ r < syms.length - 1,
        let live := fun c => c < syms.length + r ∧ ∀ r' < r, ¬ isParent m (syms.length + r') c
        let before := fun c d => freqAt m c < freqAt m d ∨ (freqAt m c = freqAt m d ∧ c < d)
        ∃ a b, live a ∧ live b ∧ a ≠ b ∧
          m.read Node.zero (syms.length + r) = .internal (nodeFreq (m.read Node.zero a) + nodeFreq (m.read Node.zero b))
            (BitVec.ofNat 9 a) (BitVec.ofNat 9 b) ∧
          (∀ c, live c → c ≠ a → before a c) ∧ (∀ c, live c → c ≠ a → c ≠ b → before b c)) ∧
      ∀ j, 2 * syms.length - 1 ≤ j → m.read Node.zero j = s.node.read Node.zero j

/-- R141, R144: sums are exact: an internal node's frequency is the sum of its children's, the root's is the sum of
all counts; the internal frequencies are non-decreasing. -/
def Obligations.BuildFrequenciesAreExactAndRising : Prop :=
  ∀ s t : State, (∃ i < 256, s.freq.read 0#32 i ≠ 0#32) → exec .build s = .next t →
    freqAt t.node t.root.toNat = ((List.range 256).map fun i => (s.freq.read 0#32 i).toNat).sum ∧
    (∀ i f l r, i < t.nnodes.toNat → t.node.read Node.zero i = .internal f l r →
      f.toNat = freqAt t.node l.toNat + freqAt t.node r.toNat) ∧
    ∀ i j, (t.nnodes.toNat + 1) / 2 ≤ i → i < j → j < t.nnodes.toNat → freqAt t.node i ≤ freqAt t.node j

/-- 93_implementation_defined.md I1, I3: the tree is sound (R41) for every tie-break and every child order, not for
the block's alone. -/
def Obligations.BuildIsSoundForEveryTieBreak : Prop :=
  ∀ (tb : Config.TieBreak) (co : Config.ChildOrder) (s t : State),
    buildTree tb co s = .completed t → t.root.toNat = t.nnodes.toNat - 1 ∧ TreeSound t.node t.nnodes.toNat

/-! ## GEN and the laws of a generated table -/

/-- R154: GEN without a tree fails with NO_TREE and empties the table's lengths. -/
def Obligations.GenRejectsTheMissingTree : Prop :=
  ∀ s : State, s.nnodes = 0#10 → ∃ l,
    exec .gen s = .next { s with
      err := 6#4, errstage := 4#4, errinfo := 0#32, esticky := 1#1, codelen := l } ∧
    ∀ i, l.read 0#8 i = 0#8

/-- R153: when the root is a leaf, its symbol gets the one-bit code `0` and no other symbol is in the table. -/
def Obligations.GenGivesASingleLeafOneBit : Prop :=
  ∀ (s : State) (sym : Byte) (f : NodeFreq), s.nnodes ≠ 0#10 → s.node.read Node.zero s.root.toNat = .leaf sym f →
    ∃ l b, exec .gen s = .next { s with codelen := l, codebits := b } ∧
      ∀ i, l.read 0#8 i = (if i = sym.toNat then 1#8 else 0#8) ∧ b.read 0#255 i = 0#255

/-- R150, R155: on a tree with more than one node GEN records, for every leaf, the path from the root as the code of
its symbol, 0 for left and 1 for right, the bits above it zero; no other symbol is in the table. -/
def Obligations.GenRecordsThePathOfEveryLeaf : Prop :=
  ∀ s : State, s.TreeInvariant → 1 < s.nnodes.toNat → ∃ l b t, t = { s with codelen := l, codebits := b } ∧
    exec .gen s = .next t ∧
    (∀ (sym : Byte) (path : BitSeq), (InTable t sym ∧ codeOf t sym = path) ↔
      ∃ i f, followPath s.node s.root.toNat path = some i ∧ s.node.read Node.zero i = .leaf sym f) ∧
    ∀ (sym : Byte) (j : Nat), codeLength t sym ≤ j → (b.read 0#255 sym.toNat).getLsbD j = false

/-- R221: the table GEN makes is prefix-free. -/
def Obligations.GeneratedTableIsPrefixFree : Prop :=
  ∀ s t : State, s.TreeInvariant → s.nnodes ≠ 0#10 → exec .gen s = .next t → PrefixFree t

/-- R220: after BUILD and GEN the table holds exactly the symbols with a count; the length of a code is the number of
edges from the root to the leaf, or 1 when the tree has one node. -/
def Obligations.TableCoversTheFrequencyTable : Prop :=
  ∀ s t u : State, (∃ i < 256, s.freq.read 0#32 i ≠ 0#32) → exec .build s = .next t → exec .gen t = .next u →
    ∀ sym : Byte,
      (InTable u sym ↔ s.freq.read 0#32 sym.toNat ≠ 0#32) ∧
      (InTable u sym → 1 ≤ codeLength u sym ∧ codeLength u sym ≤ 255) ∧
      (InTable u sym → t.nnodes.toNat = 1 → codeLength u sym = 1) ∧
      (InTable u sym → t.nnodes.toNat ≠ 1 → ∃ path i f, followPath t.node t.root.toNat path = some i ∧
        t.node.read Node.zero i = .leaf sym f ∧ path.length = codeLength u sym)

/-- R222: the Kraft sum of a generated table is 1 for a tree of more than one node, 1/2 for one node (both times
2^255 here); in the first case every long enough bit sequence starts with exactly one code, in the second the
sequence `1` starts with none. -/
def Obligations.GeneratedTableIsFull : Prop :=
  ∀ s t : State, s.TreeInvariant → s.nnodes ≠ 0#10 → exec .gen s = .next t →
    let kraft := ((List.range 256).map fun i =>
      if codeLength t (BitVec.ofNat 8 i) = 0 then 0 else 2 ^ (255 - codeLength t (BitVec.ofNat 8 i))).sum
    (1 < s.nnodes.toNat → kraft = 2 ^ 255 ∧
      ∀ b : BitSeq, 255 ≤ b.length → ∃ sym, (InTable t sym ∧ codeOf t sym <+: b) ∧
        ∀ sym', InTable t sym' → codeOf t sym' <+: b → sym' = sym) ∧
    (s.nnodes.toNat = 1 → kraft = 2 ^ 254 ∧ NoCodeStarts t [true])

/-- R223: a symbol of strictly greater frequency gets no longer code. -/
def Obligations.MoreFrequentSymbolsGetNoLongerCodes : Prop :=
  ∀ (s t u : State) (a b : Byte), exec .build s = .next t → exec .gen t = .next u →
    s.freq.read 0#32 b.toNat ≠ 0#32 → (s.freq.read 0#32 b.toNat).toNat < (s.freq.read 0#32 a.toNat).toNat →
    codeLength u a ≤ codeLength u b

/-! ## MAP, PAD, PACK -/

/-- R161, R163: MAP writes the codes of the text's symbols one after the other, first bit first, a symbol of length 0
being skipped, and `BLEN` becomes the payload length P; bits from P on stay. When P exceeds BITS_CAP it fails with
CAPACITY(P) and writes no bit. -/
def Obligations.MapConcatenatesTheCodes : Prop :=
  decode 0x00000005#32 = .ok .map ∧ ∀ s : State,
    let sym := fun k => s.text.read 0#8 k
    let offset := fun k => ((List.range k).map fun i => codeLength s (sym i)).sum
    let P := offset s.tlen.toNat
    (P ≤ 524288 → ∃ m, exec .map s = .next { s with bits := m, blen := BitVec.ofNat 32 P } ∧
      (∀ k < s.tlen.toNat, ∀ j < codeLength s (sym k),
        m.read false (offset k + j) = (s.codebits.read 0#255 (sym k).toNat).getLsbD j) ∧
      ∀ j, P ≤ j → m.read false j = s.bits.read false j) ∧
    (524288 < P → exec .map s = .next { s with
      err := 4#4, errstage := 5#4, errinfo := BitVec.ofNat 32 P, esticky := 1#1, blen := 0#32 })

/-- R167: PAD appends one 1 and then zeros, k = 8 - (BLEN mod 8) bits in all; every other bit stays. When they do not
fit it fails with CAPACITY and changes neither `BLEN` nor BITS. -/
def Obligations.PadAppendsTheSentinelAndZeros : Prop :=
  decode 0x00000006#32 = .ok .pad ∧ ∀ s : State,
    let B := s.blen.toNat
    let k := 8 - B % 8
    (B + k ≤ 524288 → ∃ m, exec .pad s = .next { s with bits := m, blen := BitVec.ofNat 32 (B + k) } ∧
      m.read false B = true ∧ (∀ j, 1 ≤ j → j < k → m.read false (B + j) = false) ∧
      ∀ j, j < B ∨ B + k ≤ j → m.read false j = s.bits.read false j) ∧
    (524288 < B + k → exec .pad s = .next { s with
      err := 4#4, errstage := 6#4, errinfo := BitVec.ofNat 32 (B + k), esticky := 1#1 })

/-- R172, R173, R175: PACK makes each 8 bits a byte, the first bit most significant; bytes above stay. On a length
that is no multiple of 8 it fails with UNALIGNED and `PLEN` becomes 0. -/
def Obligations.PackMakesBytesFirstBitHigh : Prop :=
  decode 0x00000007#32 = .ok .pack ∧ ∀ s : State,
    let B := s.blen.toNat
    let bit := fun j => (s.bits.read false j).toNat
    (B % 8 = 0 → ∃ m, exec .pack s = .next { s with packed := m, plen := BitVec.ofNat 32 (B / 8) } ∧
      (∀ j < B / 8, (m.read 0#8 j).toNat =
        128 * bit (8 * j) + 64 * bit (8 * j + 1) + 32 * bit (8 * j + 2) + 16 * bit (8 * j + 3) +
        8 * bit (8 * j + 4) + 4 * bit (8 * j + 5) + 2 * bit (8 * j + 6) + bit (8 * j + 7)) ∧
      ∀ j, B / 8 ≤ j → m.read 0#8 j = s.packed.read 0#8 j) ∧
    (B % 8 ≠ 0 → exec .pack s = .next { s with
      err := 5#4, errstage := 7#4, errinfo := s.blen, esticky := 1#1, plen := 0#32 })

/-! ## EXPAND, STRIP, MATCH -/

/-- R191: EXPAND writes the eight bits of every byte, bit 7 first, and `BLEN` becomes 8 × `PLEN`; bits above stay. -/
def Obligations.ExpandWritesEveryByteHighBitFirst : Prop :=
  decode 0x00000008#32 = .ok .expand ∧ ∀ s : State, ∃ m,
    exec .expand s = .next { s with bits := m, blen := BitVec.ofNat 32 (8 * s.plen.toNat) } ∧
    (∀ j < s.plen.toNat, ∀ k < 8, m.read false (8 * j + k) = (s.packed.read 0#8 j).getLsbD (7 - k)) ∧
    ∀ j, 8 * s.plen.toNat ≤ j → m.read false j = s.bits.read false j

/-- R194, R195: STRIP sets `BLEN` to the greatest index of a 1 bit and writes no bit; without a 1 bit it fails with
NO_SENTINEL and leaves the sequence. -/
def Obligations.StripCutsAtTheLastOne : Prop :=
  decode 0x00000009#32 = .ok .strip ∧ (∀ (s : State) (p : Nat), p < s.blen.toNat → s.bits.read false p = true →
    (∀ i, p < i → i < s.blen.toNat → s.bits.read false i = false) →
    exec .strip s = .next { s with blen := BitVec.ofNat 32 p }) ∧
  ∀ s : State, (∀ i < s.blen.toNat, s.bits.read false i = false) →
    exec .strip s = .next { s with err := 3#4, errstage := 9#4, errinfo := s.blen, esticky := 1#1 }

/-- R199, R201, R203: on a bit sequence cut greedily into pieces (each the shortest code that starts what remains,
with the lowest symbol of that code) and a rest that no code starts, MATCH emits the symbols when the rest is empty
and they fit; fails with UNDECODABLE and the index of the first dangling bit when it is not; fails with CAPACITY and
the index of the bit that completed the first symbol too many when they do not fit. OUT is written on success
only. -/
def Obligations.MatchResolvesGreedily : Prop :=
  decode 0x0000000A#32 = .ok .matchCodes ∧ ∀ (s : State) (pieces : List (BitSeq × Byte)) (rest : BitSeq),
    GreedyCut s pieces rest → bitSequence s = piecesBits pieces ++ rest →
    (rest = [] → pieces.length ≤ 65536 → ∃ m,
      exec .matchCodes s = .next { s with out := m, olen := BitVec.ofNat 32 pieces.length } ∧
      (∀ k (h : k < pieces.length), m.read 0#8 k = pieces[k].2) ∧
      ∀ j, pieces.length ≤ j → m.read 0#8 j = s.out.read 0#8 j) ∧
    (rest ≠ [] → pieces.length ≤ 65536 → exec .matchCodes s = .next { s with
      err := 2#4, errstage := 10#4, errinfo := BitVec.ofNat 32 (piecesBits pieces).length, esticky := 1#1,
      olen := 0#32 }) ∧
    (65536 < pieces.length → exec .matchCodes s = .next { s with
      err := 4#4, errstage := 10#4, errinfo := BitVec.ofNat 32 ((piecesBits (pieces.take 65537)).length - 1),
      esticky := 1#1, olen := 0#32 })

/-- R200: MATCH is defined on every table and every sequence: every bit sequence can be cut greedily. -/
def Obligations.EverySequenceHasAGreedyCut : Prop :=
  ∀ (s : State) (b : BitSeq), ∃ pieces rest, GreedyCut s pieces rest ∧ b = piecesBits pieces ++ rest

/-! ## ENC, DEC, COMPRESS -/

/-- R177: when the payload of P bits fits with its padding, ENC leaves the payload, a 1 and zeros as the bit
sequence, `PLEN` = (P + 8) div 8, and the bytes of the sequence; bits and bytes above stay. -/
def Obligations.EncPacksThePaddedPayload : Prop :=
  ∀ s : State,
    let P := ((textSymbols s).map (codeLength s)).sum
    P < 524288 → ∃ m k t,
      t = { s with
        bits := m, blen := BitVec.ofNat 32 (8 * ((P + 8) / 8)), packed := k, plen := BitVec.ofNat 32 ((P + 8) / 8) } ∧
      exec .enc s = .next t ∧
      bitSequence t = (textSymbols s).flatMap (codeOf s) ++ true :: List.replicate (7 - P % 8) false ∧
      (packedBytes t).flatMap bitsOfByte = bitSequence t ∧
      (∀ j, 8 * ((P + 8) / 8) ≤ j → m.read false j = s.bits.read false j) ∧
      ∀ j, (P + 8) / 8 ≤ j → k.read 0#8 j = s.packed.read 0#8 j

/-- R178: ENC fails in MAP when the payload is too long, in PAD when it fills BITS; PACKED is not written and `PLEN`
becomes 0. -/
def Obligations.EncFailuresLeaveNoBuffer : Prop :=
  ∀ s : State,
    let P := ((textSymbols s).map (codeLength s)).sum
    (524288 < P → exec .enc s = .next { s with
      err := 4#4, errstage := 5#4, errinfo := BitVec.ofNat 32 P, esticky := 1#1, blen := 0#32, plen := 0#32 }) ∧
    (P = 524288 → ∃ m t, t = { s with
        bits := m, blen := 524288#32, err := 4#4, errstage := 6#4, errinfo := 524296#32, esticky := 1#1,
        plen := 0#32 } ∧
      exec .enc s = .next t ∧ bitSequence t = (textSymbols s).flatMap (codeOf s) ∧
      ∀ j, 524288 ≤ j → m.read false j = s.bits.read false j)

/-- R207: a buffer whose bits are codes, cut greedily with nothing left, a 1 and zeros is decoded to the symbols of
the pieces; the table need not be prefix-free. -/
def Obligations.DecDecodesAPaddedBuffer : Prop :=
  ∀ (s : State) (pieces : List (BitSeq × Byte)) (k : Nat), GreedyCut s pieces [] → pieces.length ≤ 65536 →
    s.plen.toNat ≤ 65536 →
    (packedBytes s).flatMap bitsOfByte = piecesBits pieces ++ true :: List.replicate k false →
    ∃ m o t, t = { s with
        bits := m, blen := BitVec.ofNat 32 (piecesBits pieces).length, out := o,
        olen := BitVec.ofNat 32 pieces.length } ∧
      exec .dec s = .next t ∧ outSymbols t = pieces.map Prod.snd ∧ bitSequence t = piecesBits pieces ∧
      (∀ j, 8 * s.plen.toNat ≤ j → m.read false j = s.bits.read false j) ∧
      ∀ j, pieces.length ≤ j → o.read 0#8 j = s.out.read 0#8 j

/-- R208: DEC fails in STRIP on a buffer of zero bytes or none, in MATCH on dangling bits or on more symbols than fit;
OUT is not written and `OLEN` becomes 0; the expanded bits and `BLEN` stay as EXPAND and STRIP left them. -/
def Obligations.DecFailuresDeliverNothing : Prop :=
  (∀ s : State, s.plen.toNat ≤ 65536 → (∀ j < s.plen.toNat, s.packed.read 0#8 j = 0#8) → ∃ m,
    exec .dec s = .next { s with
      bits := m, blen := BitVec.ofNat 32 (8 * s.plen.toNat), err := 3#4, errstage := 9#4,
      errinfo := BitVec.ofNat 32 (8 * s.plen.toNat), esticky := 1#1, olen := 0#32 } ∧
    (∀ j < 8 * s.plen.toNat, m.read false j = false) ∧
    ∀ j, 8 * s.plen.toNat ≤ j → m.read false j = s.bits.read false j) ∧
  ∀ (s : State) (pieces : List (BitSeq × Byte)) (rest : BitSeq) (k : Nat), s.plen.toNat ≤ 65536 →
    GreedyCut s pieces rest →
    (packedBytes s).flatMap bitsOfByte = (piecesBits pieces ++ rest) ++ true :: List.replicate k false →
    (rest ≠ [] → pieces.length ≤ 65536 → ∃ m t, t = { s with
        bits := m, blen := BitVec.ofNat 32 (piecesBits pieces ++ rest).length, err := 2#4, errstage := 10#4,
        errinfo := BitVec.ofNat 32 (piecesBits pieces).length, esticky := 1#1, olen := 0#32 } ∧
      exec .dec s = .next t ∧ bitSequence t = piecesBits pieces ++ rest ∧
      ∀ j, 8 * s.plen.toNat ≤ j → m.read false j = s.bits.read false j) ∧
    (65536 < pieces.length → ∃ m t, t = { s with
        bits := m, blen := BitVec.ofNat 32 (piecesBits pieces ++ rest).length, err := 4#4, errstage := 10#4,
        errinfo := BitVec.ofNat 32 ((piecesBits (pieces.take 65537)).length - 1), esticky := 1#1, olen := 0#32 } ∧
      exec .dec s = .next t ∧ bitSequence t = piecesBits pieces ++ rest ∧
      ∀ j, 8 * s.plen.toNat ≤ j → m.read false j = s.bits.read false j)

/-- R180: on a text with a symbol below 128 whose payload fits, COMPRESS leaves the counts, a sound tree, a prefix-free
table of exactly the text's symbols below 128, and the padded payload and its bytes; the rest stays. -/
def Obligations.CompressEncodesTheText : Prop :=
  ∀ s : State, (∃ a ∈ textSymbols s, a.toNat < 128) →
    payloadLength (runStages [.count, .build, .gen] s) < 524288 →
    ∃ f n nn r l b m p bl pl t,
      t = { s with
        freq := f, node := n, nnodes := nn, root := r, codelen := l, codebits := b, bits := m, blen := bl,
        packed := p, plen := pl } ∧
      exec .compress s = .next t ∧
      (∀ i, (f.read 0#32 i).toNat =
        if i < 128 then (textSymbols s).countP (fun a => a.toNat == i) else 0) ∧
      nn ≠ 0#10 ∧ t.TreeInvariant ∧ PrefixFree t ∧ (∀ a, InTable t a ↔ a ∈ textSymbols s ∧ a.toNat < 128) ∧
      bitSequence t = (textSymbols s).flatMap (codeOf t) ++
        true :: List.replicate (7 - ((textSymbols s).flatMap (codeOf t)).length % 8) false ∧
      (packedBytes t).flatMap bitsOfByte = bitSequence t ∧
      (∀ j, bl.toNat ≤ j → m.read false j = s.bits.read false j) ∧
      ∀ j, pl.toNat ≤ j → p.read 0#8 j = s.packed.read 0#8 j

/-- R181 (b): COMPRESS of a text with no symbol below 128, the empty text among them, fails in BUILD: FREQ is all
zero, there is no tree, no table, no bit sequence and no buffer. -/
def Obligations.CompressRejectsATextWithoutSymbols : Prop :=
  ∀ s : State, (∀ a ∈ textSymbols s, 128 ≤ a.toNat) → ∃ f l,
    exec .compress s = .next { s with
      freq := f, err := 1#4, errstage := 3#4, errinfo := 0#32, esticky := 1#1, nnodes := 0#10, root := 0#9,
      codelen := l, blen := 0#32, plen := 0#32 } ∧
    ∀ i, f.read 0#32 i = 0#32 ∧ l.read 0#8 i = 0#8

/-! ## Laws over several commands -/

/-- R227: PACK then EXPAND restores an aligned bit sequence; EXPAND then PACK restores the buffer; PAD then STRIP
restores a bit sequence that is not full; STRIP then PAD does not always. -/
def Obligations.StagesUndoEachOther : Prop :=
  (∀ s t u : State, s.blen.toNat % 8 = 0 → exec .pack s = .next t → exec .expand t = .next u →
    bitSequence u = bitSequence s ∧ u.blen = s.blen) ∧
  (∀ s t u : State, s.plen.toNat ≤ 65536 → exec .expand s = .next t → exec .pack t = .next u →
    packedBytes u = packedBytes s ∧ u.plen = s.plen) ∧
  (∀ s t u : State, s.blen.toNat < 524288 → exec .pad s = .next t → exec .strip t = .next u →
    bitSequence u = bitSequence s ∧ u.blen = s.blen) ∧
  ∃ s t u : State, exec .strip s = .next t ∧ exec .pad t = .next u ∧ t.err = 0#4 ∧ u.err = 0#4 ∧
    s.err = 0#4 ∧ bitSequence u ≠ bitSequence s

/-- R226: with a prefix-free table, what ENC then DEC give back, when both succeed, is the text without the symbols
that are not in the table; when all are in it and fit OUT, DEC succeeds and gives the text. -/
def Obligations.RoundTripWithAPrefixFreeTable : Prop :=
  ∀ s t u : State, PrefixFree s → s.err = 0#4 → exec .enc s = .next t → t.err = 0#4 → exec .dec t = .next u →
    (u.err = 0#4 → outSymbols u = (textSymbols s).filter fun a => codeLength s a != 0) ∧
    ((∀ a ∈ textSymbols s, InTable s a) → s.tlen.toNat ≤ 65536 →
      u.err = 0#4 ∧ outSymbols u = textSymbols s)

/-- R225: for a non-empty text of symbols below 128, if COMPRESS succeeds then DEC succeeds and gives the text. -/
def Obligations.CompressThenDecGivesTheText : Prop :=
  ∀ s t u : State, 1 ≤ s.tlen.toNat → s.tlen.toNat ≤ 65536 → (∀ a ∈ textSymbols s, a.toNat < 128) →
    s.err = 0#4 → exec .compress s = .next t → t.err = 0#4 → exec .dec t = .next u →
    u.err = 0#4 ∧ u.olen = s.tlen ∧ outSymbols u = textSymbols s

/-- R229: a text of m copies of one symbol below 128 has a one-node tree, the code `0`, a payload of m zero bits, and
decodes to the same symbols. -/
def Obligations.OneSymbolTextsRoundTrip : Prop :=
  ∀ (s : State) (sym : Byte) (n : Nat), 1 ≤ n → n ≤ 65536 → s.tlen = BitVec.ofNat 32 n → sym.toNat < 128 →
    textSymbols s = List.replicate n sym →
    ∃ t u, exec .compress s = .next t ∧ exec .dec t = .next u ∧ t.err = s.err ∧ u.err = s.err ∧
      t.nnodes = 1#10 ∧ codeOf t sym = [false] ∧
      bitSequence t = List.replicate n false ++ true :: List.replicate (7 - n % 8) false ∧
      outSymbols u = List.replicate n sym

/-- R84: the line written from a table, read under either policy for malformed entries and loaded into any block,
gives the same code to every symbol. The trimming is the model's choice (log entry 15). -/
def Obligations.TableLineRoundTrips : Prop :=
  ∀ (s s' : State) (policy : Config.MalformedPolicy), (∃ a, InTable s a) → s'.SpacesCanonical →
    ∃ entries, readEntries policy (tableLine s) = some entries ∧
      ∀ a : Byte, codeLength (performAll (loadScript entries) s') a = codeLength s a ∧
        codeOf (performAll (loadScript entries) s') a = codeOf s a

/-- R82, R83: a piece of the line is malformed unless it splits into exactly two tokens, a decimal integer in 0 to 255
and a code of 1 to 255 bits; a malformed piece is skipped or ends the load, as the policy says. Left open is only
whether a number with leading zeros, one plus sign in front or spaces is accepted. The model's choices are the trimming
and what counts as a space, and that a number with spaces between its digits (`2 56`) has the value of its digits in
their order (log entry 15), and that the empty line is one malformed piece (log entry 18). -/
def Obligations.UnwritableEntriesAreMalformed : Prop :=
  (∀ piece : List Char, piece.count ':' ≠ 1 → parseEntry piece = none) ∧
  (∀ a c : List Char, c = [] ∨ 255 < c.length ∨ (∃ x ∈ c, x ≠ '0' ∧ x ≠ '1') → parseEntry (a ++ ':' :: c) = none) ∧
  (∀ a c : List Char,
    (∀ x ∈ a, x.isDigit = false) ∨ (∃ x ∈ a, x.isDigit = false ∧ isBlank x = false ∧ x ≠ '+') ∨
      '+' ∈ (a.filter fun x => !isBlank x).drop 1 ∨ 256 ≤ decimalValue (a.filter Char.isDigit) →
    parseEntry (a ++ ':' :: c) = none) ∧
  (∀ (piece : List Char) (sym : Nat) (code : BitSeq), parseEntry piece = some (sym, code) →
    sym < 256 ∧ 1 ≤ code.length ∧ code.length ≤ 255) ∧
  ∀ line : List Char,
    let pieces := splitAtChar '-' (trimLine line)
    readEntries .skipEntry line = some (pieces.filterMap parseEntry) ∧
    ((∃ p ∈ pieces, parseEntry p = none) → readEntries .rejectLoad line = none) ∧
    ((∀ p ∈ pieces, parseEntry p ≠ none) → readEntries .rejectLoad line = some (pieces.filterMap parseEntry))
end

