-- ==== Sys2Proof/Laws/State.lean ====
section
/-! SUPPORT. One lemma per field per update of State, so that no later proof unfolds a record update. -/

namespace Sys2Proof.Machine

/-! COUNT's update (`State.setFreq`). -/

@[simp] theorem State.setFreq_cmd (s : State) (f : Mem Word) : (s.setFreq f).cmd = s.cmd := rfl
@[simp] theorem State.setFreq_err (s : State) (f : Mem Word) : (s.setFreq f).err = s.err := rfl
@[simp] theorem State.setFreq_errstage (s : State) (f : Mem Word) : (s.setFreq f).errstage = s.errstage := rfl
@[simp] theorem State.setFreq_errinfo (s : State) (f : Mem Word) : (s.setFreq f).errinfo = s.errinfo := rfl
@[simp] theorem State.setFreq_esticky (s : State) (f : Mem Word) : (s.setFreq f).esticky = s.esticky := rfl
@[simp] theorem State.setFreq_tlen (s : State) (f : Mem Word) : (s.setFreq f).tlen = s.tlen := rfl
@[simp] theorem State.setFreq_blen (s : State) (f : Mem Word) : (s.setFreq f).blen = s.blen := rfl
@[simp] theorem State.setFreq_plen (s : State) (f : Mem Word) : (s.setFreq f).plen = s.plen := rfl
@[simp] theorem State.setFreq_olen (s : State) (f : Mem Word) : (s.setFreq f).olen = s.olen := rfl
@[simp] theorem State.setFreq_nnodes (s : State) (f : Mem Word) : (s.setFreq f).nnodes = s.nnodes := rfl
@[simp] theorem State.setFreq_root (s : State) (f : Mem Word) : (s.setFreq f).root = s.root := rfl
@[simp] theorem State.setFreq_text (s : State) (f : Mem Word) : (s.setFreq f).text = s.text := rfl
@[simp] theorem State.setFreq_freq (s : State) (f : Mem Word) : (s.setFreq f).freq = f := rfl
@[simp] theorem State.setFreq_node (s : State) (f : Mem Word) : (s.setFreq f).node = s.node := rfl
@[simp] theorem State.setFreq_codelen (s : State) (f : Mem Word) : (s.setFreq f).codelen = s.codelen := rfl
@[simp] theorem State.setFreq_codebits (s : State) (f : Mem Word) : (s.setFreq f).codebits = s.codebits := rfl
@[simp] theorem State.setFreq_bits (s : State) (f : Mem Word) : (s.setFreq f).bits = s.bits := rfl
@[simp] theorem State.setFreq_packed (s : State) (f : Mem Word) : (s.setFreq f).packed = s.packed := rfl
@[simp] theorem State.setFreq_out (s : State) (f : Mem Word) : (s.setFreq f).out = s.out := rfl
@[simp] theorem State.setFreq_inbox (s : State) (f : Mem Word) : (s.setFreq f).inbox = s.inbox := rfl
@[simp] theorem State.setFreq_answers (s : State) (f : Mem Word) : (s.setFreq f).answers = s.answers := rfl

/-! BUILD's update (`State.setTree`). -/

@[simp] theorem State.setTree_cmd (s : State) (m : Mem Node) (n : BitVec 10) (r : NodeIndex) :
    (s.setTree m n r).cmd = s.cmd := rfl
@[simp] theorem State.setTree_err (s : State) (m : Mem Node) (n : BitVec 10) (r : NodeIndex) :
    (s.setTree m n r).err = s.err := rfl
@[simp] theorem State.setTree_errstage (s : State) (m : Mem Node) (n : BitVec 10) (r : NodeIndex) :
    (s.setTree m n r).errstage = s.errstage := rfl
@[simp] theorem State.setTree_errinfo (s : State) (m : Mem Node) (n : BitVec 10) (r : NodeIndex) :
    (s.setTree m n r).errinfo = s.errinfo := rfl
@[simp] theorem State.setTree_esticky (s : State) (m : Mem Node) (n : BitVec 10) (r : NodeIndex) :
    (s.setTree m n r).esticky = s.esticky := rfl
@[simp] theorem State.setTree_tlen (s : State) (m : Mem Node) (n : BitVec 10) (r : NodeIndex) :
    (s.setTree m n r).tlen = s.tlen := rfl
@[simp] theorem State.setTree_blen (s : State) (m : Mem Node) (n : BitVec 10) (r : NodeIndex) :
    (s.setTree m n r).blen = s.blen := rfl
@[simp] theorem State.setTree_plen (s : State) (m : Mem Node) (n : BitVec 10) (r : NodeIndex) :
    (s.setTree m n r).plen = s.plen := rfl
@[simp] theorem State.setTree_olen (s : State) (m : Mem Node) (n : BitVec 10) (r : NodeIndex) :
    (s.setTree m n r).olen = s.olen := rfl
@[simp] theorem State.setTree_nnodes (s : State) (m : Mem Node) (n : BitVec 10) (r : NodeIndex) :
    (s.setTree m n r).nnodes = n := rfl
@[simp] theorem State.setTree_root (s : State) (m : Mem Node) (n : BitVec 10) (r : NodeIndex) :
    (s.setTree m n r).root = r := rfl
@[simp] theorem State.setTree_text (s : State) (m : Mem Node) (n : BitVec 10) (r : NodeIndex) :
    (s.setTree m n r).text = s.text := rfl
@[simp] theorem State.setTree_freq (s : State) (m : Mem Node) (n : BitVec 10) (r : NodeIndex) :
    (s.setTree m n r).freq = s.freq := rfl
@[simp] theorem State.setTree_node (s : State) (m : Mem Node) (n : BitVec 10) (r : NodeIndex) :
    (s.setTree m n r).node = m := rfl
@[simp] theorem State.setTree_codelen (s : State) (m : Mem Node) (n : BitVec 10) (r : NodeIndex) :
    (s.setTree m n r).codelen = s.codelen := rfl
@[simp] theorem State.setTree_codebits (s : State) (m : Mem Node) (n : BitVec 10) (r : NodeIndex) :
    (s.setTree m n r).codebits = s.codebits := rfl
@[simp] theorem State.setTree_bits (s : State) (m : Mem Node) (n : BitVec 10) (r : NodeIndex) :
    (s.setTree m n r).bits = s.bits := rfl
@[simp] theorem State.setTree_packed (s : State) (m : Mem Node) (n : BitVec 10) (r : NodeIndex) :
    (s.setTree m n r).packed = s.packed := rfl
@[simp] theorem State.setTree_out (s : State) (m : Mem Node) (n : BitVec 10) (r : NodeIndex) :
    (s.setTree m n r).out = s.out := rfl
@[simp] theorem State.setTree_inbox (s : State) (m : Mem Node) (n : BitVec 10) (r : NodeIndex) :
    (s.setTree m n r).inbox = s.inbox := rfl
@[simp] theorem State.setTree_answers (s : State) (m : Mem Node) (n : BitVec 10) (r : NodeIndex) :
    (s.setTree m n r).answers = s.answers := rfl

/-! GEN's update (`State.setTable`). -/

@[simp] theorem State.setTable_cmd (s : State) (l : Mem Byte) (b : Mem CodeWord) :
    (s.setTable l b).cmd = s.cmd := rfl
@[simp] theorem State.setTable_err (s : State) (l : Mem Byte) (b : Mem CodeWord) :
    (s.setTable l b).err = s.err := rfl
@[simp] theorem State.setTable_errstage (s : State) (l : Mem Byte) (b : Mem CodeWord) :
    (s.setTable l b).errstage = s.errstage := rfl
@[simp] theorem State.setTable_errinfo (s : State) (l : Mem Byte) (b : Mem CodeWord) :
    (s.setTable l b).errinfo = s.errinfo := rfl
@[simp] theorem State.setTable_esticky (s : State) (l : Mem Byte) (b : Mem CodeWord) :
    (s.setTable l b).esticky = s.esticky := rfl
@[simp] theorem State.setTable_tlen (s : State) (l : Mem Byte) (b : Mem CodeWord) :
    (s.setTable l b).tlen = s.tlen := rfl
@[simp] theorem State.setTable_blen (s : State) (l : Mem Byte) (b : Mem CodeWord) :
    (s.setTable l b).blen = s.blen := rfl
@[simp] theorem State.setTable_plen (s : State) (l : Mem Byte) (b : Mem CodeWord) :
    (s.setTable l b).plen = s.plen := rfl
@[simp] theorem State.setTable_olen (s : State) (l : Mem Byte) (b : Mem CodeWord) :
    (s.setTable l b).olen = s.olen := rfl
@[simp] theorem State.setTable_nnodes (s : State) (l : Mem Byte) (b : Mem CodeWord) :
    (s.setTable l b).nnodes = s.nnodes := rfl
@[simp] theorem State.setTable_root (s : State) (l : Mem Byte) (b : Mem CodeWord) :
    (s.setTable l b).root = s.root := rfl
@[simp] theorem State.setTable_text (s : State) (l : Mem Byte) (b : Mem CodeWord) :
    (s.setTable l b).text = s.text := rfl
@[simp] theorem State.setTable_freq (s : State) (l : Mem Byte) (b : Mem CodeWord) :
    (s.setTable l b).freq = s.freq := rfl
@[simp] theorem State.setTable_node (s : State) (l : Mem Byte) (b : Mem CodeWord) :
    (s.setTable l b).node = s.node := rfl
@[simp] theorem State.setTable_codelen (s : State) (l : Mem Byte) (b : Mem CodeWord) :
    (s.setTable l b).codelen = l := rfl
@[simp] theorem State.setTable_codebits (s : State) (l : Mem Byte) (b : Mem CodeWord) :
    (s.setTable l b).codebits = b := rfl
@[simp] theorem State.setTable_bits (s : State) (l : Mem Byte) (b : Mem CodeWord) :
    (s.setTable l b).bits = s.bits := rfl
@[simp] theorem State.setTable_packed (s : State) (l : Mem Byte) (b : Mem CodeWord) :
    (s.setTable l b).packed = s.packed := rfl
@[simp] theorem State.setTable_out (s : State) (l : Mem Byte) (b : Mem CodeWord) :
    (s.setTable l b).out = s.out := rfl
@[simp] theorem State.setTable_inbox (s : State) (l : Mem Byte) (b : Mem CodeWord) :
    (s.setTable l b).inbox = s.inbox := rfl
@[simp] theorem State.setTable_answers (s : State) (l : Mem Byte) (b : Mem CodeWord) :
    (s.setTable l b).answers = s.answers := rfl

/-! The update of MAP, PAD and EXPAND (`State.setBits`). -/

@[simp] theorem State.setBits_cmd (s : State) (m : Mem Bool) (n : Word) : (s.setBits m n).cmd = s.cmd := rfl
@[simp] theorem State.setBits_err (s : State) (m : Mem Bool) (n : Word) : (s.setBits m n).err = s.err := rfl
@[simp] theorem State.setBits_errstage (s : State) (m : Mem Bool) (n : Word) :
    (s.setBits m n).errstage = s.errstage := rfl
@[simp] theorem State.setBits_errinfo (s : State) (m : Mem Bool) (n : Word) :
    (s.setBits m n).errinfo = s.errinfo := rfl
@[simp] theorem State.setBits_esticky (s : State) (m : Mem Bool) (n : Word) :
    (s.setBits m n).esticky = s.esticky := rfl
@[simp] theorem State.setBits_tlen (s : State) (m : Mem Bool) (n : Word) : (s.setBits m n).tlen = s.tlen := rfl
@[simp] theorem State.setBits_blen (s : State) (m : Mem Bool) (n : Word) : (s.setBits m n).blen = n := rfl
@[simp] theorem State.setBits_plen (s : State) (m : Mem Bool) (n : Word) : (s.setBits m n).plen = s.plen := rfl
@[simp] theorem State.setBits_olen (s : State) (m : Mem Bool) (n : Word) : (s.setBits m n).olen = s.olen := rfl
@[simp] theorem State.setBits_nnodes (s : State) (m : Mem Bool) (n : Word) :
    (s.setBits m n).nnodes = s.nnodes := rfl
@[simp] theorem State.setBits_root (s : State) (m : Mem Bool) (n : Word) : (s.setBits m n).root = s.root := rfl
@[simp] theorem State.setBits_text (s : State) (m : Mem Bool) (n : Word) : (s.setBits m n).text = s.text := rfl
@[simp] theorem State.setBits_freq (s : State) (m : Mem Bool) (n : Word) : (s.setBits m n).freq = s.freq := rfl
@[simp] theorem State.setBits_node (s : State) (m : Mem Bool) (n : Word) : (s.setBits m n).node = s.node := rfl
@[simp] theorem State.setBits_codelen (s : State) (m : Mem Bool) (n : Word) :
    (s.setBits m n).codelen = s.codelen := rfl
@[simp] theorem State.setBits_codebits (s : State) (m : Mem Bool) (n : Word) :
    (s.setBits m n).codebits = s.codebits := rfl
@[simp] theorem State.setBits_bits (s : State) (m : Mem Bool) (n : Word) : (s.setBits m n).bits = m := rfl
@[simp] theorem State.setBits_packed (s : State) (m : Mem Bool) (n : Word) :
    (s.setBits m n).packed = s.packed := rfl
@[simp] theorem State.setBits_out (s : State) (m : Mem Bool) (n : Word) : (s.setBits m n).out = s.out := rfl
@[simp] theorem State.setBits_inbox (s : State) (m : Mem Bool) (n : Word) : (s.setBits m n).inbox = s.inbox := rfl
@[simp] theorem State.setBits_answers (s : State) (m : Mem Bool) (n : Word) :
    (s.setBits m n).answers = s.answers := rfl

/-! STRIP's update (`State.setBlen`). -/

@[simp] theorem State.setBlen_cmd (s : State) (n : Word) : (s.setBlen n).cmd = s.cmd := rfl
@[simp] theorem State.setBlen_err (s : State) (n : Word) : (s.setBlen n).err = s.err := rfl
@[simp] theorem State.setBlen_errstage (s : State) (n : Word) : (s.setBlen n).errstage = s.errstage := rfl
@[simp] theorem State.setBlen_errinfo (s : State) (n : Word) : (s.setBlen n).errinfo = s.errinfo := rfl
@[simp] theorem State.setBlen_esticky (s : State) (n : Word) : (s.setBlen n).esticky = s.esticky := rfl
@[simp] theorem State.setBlen_tlen (s : State) (n : Word) : (s.setBlen n).tlen = s.tlen := rfl
@[simp] theorem State.setBlen_blen (s : State) (n : Word) : (s.setBlen n).blen = n := rfl
@[simp] theorem State.setBlen_plen (s : State) (n : Word) : (s.setBlen n).plen = s.plen := rfl
@[simp] theorem State.setBlen_olen (s : State) (n : Word) : (s.setBlen n).olen = s.olen := rfl
@[simp] theorem State.setBlen_nnodes (s : State) (n : Word) : (s.setBlen n).nnodes = s.nnodes := rfl
@[simp] theorem State.setBlen_root (s : State) (n : Word) : (s.setBlen n).root = s.root := rfl
@[simp] theorem State.setBlen_text (s : State) (n : Word) : (s.setBlen n).text = s.text := rfl
@[simp] theorem State.setBlen_freq (s : State) (n : Word) : (s.setBlen n).freq = s.freq := rfl
@[simp] theorem State.setBlen_node (s : State) (n : Word) : (s.setBlen n).node = s.node := rfl
@[simp] theorem State.setBlen_codelen (s : State) (n : Word) : (s.setBlen n).codelen = s.codelen := rfl
@[simp] theorem State.setBlen_codebits (s : State) (n : Word) : (s.setBlen n).codebits = s.codebits := rfl
@[simp] theorem State.setBlen_bits (s : State) (n : Word) : (s.setBlen n).bits = s.bits := rfl
@[simp] theorem State.setBlen_packed (s : State) (n : Word) : (s.setBlen n).packed = s.packed := rfl
@[simp] theorem State.setBlen_out (s : State) (n : Word) : (s.setBlen n).out = s.out := rfl
@[simp] theorem State.setBlen_inbox (s : State) (n : Word) : (s.setBlen n).inbox = s.inbox := rfl
@[simp] theorem State.setBlen_answers (s : State) (n : Word) : (s.setBlen n).answers = s.answers := rfl

/-! PACK's update (`State.setPacked`). -/

@[simp] theorem State.setPacked_cmd (s : State) (m : Mem Byte) (n : Word) : (s.setPacked m n).cmd = s.cmd := rfl
@[simp] theorem State.setPacked_err (s : State) (m : Mem Byte) (n : Word) : (s.setPacked m n).err = s.err := rfl
@[simp] theorem State.setPacked_errstage (s : State) (m : Mem Byte) (n : Word) :
    (s.setPacked m n).errstage = s.errstage := rfl
@[simp] theorem State.setPacked_errinfo (s : State) (m : Mem Byte) (n : Word) :
    (s.setPacked m n).errinfo = s.errinfo := rfl
@[simp] theorem State.setPacked_esticky (s : State) (m : Mem Byte) (n : Word) :
    (s.setPacked m n).esticky = s.esticky := rfl
@[simp] theorem State.setPacked_tlen (s : State) (m : Mem Byte) (n : Word) : (s.setPacked m n).tlen = s.tlen := rfl
@[simp] theorem State.setPacked_blen (s : State) (m : Mem Byte) (n : Word) : (s.setPacked m n).blen = s.blen := rfl
@[simp] theorem State.setPacked_plen (s : State) (m : Mem Byte) (n : Word) : (s.setPacked m n).plen = n := rfl
@[simp] theorem State.setPacked_olen (s : State) (m : Mem Byte) (n : Word) : (s.setPacked m n).olen = s.olen := rfl
@[simp] theorem State.setPacked_nnodes (s : State) (m : Mem Byte) (n : Word) :
    (s.setPacked m n).nnodes = s.nnodes := rfl
@[simp] theorem State.setPacked_root (s : State) (m : Mem Byte) (n : Word) : (s.setPacked m n).root = s.root := rfl
@[simp] theorem State.setPacked_text (s : State) (m : Mem Byte) (n : Word) : (s.setPacked m n).text = s.text := rfl
@[simp] theorem State.setPacked_freq (s : State) (m : Mem Byte) (n : Word) : (s.setPacked m n).freq = s.freq := rfl
@[simp] theorem State.setPacked_node (s : State) (m : Mem Byte) (n : Word) : (s.setPacked m n).node = s.node := rfl
@[simp] theorem State.setPacked_codelen (s : State) (m : Mem Byte) (n : Word) :
    (s.setPacked m n).codelen = s.codelen := rfl
@[simp] theorem State.setPacked_codebits (s : State) (m : Mem Byte) (n : Word) :
    (s.setPacked m n).codebits = s.codebits := rfl
@[simp] theorem State.setPacked_bits (s : State) (m : Mem Byte) (n : Word) : (s.setPacked m n).bits = s.bits := rfl
@[simp] theorem State.setPacked_packed (s : State) (m : Mem Byte) (n : Word) : (s.setPacked m n).packed = m := rfl
@[simp] theorem State.setPacked_out (s : State) (m : Mem Byte) (n : Word) : (s.setPacked m n).out = s.out := rfl
@[simp] theorem State.setPacked_inbox (s : State) (m : Mem Byte) (n : Word) :
    (s.setPacked m n).inbox = s.inbox := rfl
@[simp] theorem State.setPacked_answers (s : State) (m : Mem Byte) (n : Word) :
    (s.setPacked m n).answers = s.answers := rfl

/-! MATCH's update (`State.setOut`). -/

@[simp] theorem State.setOut_cmd (s : State) (m : Mem Byte) (n : Word) : (s.setOut m n).cmd = s.cmd := rfl
@[simp] theorem State.setOut_err (s : State) (m : Mem Byte) (n : Word) : (s.setOut m n).err = s.err := rfl
@[simp] theorem State.setOut_errstage (s : State) (m : Mem Byte) (n : Word) :
    (s.setOut m n).errstage = s.errstage := rfl
@[simp] theorem State.setOut_errinfo (s : State) (m : Mem Byte) (n : Word) :
    (s.setOut m n).errinfo = s.errinfo := rfl
@[simp] theorem State.setOut_esticky (s : State) (m : Mem Byte) (n : Word) :
    (s.setOut m n).esticky = s.esticky := rfl
@[simp] theorem State.setOut_tlen (s : State) (m : Mem Byte) (n : Word) : (s.setOut m n).tlen = s.tlen := rfl
@[simp] theorem State.setOut_blen (s : State) (m : Mem Byte) (n : Word) : (s.setOut m n).blen = s.blen := rfl
@[simp] theorem State.setOut_plen (s : State) (m : Mem Byte) (n : Word) : (s.setOut m n).plen = s.plen := rfl
@[simp] theorem State.setOut_olen (s : State) (m : Mem Byte) (n : Word) : (s.setOut m n).olen = n := rfl
@[simp] theorem State.setOut_nnodes (s : State) (m : Mem Byte) (n : Word) : (s.setOut m n).nnodes = s.nnodes := rfl
@[simp] theorem State.setOut_root (s : State) (m : Mem Byte) (n : Word) : (s.setOut m n).root = s.root := rfl
@[simp] theorem State.setOut_text (s : State) (m : Mem Byte) (n : Word) : (s.setOut m n).text = s.text := rfl
@[simp] theorem State.setOut_freq (s : State) (m : Mem Byte) (n : Word) : (s.setOut m n).freq = s.freq := rfl
@[simp] theorem State.setOut_node (s : State) (m : Mem Byte) (n : Word) : (s.setOut m n).node = s.node := rfl
@[simp] theorem State.setOut_codelen (s : State) (m : Mem Byte) (n : Word) :
    (s.setOut m n).codelen = s.codelen := rfl
@[simp] theorem State.setOut_codebits (s : State) (m : Mem Byte) (n : Word) :
    (s.setOut m n).codebits = s.codebits := rfl
@[simp] theorem State.setOut_bits (s : State) (m : Mem Byte) (n : Word) : (s.setOut m n).bits = s.bits := rfl
@[simp] theorem State.setOut_packed (s : State) (m : Mem Byte) (n : Word) : (s.setOut m n).packed = s.packed := rfl
@[simp] theorem State.setOut_out (s : State) (m : Mem Byte) (n : Word) : (s.setOut m n).out = m := rfl
@[simp] theorem State.setOut_inbox (s : State) (m : Mem Byte) (n : Word) : (s.setOut m n).inbox = s.inbox := rfl
@[simp] theorem State.setOut_answers (s : State) (m : Mem Byte) (n : Word) :
    (s.setOut m n).answers = s.answers := rfl

/-! The failure registers cleared (`clearFailure`). -/

@[simp] theorem clearFailure_cmd (s : State) : (clearFailure s).cmd = s.cmd := rfl
@[simp] theorem clearFailure_err (s : State) : (clearFailure s).err = 0#4 := rfl
@[simp] theorem clearFailure_errstage (s : State) : (clearFailure s).errstage = 0#4 := rfl
@[simp] theorem clearFailure_errinfo (s : State) : (clearFailure s).errinfo = 0#32 := rfl
@[simp] theorem clearFailure_esticky (s : State) : (clearFailure s).esticky = s.esticky := rfl
@[simp] theorem clearFailure_tlen (s : State) : (clearFailure s).tlen = s.tlen := rfl
@[simp] theorem clearFailure_blen (s : State) : (clearFailure s).blen = s.blen := rfl
@[simp] theorem clearFailure_plen (s : State) : (clearFailure s).plen = s.plen := rfl
@[simp] theorem clearFailure_olen (s : State) : (clearFailure s).olen = s.olen := rfl
@[simp] theorem clearFailure_nnodes (s : State) : (clearFailure s).nnodes = s.nnodes := rfl
@[simp] theorem clearFailure_root (s : State) : (clearFailure s).root = s.root := rfl
@[simp] theorem clearFailure_text (s : State) : (clearFailure s).text = s.text := rfl
@[simp] theorem clearFailure_freq (s : State) : (clearFailure s).freq = s.freq := rfl
@[simp] theorem clearFailure_node (s : State) : (clearFailure s).node = s.node := rfl
@[simp] theorem clearFailure_codelen (s : State) : (clearFailure s).codelen = s.codelen := rfl
@[simp] theorem clearFailure_codebits (s : State) : (clearFailure s).codebits = s.codebits := rfl
@[simp] theorem clearFailure_bits (s : State) : (clearFailure s).bits = s.bits := rfl
@[simp] theorem clearFailure_packed (s : State) : (clearFailure s).packed = s.packed := rfl
@[simp] theorem clearFailure_out (s : State) : (clearFailure s).out = s.out := rfl
@[simp] theorem clearFailure_inbox (s : State) : (clearFailure s).inbox = s.inbox := rfl
@[simp] theorem clearFailure_answers (s : State) : (clearFailure s).answers = s.answers := rfl

/-! The failure registers of a failure (`recordFailure`). -/

@[simp] theorem recordFailure_cmd (e : ErrorKind) (p : BitVec 4) (w : Word) (s : State) :
    (recordFailure e p w s).cmd = s.cmd := rfl
@[simp] theorem recordFailure_err (e : ErrorKind) (p : BitVec 4) (w : Word) (s : State) :
    (recordFailure e p w s).err = errorCode e := rfl
@[simp] theorem recordFailure_errstage (e : ErrorKind) (p : BitVec 4) (w : Word) (s : State) :
    (recordFailure e p w s).errstage = p := rfl
@[simp] theorem recordFailure_errinfo (e : ErrorKind) (p : BitVec 4) (w : Word) (s : State) :
    (recordFailure e p w s).errinfo = w := rfl
@[simp] theorem recordFailure_esticky (e : ErrorKind) (p : BitVec 4) (w : Word) (s : State) :
    (recordFailure e p w s).esticky = 1#1 := rfl
@[simp] theorem recordFailure_tlen (e : ErrorKind) (p : BitVec 4) (w : Word) (s : State) :
    (recordFailure e p w s).tlen = s.tlen := rfl
@[simp] theorem recordFailure_blen (e : ErrorKind) (p : BitVec 4) (w : Word) (s : State) :
    (recordFailure e p w s).blen = s.blen := rfl
@[simp] theorem recordFailure_plen (e : ErrorKind) (p : BitVec 4) (w : Word) (s : State) :
    (recordFailure e p w s).plen = s.plen := rfl
@[simp] theorem recordFailure_olen (e : ErrorKind) (p : BitVec 4) (w : Word) (s : State) :
    (recordFailure e p w s).olen = s.olen := rfl
@[simp] theorem recordFailure_nnodes (e : ErrorKind) (p : BitVec 4) (w : Word) (s : State) :
    (recordFailure e p w s).nnodes = s.nnodes := rfl
@[simp] theorem recordFailure_root (e : ErrorKind) (p : BitVec 4) (w : Word) (s : State) :
    (recordFailure e p w s).root = s.root := rfl
@[simp] theorem recordFailure_text (e : ErrorKind) (p : BitVec 4) (w : Word) (s : State) :
    (recordFailure e p w s).text = s.text := rfl
@[simp] theorem recordFailure_freq (e : ErrorKind) (p : BitVec 4) (w : Word) (s : State) :
    (recordFailure e p w s).freq = s.freq := rfl
@[simp] theorem recordFailure_node (e : ErrorKind) (p : BitVec 4) (w : Word) (s : State) :
    (recordFailure e p w s).node = s.node := rfl
@[simp] theorem recordFailure_codelen (e : ErrorKind) (p : BitVec 4) (w : Word) (s : State) :
    (recordFailure e p w s).codelen = s.codelen := rfl
@[simp] theorem recordFailure_codebits (e : ErrorKind) (p : BitVec 4) (w : Word) (s : State) :
    (recordFailure e p w s).codebits = s.codebits := rfl
@[simp] theorem recordFailure_bits (e : ErrorKind) (p : BitVec 4) (w : Word) (s : State) :
    (recordFailure e p w s).bits = s.bits := rfl
@[simp] theorem recordFailure_packed (e : ErrorKind) (p : BitVec 4) (w : Word) (s : State) :
    (recordFailure e p w s).packed = s.packed := rfl
@[simp] theorem recordFailure_out (e : ErrorKind) (p : BitVec 4) (w : Word) (s : State) :
    (recordFailure e p w s).out = s.out := rfl
@[simp] theorem recordFailure_inbox (e : ErrorKind) (p : BitVec 4) (w : Word) (s : State) :
    (recordFailure e p w s).inbox = s.inbox := rfl
@[simp] theorem recordFailure_answers (e : ErrorKind) (p : BitVec 4) (w : Word) (s : State) :
    (recordFailure e p w s).answers = s.answers := rfl

/-! The dispatch lines (`startCommand`). -/

@[simp] theorem startCommand_cmd (w : Word) (s : State) : (startCommand w s).cmd = w := rfl
@[simp] theorem startCommand_err (w : Word) (s : State) : (startCommand w s).err = 0#4 := rfl
@[simp] theorem startCommand_errstage (w : Word) (s : State) : (startCommand w s).errstage = 0#4 := rfl
@[simp] theorem startCommand_errinfo (w : Word) (s : State) : (startCommand w s).errinfo = 0#32 := rfl
@[simp] theorem startCommand_esticky (w : Word) (s : State) : (startCommand w s).esticky = s.esticky := rfl
@[simp] theorem startCommand_tlen (w : Word) (s : State) : (startCommand w s).tlen = s.tlen := rfl
@[simp] theorem startCommand_blen (w : Word) (s : State) : (startCommand w s).blen = s.blen := rfl
@[simp] theorem startCommand_plen (w : Word) (s : State) : (startCommand w s).plen = s.plen := rfl
@[simp] theorem startCommand_olen (w : Word) (s : State) : (startCommand w s).olen = s.olen := rfl
@[simp] theorem startCommand_nnodes (w : Word) (s : State) : (startCommand w s).nnodes = s.nnodes := rfl
@[simp] theorem startCommand_root (w : Word) (s : State) : (startCommand w s).root = s.root := rfl
@[simp] theorem startCommand_text (w : Word) (s : State) : (startCommand w s).text = s.text := rfl
@[simp] theorem startCommand_freq (w : Word) (s : State) : (startCommand w s).freq = s.freq := rfl
@[simp] theorem startCommand_node (w : Word) (s : State) : (startCommand w s).node = s.node := rfl
@[simp] theorem startCommand_codelen (w : Word) (s : State) : (startCommand w s).codelen = s.codelen := rfl
@[simp] theorem startCommand_codebits (w : Word) (s : State) : (startCommand w s).codebits = s.codebits := rfl
@[simp] theorem startCommand_bits (w : Word) (s : State) : (startCommand w s).bits = s.bits := rfl
@[simp] theorem startCommand_packed (w : Word) (s : State) : (startCommand w s).packed = s.packed := rfl
@[simp] theorem startCommand_out (w : Word) (s : State) : (startCommand w s).out = s.out := rfl
@[simp] theorem startCommand_inbox (w : Word) (s : State) : (startCommand w s).inbox = s.inbox := rfl
@[simp] theorem startCommand_answers (w : Word) (s : State) : (startCommand w s).answers = s.answers := rfl

/-! An illegal word (`illegalCommand`). -/

@[simp] theorem illegalCommand_cmd (w : Word) (s : State) : (illegalCommand w s).cmd = s.cmd := rfl
@[simp] theorem illegalCommand_err (w : Word) (s : State) : (illegalCommand w s).err = 7#4 := rfl
@[simp] theorem illegalCommand_errstage (w : Word) (s : State) :
    (illegalCommand w s).errstage = (splitWord w).opc := rfl
@[simp] theorem illegalCommand_errinfo (w : Word) (s : State) : (illegalCommand w s).errinfo = w := rfl
@[simp] theorem illegalCommand_esticky (w : Word) (s : State) : (illegalCommand w s).esticky = 1#1 := rfl
@[simp] theorem illegalCommand_tlen (w : Word) (s : State) : (illegalCommand w s).tlen = s.tlen := rfl
@[simp] theorem illegalCommand_blen (w : Word) (s : State) : (illegalCommand w s).blen = s.blen := rfl
@[simp] theorem illegalCommand_plen (w : Word) (s : State) : (illegalCommand w s).plen = s.plen := rfl
@[simp] theorem illegalCommand_olen (w : Word) (s : State) : (illegalCommand w s).olen = s.olen := rfl
@[simp] theorem illegalCommand_nnodes (w : Word) (s : State) : (illegalCommand w s).nnodes = s.nnodes := rfl
@[simp] theorem illegalCommand_root (w : Word) (s : State) : (illegalCommand w s).root = s.root := rfl
@[simp] theorem illegalCommand_text (w : Word) (s : State) : (illegalCommand w s).text = s.text := rfl
@[simp] theorem illegalCommand_freq (w : Word) (s : State) : (illegalCommand w s).freq = s.freq := rfl
@[simp] theorem illegalCommand_node (w : Word) (s : State) : (illegalCommand w s).node = s.node := rfl
@[simp] theorem illegalCommand_codelen (w : Word) (s : State) : (illegalCommand w s).codelen = s.codelen := rfl
@[simp] theorem illegalCommand_codebits (w : Word) (s : State) : (illegalCommand w s).codebits = s.codebits := rfl
@[simp] theorem illegalCommand_bits (w : Word) (s : State) : (illegalCommand w s).bits = s.bits := rfl
@[simp] theorem illegalCommand_packed (w : Word) (s : State) : (illegalCommand w s).packed = s.packed := rfl
@[simp] theorem illegalCommand_out (w : Word) (s : State) : (illegalCommand w s).out = s.out := rfl
@[simp] theorem illegalCommand_inbox (w : Word) (s : State) : (illegalCommand w s).inbox = s.inbox := rfl
@[simp] theorem illegalCommand_answers (w : Word) (s : State) : (illegalCommand w s).answers = s.answers := rfl

/-! An answer (`answer`). -/

@[simp] theorem answer_cmd (a : Answer) (s : State) : (answer a s).cmd = s.cmd := rfl
@[simp] theorem answer_err (a : Answer) (s : State) : (answer a s).err = s.err := rfl
@[simp] theorem answer_errstage (a : Answer) (s : State) : (answer a s).errstage = s.errstage := rfl
@[simp] theorem answer_errinfo (a : Answer) (s : State) : (answer a s).errinfo = s.errinfo := rfl
@[simp] theorem answer_esticky (a : Answer) (s : State) : (answer a s).esticky = s.esticky := rfl
@[simp] theorem answer_tlen (a : Answer) (s : State) : (answer a s).tlen = s.tlen := rfl
@[simp] theorem answer_blen (a : Answer) (s : State) : (answer a s).blen = s.blen := rfl
@[simp] theorem answer_plen (a : Answer) (s : State) : (answer a s).plen = s.plen := rfl
@[simp] theorem answer_olen (a : Answer) (s : State) : (answer a s).olen = s.olen := rfl
@[simp] theorem answer_nnodes (a : Answer) (s : State) : (answer a s).nnodes = s.nnodes := rfl
@[simp] theorem answer_root (a : Answer) (s : State) : (answer a s).root = s.root := rfl
@[simp] theorem answer_text (a : Answer) (s : State) : (answer a s).text = s.text := rfl
@[simp] theorem answer_freq (a : Answer) (s : State) : (answer a s).freq = s.freq := rfl
@[simp] theorem answer_node (a : Answer) (s : State) : (answer a s).node = s.node := rfl
@[simp] theorem answer_codelen (a : Answer) (s : State) : (answer a s).codelen = s.codelen := rfl
@[simp] theorem answer_codebits (a : Answer) (s : State) : (answer a s).codebits = s.codebits := rfl
@[simp] theorem answer_bits (a : Answer) (s : State) : (answer a s).bits = s.bits := rfl
@[simp] theorem answer_packed (a : Answer) (s : State) : (answer a s).packed = s.packed := rfl
@[simp] theorem answer_out (a : Answer) (s : State) : (answer a s).out = s.out := rfl
@[simp] theorem answer_inbox (a : Answer) (s : State) : (answer a s).inbox = s.inbox := rfl
@[simp] theorem answer_answers (a : Answer) (s : State) : (answer a s).answers = s.answers ++ [a] := rfl

/-! Invalidation (`invalidate`): what it leaves alone for every primitive (R248). -/

@[simp] theorem invalidate_cmd (p : Primitive) (s : State) : (invalidate p s).cmd = s.cmd := by cases p <;> rfl
@[simp] theorem invalidate_err (p : Primitive) (s : State) : (invalidate p s).err = s.err := by cases p <;> rfl
@[simp] theorem invalidate_errstage (p : Primitive) (s : State) :
    (invalidate p s).errstage = s.errstage := by cases p <;> rfl
@[simp] theorem invalidate_errinfo (p : Primitive) (s : State) :
    (invalidate p s).errinfo = s.errinfo := by cases p <;> rfl
@[simp] theorem invalidate_esticky (p : Primitive) (s : State) :
    (invalidate p s).esticky = s.esticky := by cases p <;> rfl
@[simp] theorem invalidate_tlen (p : Primitive) (s : State) : (invalidate p s).tlen = s.tlen := by cases p <;> rfl
@[simp] theorem invalidate_text (p : Primitive) (s : State) : (invalidate p s).text = s.text := by cases p <;> rfl
@[simp] theorem invalidate_freq (p : Primitive) (s : State) : (invalidate p s).freq = s.freq := by cases p <;> rfl
@[simp] theorem invalidate_node (p : Primitive) (s : State) : (invalidate p s).node = s.node := by cases p <;> rfl
@[simp] theorem invalidate_codebits (p : Primitive) (s : State) :
    (invalidate p s).codebits = s.codebits := by cases p <;> rfl
@[simp] theorem invalidate_bits (p : Primitive) (s : State) : (invalidate p s).bits = s.bits := by cases p <;> rfl
@[simp] theorem invalidate_packed (p : Primitive) (s : State) :
    (invalidate p s).packed = s.packed := by cases p <;> rfl
@[simp] theorem invalidate_out (p : Primitive) (s : State) : (invalidate p s).out = s.out := by cases p <;> rfl
@[simp] theorem invalidate_inbox (p : Primitive) (s : State) :
    (invalidate p s).inbox = s.inbox := by cases p <;> rfl
@[simp] theorem invalidate_answers (p : Primitive) (s : State) :
    (invalidate p s).answers = s.answers := by cases p <;> rfl

theorem invalidate_blen (p : Primitive) (s : State) :
    (invalidate p s).blen = if p = .map then 0#32 else s.blen := by cases p <;> rfl
theorem invalidate_plen (p : Primitive) (s : State) :
    (invalidate p s).plen = if p = .pack then 0#32 else s.plen := by cases p <;> rfl
theorem invalidate_olen (p : Primitive) (s : State) :
    (invalidate p s).olen = if p = .matchCodes then 0#32 else s.olen := by cases p <;> rfl
theorem invalidate_nnodes (p : Primitive) (s : State) :
    (invalidate p s).nnodes = if p = .build then 0#10 else s.nnodes := by cases p <;> rfl
theorem invalidate_root (p : Primitive) (s : State) :
    (invalidate p s).root = if p = .build then 0#9 else s.root := by cases p <;> rfl
theorem invalidate_codelen (p : Primitive) (s : State) :
    (invalidate p s).codelen = if p = .gen then Mem.cleared else s.codelen := by cases p <;> rfl

end Sys2Proof.Machine
end

