-- ==== Sys2Proof/Laws/Failure.lean ====
section
/-! SUPPORT. What the failure entry does (60_exceptions.md R246): its whole effect, said once. -/

namespace Sys2Proof.Machine

theorem errorCode_ne_zero (e : ErrorKind) : errorCode e ≠ 0#4 := by cases e <;> decide

/-- Two kinds of failure have different codes (R241). -/
theorem errorCode_inj {e e' : ErrorKind} (h : errorCode e = errorCode e') : e = e' := by
  cases e <;> cases e' <;> first | rfl | exact absurd h (by decide)

/-- The value of ERRINFO is the number mod 2^32 (R163). -/
theorem infoWord_toNat (n : Nat) : (infoWord n).toNat = n % 2 ^ 32 := BitVec.toNat_ofNat n 32

theorem infoWord_toNat_of_lt {n : Nat} (h : n < 2 ^ 32) : (infoWord n).toNat = n := by
  rw [infoWord_toNat, Nat.mod_eq_of_lt h]

theorem infoWord_of_toNat (w : Word) : infoWord w.toNat = w := by simp [infoWord]

/-- Taking a failure never completes the stage. -/
theorem raiseFailure_ne_completed (p : Primitive) (e : ErrorKind) (n : Nat) (s s' : State) :
    raiseFailure p e n s ≠ .completed s' := by simp [raiseFailure]

/-- The one state a failure leaves: the four failure registers, then INV of the primitive (R246, R248). -/
theorem raiseFailure_eq_failed {p : Primitive} {e : ErrorKind} {n : Nat} {s s' : State}
    (h : raiseFailure p e n s = .failed s') :
    s' = invalidate p { s with err := errorCode e, errstage := primitiveOpcode p, errinfo := infoWord n, esticky := 1#1 } := by
  simpa [raiseFailure, recordFailure, eq_comm] using h

/-- The failure registers after a failure (R246). -/
theorem raiseFailure_registers {p : Primitive} {e : ErrorKind} {n : Nat} {s s' : State}
    (h : raiseFailure p e n s = .failed s') :
    s'.err = errorCode e ∧ s'.errstage = primitiveOpcode p ∧ s'.errinfo = infoWord n ∧ s'.esticky = 1#1 := by
  rw [raiseFailure_eq_failed h]; simp

/-- A failure writes no data space but CODELEN, which GEN's invalidation clears (R247, R248). -/
theorem raiseFailure_spaces {p : Primitive} {e : ErrorKind} {n : Nat} {s s' : State}
    (h : raiseFailure p e n s = .failed s') :
    s'.text = s.text ∧ s'.freq = s.freq ∧ s'.node = s.node ∧ s'.codebits = s.codebits ∧ s'.bits = s.bits ∧
      s'.packed = s.packed ∧ s'.out = s.out ∧ (p ≠ .gen → s'.codelen = s.codelen) := by
  rw [raiseFailure_eq_failed h]
  refine ⟨by simp, by simp, by simp, by simp, by simp, by simp, by simp, fun hp => ?_⟩
  rw [invalidate_codelen, if_neg hp]

end Sys2Proof.Machine
end

