-- ==== Sys2Proof/Laws/Mem.lean ====
section
/-! SUPPORT. What reading, writing and slicing a data space do, and that every operation keeps the canonical form
`Mem.Wf` and the bound `Mem.Below`. -/

namespace Sys2Proof.Machine

variable {α : Type}

@[simp] theorem Mem.read_nil (z : α) (i : Nat) : Mem.read z [] i = z := rfl

theorem Mem.read_cons (z : α) (j : Nat) (v : α) (m : Mem α) (i : Nat) :
    Mem.read z ((j, v) :: m) i = if j = i then v else Mem.read z m i := rfl

@[simp] theorem Mem.read_cleared (z : α) (i : Nat) : Mem.read z Mem.cleared i = z := rfl

/-- An index no entry has reads as the reset value. -/
theorem Mem.read_of_not_listed (z : α) {m : Mem α} {i : Nat} (h : ∀ c ∈ m, c.1 ≠ i) : m.read z i = z := by
  induction m with
  | nil => rfl
  | cons c m ih =>
    obtain ⟨j, v⟩ := c
    simp only [List.mem_cons, forall_eq_or_imp] at h
    rw [Mem.read_cons, if_neg h.1, ih h.2]

/-- In a canonical space an entry is what its index reads as. -/
theorem Mem.Wf.read_of_mem {z : α} {m : Mem α} (h : Mem.Wf z m) {i : Nat} {v : α} (hm : (i, v) ∈ m) :
    m.read z i = v := by
  induction m with
  | nil => cases hm
  | cons c m ih =>
    obtain ⟨j, u⟩ := c
    obtain ⟨hp, hz⟩ := h
    rw [List.pairwise_cons] at hp
    rcases List.mem_cons.1 hm with e | hm'
    · cases e
      exact if_pos rfl
    · rw [Mem.read_cons, if_neg (by have := hp.1 _ hm'; simp only at this; omega)]
      exact ih ⟨hp.2, fun c hc => hz c (List.mem_cons_of_mem _ hc)⟩ hm'

/-- What does not read as the reset value is an entry. -/
theorem Mem.mem_of_read_ne {z : α} {m : Mem α} {i : Nat} (h : m.read z i ≠ z) : (i, m.read z i) ∈ m := by
  induction m with
  | nil => exact absurd rfl h
  | cons c m ih =>
    obtain ⟨j, u⟩ := c
    rw [Mem.read_cons] at h ⊢
    split
    · next e => subst e; exact List.mem_cons_self
    · next e => rw [if_neg e] at h; exact List.mem_cons_of_mem _ (ih h)

/-- Two canonical spaces that read alike everywhere are the same list. -/
theorem Mem.Wf.ext {z : α} {m m' : Mem α} (h : Mem.Wf z m) (h' : Mem.Wf z m')
    (e : ∀ i, m.read z i = m'.read z i) : m = m' := by
  have mem_iff : ∀ c, c ∈ m ↔ c ∈ m' := by
    have one : ∀ {m m' : Mem α}, Mem.Wf z m → (∀ i, m.read z i = m'.read z i) → ∀ c, c ∈ m → c ∈ m' := by
      intro m m' h e c hc
      have hr := h.read_of_mem (i := c.1) (v := c.2) hc
      have hne : m'.read z c.1 ≠ z := by rw [← e, hr]; exact h.2 c hc
      have := Mem.mem_of_read_ne hne
      rwa [← e, hr] at this
    exact fun c => ⟨one h e c, one h' (fun i => (e i).symm) c⟩
  have nodup : ∀ {m : Mem α}, Mem.Wf z m → m.Nodup := fun h =>
    h.1.imp (fun {a b} hab heq => by rw [heq] at hab; exact Nat.lt_irrefl _ hab)
  refine List.Perm.eq_of_pairwise (le := fun a b => a.1 < b.1) ?_ h.1 h'.1
    ((List.perm_ext_iff_of_nodup (nodup h) (nodup h')).2 mem_iff)
  intro a b _ _ hab hba
  omega

section Write

variable [DecidableEq α]

theorem Mem.mem_write {z : α} {m : Mem α} {i : Nat} {v : α} {c : Nat × α} (h : c ∈ m.write z i v) :
    c ∈ m ∨ (c = (i, v) ∧ v ≠ z) := by
  induction m with
  | nil =>
    simp only [Mem.write] at h
    split at h
    · cases h
    · next hv => exact .inr ⟨by simpa using h, hv⟩
  | cons d m ih =>
    obtain ⟨j, u⟩ := d
    simp only [Mem.write] at h
    split at h
    · split at h
      · exact .inl h
      · next hv =>
        rcases List.mem_cons.1 h with e | h
        · exact .inr ⟨e, hv⟩
        · exact .inl h
    · split at h
      · split at h
        · exact .inl (List.mem_cons_of_mem _ h)
        · next hv =>
          rcases List.mem_cons.1 h with e | h
          · exact .inr ⟨e, hv⟩
          · exact .inl (List.mem_cons_of_mem _ h)
      · rcases List.mem_cons.1 h with e | h
        · exact .inl (e ▸ List.mem_cons_self)
        · rcases ih h with h | h
          · exact .inl (List.mem_cons_of_mem _ h)
          · exact .inr h

/-- A write keeps the canonical form. -/
theorem Mem.write_wf {z : α} {m : Mem α} (h : Mem.Wf z m) (i : Nat) (v : α) : Mem.Wf z (m.write z i v) := by
  refine ⟨?_, fun c hc => ?_⟩
  · induction m with
    | nil => simp only [Mem.write]; split <;> simp
    | cons d m ih =>
      obtain ⟨j, u⟩ := d
      obtain ⟨hp, hz⟩ := h
      rw [List.pairwise_cons] at hp
      have hm : Mem.Wf z m := ⟨hp.2, fun c hc => hz c (List.mem_cons_of_mem _ hc)⟩
      simp only [Mem.write]
      split
      · next hij =>
        split
        · exact List.pairwise_cons.2 hp
        · refine List.pairwise_cons.2 ⟨fun c hc => ?_, List.pairwise_cons.2 hp⟩
          rcases List.mem_cons.1 hc with e | hc
          · simpa [e] using hij
          · exact Nat.lt_trans hij (hp.1 c hc)
      · split
        · next hij =>
          subst hij
          split
          · exact hp.2
          · exact List.pairwise_cons.2 hp
        · next h1 h2 =>
          refine List.pairwise_cons.2 ⟨fun c hc => ?_, ih hm⟩
          rcases Mem.mem_write hc with hc | ⟨hc, -⟩
          · exact hp.1 c hc
          · simp only [hc]; omega
  · rcases Mem.mem_write hc with hc | ⟨e, hv⟩
    · exact h.2 c hc
    · rw [e]; exact hv

theorem Mem.write_below {z : α} {m : Mem α} {size : Nat} (h : m.Below size) {i : Nat} (hi : i < size) (v : α) :
    (m.write z i v).Below size := by
  intro c hc
  rcases Mem.mem_write hc with hc | ⟨e, -⟩
  · exact h c hc
  · rw [e]; exact hi

/-- In a canonical space a write is read back, and every other index reads as before. -/
theorem Mem.read_write {z : α} {m : Mem α} (h : Mem.Wf z m) (i : Nat) (v : α) (k : Nat) :
    (m.write z i v).read z k = if i = k then v else m.read z k := by
  induction m with
  | nil =>
    simp only [Mem.write]
    split
    · next hv => subst hv; simp
    · rfl
  | cons d m ih =>
    obtain ⟨j, u⟩ := d
    obtain ⟨hp, hz⟩ := h
    rw [List.pairwise_cons] at hp
    have hm : Mem.Wf z m := ⟨hp.2, fun c hc => hz c (List.mem_cons_of_mem _ hc)⟩
    have above : ∀ k ≤ j, Mem.read z m k = z := fun k hk =>
      Mem.read_of_not_listed z fun c hc => by have := hp.1 c hc; simp only at this; omega
    simp only [Mem.write]
    split
    · next hij =>
      split
      · next hv =>
        subst hv
        split
        · next e => subst e; rw [Mem.read_cons, if_neg (by omega), above _ (by omega)]
        · rfl
      · rfl
    · split
      · next hij =>
        subst hij
        split
        · next hv =>
          subst hv
          split
          · next e => subst e; exact above _ (Nat.le_refl _)
          · next e => rw [Mem.read_cons, if_neg e]
        · simp only [Mem.read_cons]
          split <;> rfl
      · next h1 h2 =>
        rw [Mem.read_cons, Mem.read_cons, ih hm]
        split
        · next e => subst e; rw [if_neg (by omega)]
        · rfl

theorem Mem.read_write_same {z : α} {m : Mem α} (h : Mem.Wf z m) (i : Nat) (v : α) :
    (m.write z i v).read z i = v := by rw [Mem.read_write h, if_pos rfl]

theorem Mem.read_write_ne {z : α} {m : Mem α} (h : Mem.Wf z m) {i k : Nat} (v : α) (hik : i ≠ k) :
    (m.write z i v).read z k = m.read z k := by rw [Mem.read_write h, if_neg hik]

end Write

/-- Reading a concatenation: the first part where it lists the index, else the second. -/
theorem Mem.read_append (z : α) (m m' : Mem α) (i : Nat) :
    Mem.read z (m ++ m') i = if (∃ c ∈ m, c.1 = i) then m.read z i else m'.read z i := by
  induction m with
  | nil => simp
  | cons c m ih =>
    obtain ⟨j, v⟩ := c
    rw [List.cons_append, Mem.read_cons, Mem.read_cons, ih]
    by_cases e : j = i
    · simp [e]
    · have hex : (∃ c ∈ (j, v) :: m, c.1 = i) ↔ ∃ c ∈ m, c.1 = i := by simp [e]
      simp only [if_neg e, hex]

/-- Entries left out by a test on the index read as the reset value, the others as before. -/
theorem Mem.read_filter (z : α) (m : Mem α) (p : Nat → Bool) (i : Nat) :
    Mem.read z (m.filter fun c => p c.1) i = if p i then m.read z i else z := by
  induction m with
  | nil => simp
  | cons c m ih =>
    obtain ⟨j, v⟩ := c
    by_cases hp : p j
    · rw [List.filter_cons_of_pos (by simpa using hp), Mem.read_cons, Mem.read_cons, ih]
      by_cases e : j = i
      · simp [← e, hp]
      · simp [e]
    · rw [List.filter_cons_of_neg (by simpa using hp), ih, Mem.read_cons]
      by_cases e : j = i
      · simp [← e, hp]
      · simp [e]

section WriteFrom

variable [DecidableEq α]

theorem Mem.entries_nil (z : α) (base : Nat) : Mem.entries z base [] = [] := rfl

theorem Mem.entries_cons (z : α) (base : Nat) (v : α) (vs : List α) :
    Mem.entries z base (v :: vs) = if v = z then Mem.entries z (base + 1) vs
      else (base, v) :: Mem.entries z (base + 1) vs := by
  simp only [Mem.entries, List.zipIdx_cons, List.map_cons]
  split
  · next e => rw [List.filter_cons_of_neg (by simp [e])]
  · next e => rw [List.filter_cons_of_pos (by simp [e])]

theorem Mem.entries_bounds {z : α} {base : Nat} {vs : List α} {c : Nat × α} (h : c ∈ Mem.entries z base vs) :
    base ≤ c.1 ∧ c.1 < base + vs.length ∧ c.2 ≠ z := by
  induction vs generalizing base with
  | nil => cases h
  | cons v vs ih =>
    rw [Mem.entries_cons] at h
    simp only [List.length_cons]
    split at h
    · have := ih h; refine ⟨?_, ?_, this.2.2⟩ <;> omega
    · next hv =>
      rcases List.mem_cons.1 h with e | h
      · subst e; exact ⟨Nat.le_refl _, by simp only; omega, hv⟩
      · have := ih h; refine ⟨?_, ?_, this.2.2⟩ <;> omega

theorem Mem.entries_pairwise (z : α) (base : Nat) (vs : List α) :
    (Mem.entries z base vs).Pairwise (fun a b => a.1 < b.1) := by
  induction vs generalizing base with
  | nil => exact List.Pairwise.nil
  | cons v vs ih =>
    rw [Mem.entries_cons]
    split
    · exact ih _
    · exact List.pairwise_cons.2 ⟨fun c hc => by have := (Mem.entries_bounds hc).1; simp only; omega, ih _⟩

theorem Mem.read_entries (z : α) (base : Nat) (vs : List α) (i : Nat) :
    Mem.read z (Mem.entries z base vs) i = if base ≤ i then vs.getD (i - base) z else z := by
  induction vs generalizing base with
  | nil => simp [Mem.entries_nil]
  | cons v vs ih =>
    have step : Mem.read z (Mem.entries z base (v :: vs)) i
        = if base = i then v else Mem.read z (Mem.entries z (base + 1) vs) i := by
      rw [Mem.entries_cons]
      split
      · next hv =>
        split
        · next e =>
          rw [hv]
          exact Mem.read_of_not_listed z fun c hc => by have := (Mem.entries_bounds hc).1; omega
        · rfl
      · rfl
    rw [step, ih]
    by_cases h1 : base = i
    · simp [h1]
    · by_cases h2 : base + 1 ≤ i
      · rw [if_neg h1, if_pos h2, if_pos (by omega), show i - base = (i - (base + 1)) + 1 by omega]
        rfl
      · rw [if_neg h1, if_neg h2, if_neg (by omega)]

/-- What a space reads as after a list was written from `base` up: the list there, everything else as before. -/
theorem Mem.read_writeFrom (z : α) (m : Mem α) (base : Nat) (vs : List α) (i : Nat) :
    (m.writeFrom z base vs).read z i
      = if base ≤ i ∧ i < base + vs.length then vs.getD (i - base) z else m.read z i := by
  have low : ∀ j, Mem.read z (m.filter fun c => decide (c.1 < base)) j = if j < base then m.read z j else z :=
    fun j => by simpa using Mem.read_filter z m (fun k => decide (k < base)) j
  have high : ∀ j, Mem.read z (m.filter fun c => decide (base + vs.length ≤ c.1)) j
      = if base + vs.length ≤ j then m.read z j else z :=
    fun j => by simpa using Mem.read_filter z m (fun k => decide (base + vs.length ≤ k)) j
  rw [Mem.writeFrom, List.append_assoc, Mem.read_append, Mem.read_append, low, high, Mem.read_entries]
  by_cases h1 : i < base
  · rw [if_pos h1, if_neg (c := base ≤ i ∧ i < base + vs.length) (by omega)]
    split
    · rfl
    · next hl =>
      have hz : m.read z i = z := Mem.read_of_not_listed z fun c hc e => hl ⟨c, by simp [hc, e, h1], e⟩
      rw [hz]
      split
      · next he => obtain ⟨c, hc, e⟩ := he; have := (Mem.entries_bounds hc).1; omega
      · split <;> rfl
  · have hl : ¬ ∃ c ∈ m.filter (fun c => decide (c.1 < base)), c.1 = i := by
      rintro ⟨c, hc, e⟩
      have := List.mem_filter.1 hc
      simp only [decide_eq_true_eq] at this
      omega
    rw [if_neg hl]
    by_cases h2 : i < base + vs.length
    · have hb : base ≤ i := by omega
      have hn : ¬ base + vs.length ≤ i := by omega
      simp only [hb, h2, hn, and_self, if_true, if_false]
      split
      · rfl
      · next he =>
        have hr := Mem.read_entries z base vs i
        rw [if_pos hb, Mem.read_of_not_listed z (fun c hc e => he ⟨c, hc, e⟩)] at hr
        exact hr
    · rw [if_neg (c := base ≤ i ∧ i < base + vs.length) (by omega), if_pos (c := base + vs.length ≤ i) (by omega)]
      split
      · next he => obtain ⟨c, hc, e⟩ := he; have := (Mem.entries_bounds hc).2.1; omega
      · rfl

/-- Writing a list keeps the canonical form. -/
theorem Mem.writeFrom_wf {z : α} {m : Mem α} (h : Mem.Wf z m) (base : Nat) (vs : List α) :
    Mem.Wf z (m.writeFrom z base vs) := by
  refine ⟨?_, fun c hc => ?_⟩
  · rw [Mem.writeFrom, List.append_assoc]
    refine List.pairwise_append.2 ⟨h.1.sublist List.filter_sublist, List.pairwise_append.2
      ⟨Mem.entries_pairwise z base vs, h.1.sublist List.filter_sublist, fun a ha b hb => ?_⟩, fun a ha b hb => ?_⟩
    · have hlt := (Mem.entries_bounds ha).2.1
      have := (List.mem_filter.1 hb).2
      simp only [decide_eq_true_eq] at this
      omega
    · have hlt := (List.mem_filter.1 ha).2
      simp only [decide_eq_true_eq] at hlt
      rcases List.mem_append.1 hb with hb | hb
      · have := (Mem.entries_bounds hb).1; omega
      · have := (List.mem_filter.1 hb).2
        simp only [decide_eq_true_eq] at this
        omega
  · rcases List.mem_append.1 hc with hc | hc
    · rcases List.mem_append.1 hc with hc | hc
      · exact h.2 c (List.mem_filter.1 hc).1
      · exact (Mem.entries_bounds hc).2.2
    · exact h.2 c (List.mem_filter.1 hc).1

theorem Mem.writeFrom_below {z : α} {m : Mem α} {size : Nat} (h : m.Below size) (base : Nat) (vs : List α)
    (hb : base + vs.length ≤ size) : (m.writeFrom z base vs).Below size := by
  intro c hc
  rcases List.mem_append.1 hc with hc | hc
  · rcases List.mem_append.1 hc with hc | hc
    · exact h c (List.mem_filter.1 hc).1
    · have := (Mem.entries_bounds hc).2.1; omega
  · exact h c (List.mem_filter.1 hc).1

end WriteFrom

@[simp] theorem Mem.slice_length (z : α) (m : Mem α) (base n : Nat) : (m.slice z base n).length = n := by
  simp [Mem.slice]

theorem Mem.slice_getElem (z : α) (m : Mem α) (base n k : Nat) (h : k < (m.slice z base n).length) :
    (m.slice z base n)[k] = m.read z (base + k) := by
  simp [Mem.slice]

theorem Mem.slice_congr {z : α} {m m' : Mem α} {base n : Nat}
    (h : ∀ k < n, m.read z (base + k) = m'.read z (base + k)) : m.slice z base n = m'.slice z base n :=
  List.map_congr_left fun k hk => h k (List.mem_range.1 hk)

/-- A slice of what has just been written there is the list written. -/
theorem Mem.slice_writeFrom [DecidableEq α] (z : α) (m : Mem α) (base : Nat) (vs : List α) :
    (m.writeFrom z base vs).slice z base vs.length = vs := by
  refine List.ext_getElem (by simp) fun k h1 h2 => ?_
  rw [Mem.slice_getElem, Mem.read_writeFrom, if_pos ⟨by omega, by omega⟩, Nat.add_sub_cancel_left,
    List.getD_eq_getElem _ _ h2]

end Sys2Proof.Machine
end

