-- ==== Sys2Proof/Laws/PerInstr.lean ====
section
/-! SUPPORT. The laws made per command. `OwnWord`: the word of a command has no reserved bit set and carries the
command's own opcode (30_encoding.md R90, R93). -/

namespace Sys2Proof.Laws.OwnWord

/-- The fields of the command's word are a zero RSV and its opcode, and the opcode is not a reserved one. -/
def Statement (i : Instr) : Prop :=
  splitWord (encode i) = ⟨0#28, opcode i⟩ ∧ (splitWord (encode i)).wellFormed = true

theorem nop : Statement .nop := by unfold Statement; decide
theorem clr : Statement .clr := by unfold Statement; decide
theorem count : Statement .count := by unfold Statement; decide
theorem build : Statement .build := by unfold Statement; decide
theorem gen : Statement .gen := by unfold Statement; decide
theorem map : Statement .map := by unfold Statement; decide
theorem pad : Statement .pad := by unfold Statement; decide
theorem pack : Statement .pack := by unfold Statement; decide
theorem expand : Statement .expand := by unfold Statement; decide
theorem strip : Statement .strip := by unfold Statement; decide
theorem matchCodes : Statement .matchCodes := by unfold Statement; decide
theorem enc : Statement .enc := by unfold Statement; decide
theorem dec : Statement .dec := by unfold Statement; decide
theorem compress : Statement .compress := by unfold Statement; decide

end Sys2Proof.Laws.OwnWord
end

