-- ==== Sys2Proof/Laws/Stages.lean ====
section
/-! SUPPORT. What each stage does (one lemma per stage: when it completes and with what, when it fails), what every
stage leaves alone, and the sequencing of stages. -/

namespace Sys2Proof.Machine

/-- A command runs its stages; the outcome is always a next state. -/
theorem exec_eq_runStages (i : Instr) (s : State) : exec i s = .next (runStages (stagesOf i) s) := by
  cases i <;> rfl

/-- The state a stage ends in, completed or failed. -/
def StageResult.state : StageResult → State
  | .completed s => s
  | .failed s => s

@[simp] theorem StageResult.state_completed (s : State) : (StageResult.completed s).state = s := rfl
@[simp] theorem StageResult.state_failed (s : State) : (StageResult.failed s).state = s := rfl

theorem runStages_completed {p : Primitive} {s s' : State} (h : runStage p s = .completed s') (ps : List Primitive) :
    runStages (p :: ps) s = runStages ps s' := by rw [runStages, h]

theorem runStages_failed {p : Primitive} {s s' : State} (h : runStage p s = .failed s') (ps : List Primitive) :
    runStages (p :: ps) s = invalidateAll ps s' := by rw [runStages, h]

/-- A command of one stage ends in the state of its stage. -/
theorem runStages_single (p : Primitive) (s : State) : runStages [p] s = (runStage p s).state := by
  rw [runStages]
  cases runStage p s <;> rfl

/-- A command of several stages completes each of them, or ends at the first that fails (R116). -/
theorem runStages_cons (p : Primitive) (ps : List Primitive) (s : State) :
    (∃ s', runStage p s = .completed s' ∧ runStages (p :: ps) s = runStages ps s') ∨
    (∃ s', runStage p s = .failed s' ∧ runStages (p :: ps) s = invalidateAll ps s') := by
  cases h : runStage p s with
  | completed s' => exact .inl ⟨s', rfl, runStages_completed h ps⟩
  | failed s' => exact .inr ⟨s', rfl, runStages_failed h ps⟩

/-! Each stage. -/

theorem runStage_nop (s : State) : runStage .nop s = .completed s := rfl

theorem runStage_clr (s : State) :
    runStage .clr s = .completed { State.reset with cmd := s.cmd, inbox := s.inbox, answers := s.answers } := rfl

theorem runStage_count (s : State) : runStage .count s = .completed (s.setFreq (countText (textSymbols s))) := rfl

theorem runStage_build (s : State) :
    (leaves s.freq = [] ∧ runStage .build s = raiseFailure .build .emptyFreq 0 s) ∨
    (leaves s.freq ≠ [] ∧ runStage .build s =
      .completed (s.setTree (s.node.writeFrom Node.zero 0 (buildNodes tieBreak childOrder s.freq))
        (BitVec.ofNat 10 (2 * (leaves s.freq).length - 1)) (BitVec.ofNat 9 (2 * (leaves s.freq).length - 2)))) := by
  by_cases h : leaves s.freq = []
  · exact .inl ⟨h, by simp [runStage, stageBuild, buildTree, h]⟩
  · refine .inr ⟨h, ?_⟩
    have : (leaves s.freq).length ≠ 0 := fun e => h (List.length_eq_zero_iff.1 e)
    simp only [runStage, stageBuild, buildTree, if_neg this]

theorem runStage_gen (s : State) :
    (s.nnodes = 0#10 ∧ runStage .gen s = raiseFailure .gen .noTree 0 s) ∨
    (s.nnodes ≠ 0#10 ∧ runStage .gen s =
      .completed (s.setTable (tableOfTree s.node s.root.toNat).codelen (tableOfTree s.node s.root.toNat).codebits)) := by
  by_cases h : s.nnodes = 0#10
  · exact .inl ⟨h, by simp only [runStage, stageGen, if_pos h]⟩
  · exact .inr ⟨h, by simp only [runStage, stageGen, if_neg h]⟩

theorem runStage_map (s : State) :
    (Config.bitsCap < payloadLength s ∧ runStage .map s = raiseFailure .map .capacity (payloadLength s) s) ∨
    (payloadLength s ≤ Config.bitsCap ∧ runStage .map s =
      .completed (s.setBits (s.bits.writeFrom false 0 (payload s)) (infoWord (payloadLength s)))) := by
  by_cases h : Config.bitsCap < payloadLength s
  · exact .inl ⟨h, by simp only [runStage, stageMap, if_pos h]⟩
  · exact .inr ⟨Nat.le_of_not_lt h, by simp only [runStage, stageMap, if_neg h]⟩

theorem runStage_pad (s : State) :
    (Config.bitsCap < s.blen.toNat + padCount s.blen.toNat ∧ runStage .pad s =
      raiseFailure .pad .capacity (s.blen.toNat + padCount s.blen.toNat) s) ∨
    (s.blen.toNat + padCount s.blen.toNat ≤ Config.bitsCap ∧ runStage .pad s =
      .completed (s.setBits (s.bits.writeFrom false s.blen.toNat (padBits s.blen.toNat))
        (infoWord (s.blen.toNat + padCount s.blen.toNat)))) := by
  by_cases h : Config.bitsCap < s.blen.toNat + padCount s.blen.toNat
  · exact .inl ⟨h, by simp only [runStage, stagePad, if_pos h]⟩
  · exact .inr ⟨Nat.le_of_not_lt h, by simp only [runStage, stagePad, if_neg h]⟩

theorem runStage_pack (s : State) :
    (s.blen.toNat % 8 ≠ 0 ∧ runStage .pack s = raiseFailure .pack .unaligned s.blen.toNat s) ∨
    (s.blen.toNat % 8 = 0 ∧ runStage .pack s =
      .completed (s.setPacked (s.packed.writeFrom 0#8 0 ((List.range (s.blen.toNat / 8)).map (packByte s.bits)))
        (infoWord (s.blen.toNat / 8)))) := by
  by_cases h : s.blen.toNat % 8 = 0
  · exact .inr ⟨h, by simp only [runStage, stagePack, Config.byteBits, h, ne_eq, not_true, if_false]⟩
  · exact .inl ⟨h, by simp only [runStage, stagePack, Config.byteBits, h, ne_eq, not_false_eq_true, if_true]⟩

theorem runStage_expand (s : State) :
    runStage .expand s = .completed (s.setBits (s.bits.writeFrom false 0 ((packedBytes s).flatMap bitsOfByte))
      (infoWord (8 * s.plen.toNat))) := rfl

theorem runStage_strip (s : State) :
    (lastOne (bitSequence s) = none ∧ runStage .strip s = raiseFailure .strip .noSentinel s.blen.toNat s) ∨
    (∃ p, lastOne (bitSequence s) = some p ∧ runStage .strip s = .completed (s.setBlen (infoWord p))) := by
  cases h : lastOne (bitSequence s) with
  | none => exact .inl ⟨rfl, by simp only [runStage, stageStrip, h]⟩
  | some p => exact .inr ⟨p, rfl, by simp only [runStage, stageStrip, h]⟩

theorem runStage_match (s : State) :
    (∃ syms, scan (resolve s) Config.outCap (bitSequence s) 0 [] 0 0 = .decoded syms ∧
      runStage .matchCodes s = .completed (s.setOut (s.out.writeFrom 0#8 0 syms) (infoWord syms.length))) ∨
    (∃ n, scan (resolve s) Config.outCap (bitSequence s) 0 [] 0 0 = .dangling n ∧
      runStage .matchCodes s = raiseFailure .matchCodes .undecodable n s) ∨
    (∃ n, scan (resolve s) Config.outCap (bitSequence s) 0 [] 0 0 = .overflow n ∧
      runStage .matchCodes s = raiseFailure .matchCodes .capacity n s) := by
  cases h : scan (resolve s) Config.outCap (bitSequence s) 0 [] 0 0 with
  | decoded syms => exact .inl ⟨syms, rfl, by simp only [runStage, stageMatch, h]⟩
  | dangling n => exact .inr (.inl ⟨n, rfl, by simp only [runStage, stageMatch, h]⟩)
  | overflow n => exact .inr (.inr ⟨n, rfl, by simp only [runStage, stageMatch, h]⟩)

/-! What every stage leaves alone. -/

/-- A stage that fails has taken a failure of its own (R245, R246). -/
theorem runStage_failed_by_raise {p : Primitive} {s s' : State} (h : runStage p s = .failed s') :
    ∃ e n, raiseFailure p e n s = .failed s' := by
  cases p with
  | nop => cases h
  | clr => cases h
  | count => cases h
  | expand => cases h
  | build =>
    rcases runStage_build s with ⟨-, e⟩ | ⟨-, e⟩ <;> rw [e] at h
    · exact ⟨_, _, h⟩
    · cases h
  | gen =>
    rcases runStage_gen s with ⟨-, e⟩ | ⟨-, e⟩ <;> rw [e] at h
    · exact ⟨_, _, h⟩
    · cases h
  | map =>
    rcases runStage_map s with ⟨-, e⟩ | ⟨-, e⟩ <;> rw [e] at h
    · exact ⟨_, _, h⟩
    · cases h
  | pad =>
    rcases runStage_pad s with ⟨-, e⟩ | ⟨-, e⟩ <;> rw [e] at h
    · exact ⟨_, _, h⟩
    · cases h
  | pack =>
    rcases runStage_pack s with ⟨-, e⟩ | ⟨-, e⟩ <;> rw [e] at h
    · exact ⟨_, _, h⟩
    · cases h
  | strip =>
    rcases runStage_strip s with ⟨-, e⟩ | ⟨_, -, e⟩ <;> rw [e] at h
    · exact ⟨_, _, h⟩
    · cases h
  | matchCodes =>
    rcases runStage_match s with ⟨_, -, e⟩ | ⟨_, -, e⟩ | ⟨_, -, e⟩ <;> rw [e] at h
    · cases h
    · exact ⟨_, _, h⟩
    · exact ⟨_, _, h⟩

/-- The ways a stage completes: the one update each primitive makes. -/
theorem runStage_completed_cases {p : Primitive} {s s' : State} (h : runStage p s = .completed s') :
    (p = .nop ∧ s' = s) ∨
    (p = .clr ∧ s' = { State.reset with cmd := s.cmd, inbox := s.inbox, answers := s.answers }) ∨
    (p = .count ∧ ∃ f, s' = s.setFreq f) ∨
    (p = .build ∧ ∃ m n r, s' = s.setTree m n r) ∨
    (p = .gen ∧ ∃ l b, s' = s.setTable l b) ∨
    ((p = .map ∨ p = .pad ∨ p = .expand) ∧ ∃ m n, s' = s.setBits m n) ∨
    (p = .pack ∧ ∃ m n, s' = s.setPacked m n) ∨
    (p = .strip ∧ ∃ n, s' = s.setBlen n) ∨
    (p = .matchCodes ∧ ∃ m n, s' = s.setOut m n) := by
  cases p with
  | nop => cases h; simp
  | clr => cases h; exact .inr (.inl ⟨rfl, rfl⟩)
  | count => cases h; exact .inr (.inr (.inl ⟨rfl, _, rfl⟩))
  | expand => cases h; exact .inr (.inr (.inr (.inr (.inr (.inl ⟨by simp, _, _, rfl⟩)))))
  | build =>
    rcases runStage_build s with ⟨-, e⟩ | ⟨-, e⟩ <;> rw [e] at h
    · cases h
    · cases h; exact .inr (.inr (.inr (.inl ⟨rfl, _, _, _, rfl⟩)))
  | gen =>
    rcases runStage_gen s with ⟨-, e⟩ | ⟨-, e⟩ <;> rw [e] at h
    · cases h
    · cases h; exact .inr (.inr (.inr (.inr (.inl ⟨rfl, _, _, rfl⟩))))
  | map =>
    rcases runStage_map s with ⟨-, e⟩ | ⟨-, e⟩ <;> rw [e] at h
    · cases h
    · cases h; exact .inr (.inr (.inr (.inr (.inr (.inl ⟨by simp, _, _, rfl⟩)))))
  | pad =>
    rcases runStage_pad s with ⟨-, e⟩ | ⟨-, e⟩ <;> rw [e] at h
    · cases h
    · cases h; exact .inr (.inr (.inr (.inr (.inr (.inl ⟨by simp, _, _, rfl⟩)))))
  | pack =>
    rcases runStage_pack s with ⟨-, e⟩ | ⟨-, e⟩ <;> rw [e] at h
    · cases h
    · cases h; exact .inr (.inr (.inr (.inr (.inr (.inr (.inl ⟨rfl, _, _, rfl⟩))))))
  | strip =>
    rcases runStage_strip s with ⟨-, e⟩ | ⟨_, -, e⟩ <;> rw [e] at h
    · cases h
    · cases h; exact .inr (.inr (.inr (.inr (.inr (.inr (.inr (.inl ⟨rfl, _, rfl⟩)))))))
  | matchCodes =>
    rcases runStage_match s with ⟨_, -, e⟩ | ⟨_, -, e⟩ | ⟨_, -, e⟩ <;> rw [e] at h
    · cases h; exact .inr (.inr (.inr (.inr (.inr (.inr (.inr (.inr ⟨rfl, _, _, rfl⟩)))))))
    · cases h
    · cases h

/-- A stage touches neither the command word nor the port. -/
theorem runStage_port (p : Primitive) (s : State) :
    (runStage p s).state.cmd = s.cmd ∧ (runStage p s).state.inbox = s.inbox ∧
      (runStage p s).state.answers = s.answers := by
  cases h : runStage p s with
  | completed s' =>
    rcases runStage_completed_cases h with ⟨-, e⟩ | ⟨-, e⟩ | ⟨-, _, e⟩ | ⟨-, _, _, _, e⟩ | ⟨-, _, _, e⟩ | ⟨-, _, _, e⟩ |
      ⟨-, _, _, e⟩ | ⟨-, _, e⟩ | ⟨-, _, _, e⟩ <;> subst e <;> exact ⟨rfl, rfl, rfl⟩
  | failed s' =>
    obtain ⟨e, n, he⟩ := runStage_failed_by_raise h
    rw [StageResult.state_failed, raiseFailure_eq_failed he]
    simp

theorem invalidateAll_port (ps : List Primitive) (s : State) :
    (invalidateAll ps s).cmd = s.cmd ∧ (invalidateAll ps s).inbox = s.inbox ∧
      (invalidateAll ps s).answers = s.answers := by
  induction ps generalizing s with
  | nil => exact ⟨rfl, rfl, rfl⟩
  | cons p ps ih => simpa [invalidateAll] using ih (invalidate p s)

/-- No command touches its own word or the port: those are the step's. -/
theorem runStages_port (ps : List Primitive) (s : State) :
    (runStages ps s).cmd = s.cmd ∧ (runStages ps s).inbox = s.inbox ∧ (runStages ps s).answers = s.answers := by
  induction ps generalizing s with
  | nil => exact ⟨rfl, rfl, rfl⟩
  | cons p ps ih =>
    have hp := runStage_port p s
    rcases runStages_cons p ps s with ⟨s', h, e⟩ | ⟨s', h, e⟩ <;> rw [e] <;> rw [h] at hp
    · exact ⟨(ih s').1.trans hp.1, (ih s').2.1.trans hp.2.1, (ih s').2.2.trans hp.2.2⟩
    · have hi := invalidateAll_port ps s'
      exact ⟨hi.1.trans hp.1, hi.2.1.trans hp.2.1, hi.2.2.trans hp.2.2⟩

/-- Invalidation of the later stages leaves the failure registers and all spaces but CODELEN alone. -/
theorem invalidateAll_registers (ps : List Primitive) (s : State) :
    (invalidateAll ps s).err = s.err ∧ (invalidateAll ps s).errstage = s.errstage ∧
      (invalidateAll ps s).errinfo = s.errinfo ∧ (invalidateAll ps s).esticky = s.esticky ∧
      (invalidateAll ps s).tlen = s.tlen := by
  induction ps generalizing s with
  | nil => exact ⟨rfl, rfl, rfl, rfl, rfl⟩
  | cons p ps ih => simpa [invalidateAll] using ih (invalidate p s)

theorem invalidateAll_spaces (ps : List Primitive) (s : State) :
    (invalidateAll ps s).text = s.text ∧ (invalidateAll ps s).freq = s.freq ∧ (invalidateAll ps s).node = s.node ∧
      (invalidateAll ps s).codebits = s.codebits ∧ (invalidateAll ps s).bits = s.bits ∧
      (invalidateAll ps s).packed = s.packed ∧ (invalidateAll ps s).out = s.out := by
  induction ps generalizing s with
  | nil => exact ⟨rfl, rfl, rfl, rfl, rfl, rfl, rfl⟩
  | cons p ps ih => simpa [invalidateAll] using ih (invalidate p s)

end Sys2Proof.Machine
end

