-- ==== Sys2Proof/Laws/Step.lean ====
section
/-! SUPPORT. What a step can do, said once (00_scope.md R19): nothing waits, reset, a command, another access. -/

namespace Sys2Proof.Machine

theorem step_idle {s : State} (h : s.inbox = []) : step s = .next s := by simp [step, h]

theorem step_reset {s : State} {rest : List Event} (h : s.inbox = .reset :: rest) :
    step s = .next { State.reset with inbox := rest, answers := s.answers } := by simp [step, h, resetBlock]

theorem step_transaction {s : State} {t : Transaction} {rest : List Event} (h : s.inbox = .transaction t :: rest) :
    step s = transact t { s with inbox := rest } := by simp [step, h]

/-- The access that starts no command: a bus error, a write of one element, or a read (R62, R63, R66). -/
theorem access_cases (t : Transaction) (s : State) :
    (busError t = true ∧ access t s = answer busErrorAnswer s) ∨
    (∃ sp, spaceOf t.space = some sp ∧ busError t = false ∧
      ((t.we = true ∧ access t s = answer writeDone (writeElement s sp t.index.toNat t.wdata)) ∨
       (t.we = false ∧ access t s = answer (readDone (readElement s sp t.index.toNat)) s))) := by
  cases hb : busError t with
  | true => exact .inl ⟨rfl, by simp [access, hb]⟩
  | false =>
    cases hs : spaceOf t.space with
    | none => simp [busError, hs] at hb
    | some sp =>
      refine .inr ⟨sp, rfl, rfl, ?_⟩
      cases hw : t.we with
      | true => exact .inl ⟨rfl, by simp [access, hb, hs, hw]⟩
      | false => exact .inr ⟨rfl, by simp [access, hb, hs, hw]⟩

/-- A command word that is written runs its command or fails as illegal, and the write is answered (R97, R110). -/
theorem transact_command {t : Transaction} (h : startsCommand t = true) (s : State) :
    (∃ i, decode (commandWord t) = .ok i ∧ transact t s =
      .next (answer writeDone (runStages (stagesOf i) (startCommand (commandWord t) s)))) ∨
    (∃ e, decode (commandWord t) = .error e ∧ transact t s =
      .next (answer writeDone (illegalCommand (commandWord t) (startCommand (commandWord t) s)))) := by
  cases hd : decode (commandWord t) with
  | ok i => exact .inl ⟨i, rfl, by simp [transact, h, runCommand, hd, exec_eq_runStages, answerCommand]⟩
  | error e => exact .inr ⟨e, rfl, by simp [transact, h, runCommand, hd, answerCommand]⟩

theorem transact_access {t : Transaction} (h : startsCommand t = false) (s : State) :
    transact t s = .next (access t s) := by simp [transact, h]

/-- The ways a step goes. -/
theorem step_cases {s s' : State} (h : step s = .next s') :
    (s.inbox = [] ∧ s' = s) ∨
    (∃ rest, s.inbox = .reset :: rest ∧ s' = { State.reset with inbox := rest, answers := s.answers }) ∨
    (∃ t rest i, s.inbox = .transaction t :: rest ∧ startsCommand t = true ∧ decode (commandWord t) = .ok i ∧
      s' = answer writeDone (runStages (stagesOf i) (startCommand (commandWord t) { s with inbox := rest }))) ∨
    (∃ t rest e, s.inbox = .transaction t :: rest ∧ startsCommand t = true ∧ decode (commandWord t) = .error e ∧
      s' = answer writeDone (illegalCommand (commandWord t) (startCommand (commandWord t) { s with inbox := rest }))) ∨
    (∃ t rest, s.inbox = .transaction t :: rest ∧ startsCommand t = false ∧
      s' = access t { s with inbox := rest }) := by
  cases hi : s.inbox with
  | nil => rw [step_idle hi] at h; cases h; exact .inl ⟨rfl, rfl⟩
  | cons ev rest =>
    cases ev with
    | reset => rw [step_reset hi] at h; cases h; exact .inr (.inl ⟨rest, rfl, rfl⟩)
    | transaction t =>
      rw [step_transaction hi] at h
      cases hc : startsCommand t with
      | false =>
        rw [transact_access hc] at h; cases h
        exact .inr (.inr (.inr (.inr ⟨t, rest, rfl, hc, rfl⟩)))
      | true =>
        rcases transact_command hc { s with inbox := rest } with ⟨i, hd, e⟩ | ⟨er, hd, e⟩ <;> rw [e] at h <;> cases h
        · exact .inr (.inr (.inl ⟨t, rest, i, rfl, hc, hd, rfl⟩))
        · exact .inr (.inr (.inr (.inl ⟨t, rest, er, rfl, hc, hd, rfl⟩)))

end Sys2Proof.Machine
end

