-- ==== Sys2Proof/Tests/Slice0.lean ====
section
/-! SUPPORT. The model's own tests: the expected values are those of 95_test_vectors.md (the vector stands in each
docstring) or the words of 30_encoding.md R93; then, for every statement with hypotheses, a named witness that meets
all of them. -/

namespace Sys2Proof.Tests

open Sys2Proof.Machine

/-! ## Well-formedness -/

/-- RSV not zero is refused (R92). -/
theorem test_wf_rsv : (CommandWord.mk 1#28 13#4).rsvClear = false ∧ (CommandWord.mk 1#28 13#4).wellFormed = false := by
  decide

/-- The reserved opcodes 14 and 15 are refused, 13 is not (R96). -/
theorem test_wf_opc : (CommandWord.mk 0#28 14#4).opcDefined = false ∧ (CommandWord.mk 0#28 15#4).wellFormed = false ∧
    (CommandWord.mk 0#28 13#4).wellFormed = true := by decide

set_option maxRecDepth 4000 in
/-- A table entry for symbol 256, with an empty code, or with a code of 256 bits is refused (R83). -/
theorem test_wf_entry : entrySymbolFits 256 = false ∧ entryCodeNonempty [] = false ∧
    entryCodeFits (List.replicate 256 true) = false ∧ entryWellFormed (256, [true]) = false ∧
    entryWellFormed (255, []) = false ∧ entryWellFormed (255, List.replicate 256 false) = false ∧
    entryWellFormed (255, List.replicate 255 false) = true := by decide

/-! ## Decoding: each word written out from R90 and R93 -/

theorem test_decode_nop : decode 0b00000000000000000000000000000000#32 = .ok .nop := by decide
theorem test_decode_clr : decode 0b00000000000000000000000000000001#32 = .ok .clr := by decide
theorem test_decode_count : decode 0b00000000000000000000000000000010#32 = .ok .count := by decide
theorem test_decode_build : decode 0b00000000000000000000000000000011#32 = .ok .build := by decide
theorem test_decode_gen : decode 0b00000000000000000000000000000100#32 = .ok .gen := by decide
theorem test_decode_map : decode 0b00000000000000000000000000000101#32 = .ok .map := by decide
theorem test_decode_pad : decode 0b00000000000000000000000000000110#32 = .ok .pad := by decide
theorem test_decode_pack : decode 0b00000000000000000000000000000111#32 = .ok .pack := by decide
theorem test_decode_expand : decode 0b00000000000000000000000000001000#32 = .ok .expand := by decide
theorem test_decode_strip : decode 0b00000000000000000000000000001001#32 = .ok .strip := by decide
theorem test_decode_match : decode 0b00000000000000000000000000001010#32 = .ok .matchCodes := by decide
theorem test_decode_enc : decode 0b00000000000000000000000000001011#32 = .ok .enc := by decide
theorem test_decode_dec : decode 0b00000000000000000000000000001100#32 = .ok .dec := by decide
theorem test_decode_compress : decode 0b00000000000000000000000000001101#32 = .ok .compress := by decide

/-- The words of V-CTL-3 to V-CTL-6 are illegal. -/
theorem test_decode_illegal : decode 0x0000000E#32 = .error .reservedOpcode ∧
    decode 0x00000010#32 = .error .reservedBits ∧ decode 0x80000003#32 = .error .reservedBits ∧
    decode 0xFFFFFFFF#32 = .error .reservedBits := by decide

/-- The table's words by the host's two entries. -/
theorem test_table_words : decodeTableWord 32 13 = some .compress ∧ decodeTableWord 32 14 = none ∧
    decodeTableWord 32 0x1D = none := by decide

/-! ## Helpers -/

/-- The outcome is a next state that passes a check. -/
def nextIs (o : Host.Outcome State Fault Refusal) (f : State → Bool) : Bool :=
  match o with
  | .next s => f s
  | .fault _ => false
  | .refused _ => false

/-- The next state, if the outcome is one. -/
def nextState (o : Host.Outcome State Fault Refusal) : Option State :=
  match o with
  | .next s => some s
  | .fault _ => none
  | .refused _ => none

/-- A state with transactions waiting at the port. -/
def waiting (s : State) (ts : List Transaction) : State := { s with inbox := eventsOf ts }

/-- The reset state with the code table of V-GEN-1. -/
def tableS : State :=
  { State.reset with
    codelen := [(97, 1), (98, 3), (99, 3), (100, 3), (114, 3)]
    codebits := [(98, 3), (99, 1), (100, 5), (114, 7)] }

/-- Registers of a failure. -/
def failedWith (s : State) (err stage : BitVec 4) (info : Word) : Bool :=
  decide (s.err = err ∧ s.errstage = stage ∧ s.errinfo = info ∧ s.esticky = 1#1)

/-! ## One step per command -/

/-- V-CTL-1. -/
theorem test_nop : nextState (step (waiting { State.reset with
      cmd := 3, err := 1, errstage := 3, esticky := 1 } (cmdScript .nop))) =
    some { State.reset with esticky := 1, answers := [⟨false, 0⟩] } := by decide

/-- V-CTL-2, on a small state. -/
theorem test_clr : nextState (exec .clr { State.reset with
      cmd := 1, err := 2, tlen := 3, text := [(0, 97)], node := [(8, .leaf 1 1)],
      bits := [(1, true)], out := [(0, 97)], nnodes := 9, root := 8 }) =
    some { State.reset with cmd := 1 } := by decide

/-- V-COUNT-2. -/
theorem test_count : nextIs (exec .count { State.reset with
      freq := [(5, 9), (200, 9)], text := [(1, 0x7F), (2, 0x80), (3, 0xFF), (4, 0x7F)], tlen := 7 })
    (fun s => s.freq == [(0, 3), (127, 2)] && s.err == 0) = true := by decide

/-- V-COUNT-5. -/
theorem test_count_length : nextIs (exec .count { State.reset with text := [(0, 0x61), (1, 0x62), (2, 0x63)], tlen := 2 })
    (fun s => s.freq == [(97, 1), (98, 1)]) = true := by decide

/-- V-BUILD-7: node 2 and node 5 have the frequency 2, the lower index goes first. -/
theorem test_build_tie : nextIs (exec .build { State.reset with freq := [(65, 1), (66, 1), (67, 2), (68, 3), (69, 5)] })
    (fun s => s.node == [(0, .leaf 65 1), (1, .leaf 66 1), (2, .leaf 67 2), (3, .leaf 68 3), (4, .leaf 69 5),
        (5, .internal 2 0 1), (6, .internal 4 2 5), (7, .internal 7 3 6), (8, .internal 12 4 7)] &&
      s.nnodes == 9 && s.root == 8) = true := by decide

/-- V-BUILD-9: the sum needs 33 bits. -/
theorem test_build_exact : nextIs (exec .build { State.reset with freq := [(0, 0xFFFFFFFF), (1, 0xFFFFFFFF)] })
    (fun s => nodeBits (s.node.read Node.zero 2) == 0xFFFFFFFF0040001 && s.nnodes == 3 && s.root == 2) = true := by decide

/-- V-GEN-8, on the tree of V-BUILD-10. -/
theorem test_gen : nextIs (exec .gen { State.reset with
      node := [(0, .leaf 105 4), (1, .leaf 109 1), (2, .leaf 112 2), (3, .leaf 115 4), (4, .internal 3 1 2),
        (5, .internal 7 4 0), (6, .internal 11 3 5)], nnodes := 7, root := 6, codelen := [(1, 9)] })
    (fun s => s.codelen == [(105, 2), (109, 3), (112, 3), (115, 1)] &&
      s.codebits == [(105, 3), (109, 1), (112, 5)]) = true := by decide

/-- V-GEN-9. -/
theorem test_gen_no_tree : nextIs (exec .gen { State.reset with codelen := [(97, 1)], codebits := [(97, 1)] })
    (fun s => failedWith s 6 4 0 && s.codelen == [] && s.codebits == [(97, 1)]) = true := by decide

/-- V-MAP-2. -/
theorem test_map : nextIs (exec .map { tableS with
      text := [(0, 0x61), (1, 0xC8), (2, 0x62), (3, 0xFF), (4, 0x72), (5, 0x7A), (6, 0x61)], tlen := 7 })
    (fun s => bitSequence s == [false, true, true, false, true, true, true, false] && s.err == 0) = true := by decide

/-- V-MAP-4: only bit 0 of each element counts. -/
theorem test_map_high_bits : nextIs (exec .map { State.reset with
      codelen := [(97, 1), (98, 1)],
      codebits := [(97, 0xFE), (98, 0xFF)], text := [(0, 97), (1, 98), (2, 98), (3, 97)], tlen := 4 })
    (fun s => bitSequence s == [false, true, true, false]) = true := by decide

/-- V-PAD-5, over bits left above the length. -/
theorem test_pad_aligned : nextIs (exec .pad { State.reset with bits := [(9, true), (16, true)], blen := 8 })
    (fun s => s.bits == [(8, true), (16, true)] && s.blen == 16) = true := by decide

/-- V-PAD-4. -/
theorem test_pad_one : nextIs (exec .pad { State.reset with blen := 7 })
    (fun s => s.bits == [(7, true)] && s.blen == 8) = true := by decide

/-- V-PACK-1. -/
theorem test_pack_unaligned : nextIs (exec .pack { State.reset with
      bits := [(1, true), (2, true)], blen := 4,
      packed := [(0, 0xAA)], plen := 1 })
    (fun s => failedWith s 5 7 4 && s.plen == 0 && s.packed == [(0, 0xAA)] && s.blen == 4) = true := by decide

/-- V-PACK-4. -/
theorem test_pack : nextIs (exec .pack { State.reset with
      blen := 16,
      bits := [(1, true), (2, true), (4, true), (5, true), (6, true), (8, true), (12, true), (14, true)] })
    (fun s => s.packed == [(0, 0x6E), (1, 0x8A)] && s.plen == 2) = true := by decide

/-- V-EXP-2. -/
theorem test_expand : nextIs (exec .expand { State.reset with packed := [(0, 0x05)], plen := 1 })
    (fun s => s.bits == [(5, true), (7, true)] && s.blen == 8) = true := by decide

/-- V-STRIP-5. -/
theorem test_strip : nextIs (exec .strip { State.reset with
      bits := [(1, true), (2, true), (4, true), (8, true)], blen := 16 })
    (fun s => s.blen == 8 && s.bits == [(1, true), (2, true), (4, true), (8, true)]) = true := by decide

/-- V-STRIP-7, with a 1 above the length. -/
theorem test_strip_none : nextIs (exec .strip { State.reset with bits := [(8, true)], blen := 8 })
    (fun s => failedWith s 3 9 8 && s.blen == 8) = true := by decide

/-- V-MATCH-7: equal codes, and a code that starts another. -/
theorem test_match_duplicates : nextIs (exec .matchCodes { State.reset with
      codelen := [(65, 1), (66, 1), (67, 2), (68, 1)], codebits := [(67, 1), (68, 1)],
      bits := [(1, true), (4, true), (5, true)], blen := 7 })
    (fun s => outSymbols s == [65, 68, 65, 65, 68, 68, 65]) = true := by decide

/-- V-MATCH-5. -/
theorem test_match_dangling : nextIs (exec .matchCodes { tableS with
      bits := [(1, true), (2, true), (4, true), (5, true), (6, true), (8, true), (12, true), (14, true), (16, true),
        (17, true), (19, true), (20, true)], blen := 21 })
    (fun s => failedWith s 2 10 19 && s.olen == 0 && s.out == []) = true := by decide

/-- V-ENC-3. -/
theorem test_enc : nextIs (exec .enc { tableS with
      text := [(0, 0x61), (1, 0xC8), (2, 0x62), (3, 0xFF), (4, 0x72), (5, 0x7A), (6, 0x61)], tlen := 7 })
    (fun s => packedBytes s == [0x6E, 0x80] && s.blen == 16) = true := by decide

/-- V-DEC-1. -/
theorem test_dec : nextIs (exec .dec { tableS with packed := [(0, 0x6E), (1, 0x8A), (2, 0xDD)], plen := 3 })
    (fun s => outSymbols s == [97, 98, 114, 97, 99, 97, 100, 97, 98, 114, 97] && s.blen == 23 && s.err == 0) = true := by
  decide

/-- V-DEC-4. -/
theorem test_dec_dangling : nextIs (exec .dec { tableS with packed := [(0, 0x6E), (1, 0x8A), (2, 0xDC)], plen := 3 })
    (fun s => failedWith s 2 10 19 && s.olen == 0 && s.blen == 21) = true := by decide

/-- V-ENC-6. -/
theorem test_compress : nextIs (exec .compress { State.reset with text := [(0, 97), (1, 97), (2, 98)], tlen := 3 })
    (fun s => packedBytes s == [0xD0] && s.codelen == [(97, 1), (98, 1)] && s.codebits == [(97, 1)] &&
      s.nnodes == 3) = true := by decide

/-- V-ENC-12: the later stages are invalidated. -/
theorem test_compress_empty : nextIs (exec .compress { tableS with
      text := [(0, 0x80), (1, 0xC8), (2, 0xFF)], tlen := 3, nnodes := 1, plen := 4, blen := 32 })
    (fun s => failedWith s 1 3 0 && s.codelen == [] && s.nnodes == 0 && s.plen == 0 && s.blen == 0) = true := by decide

/-! ## The port -/

/-- V-BUS-7 and V-BUS-1. -/
theorem test_bus_read : nextIs (step (waiting State.reset [rd .node 511])) (fun s => s.answers == [⟨true, 0⟩]) = true ∧
    nextIs (step (waiting State.reset [rdCsr .id])) (fun s => s.answers == [⟨false, 0x48554631⟩]) = true := by decide

/-- V-BUS-11 and V-BUS-3. -/
theorem test_bus_write :
    nextState (step (waiting State.reset [wr .text 3 0x1FF])) = some { State.reset with text := [(3, 0xFF)], answers := [⟨false, 0⟩] } ∧
    nextState (step (waiting State.reset [wrCsr .tlen 65537])) = some { State.reset with answers := [⟨true, 0⟩] } := by decide

/-- V-CTL-5: the illegal word is stored and named, and its command is not run. -/
theorem test_illegal : nextState (step (waiting State.reset [wrCsr .cmd 0x80000003])) =
    some { State.reset with
      cmd := 0x80000003, err := 7, errstage := 3, errinfo := 0x80000003, esticky := 1, answers := [⟨false, 0⟩] } := by decide

/-- V-CTL-7 and V-CTL-8. -/
theorem test_sticky :
    nextIs (step (waiting { State.reset with esticky := 1 } [wrCsr .esticky 0])) (fun s => s.esticky == 1) = true ∧
    nextIs (step (waiting { State.reset with esticky := 1 } [wrCsr .esticky 1])) (fun s => s.esticky == 0) = true := by
  decide

/-- The word placed for the next step runs: PAD on the empty sequence (V-PAD-1). -/
theorem test_fetch_word : nextIs (step (State.reset.withFetchWord 32 6))
    (fun s => s.bits == [(0, true)] && s.blen == 8 && s.cmd == 6) = true := by decide

/-- V-GEN-1, the table line (S4), and what a reader makes of it. -/
theorem test_table_line : String.ofList (tableLine tableS) = "97:0-98:110-99:100-100:101-114:111" := by decide

/-- A malformed piece is skipped or ends the load (R83). -/
theorem test_read_line :
    readEntries .skipEntry " 97:0-98:1x-256:1-99:10\n".toList = some [(97, [false]), (99, [true, false])] ∧
    readEntries .rejectLoad "97:0-98:1x".toList = none := by decide

/-- A first token that is no decimal number at all (R83): letters, nothing, a sign alone, a misplaced
sign, a number too great. -/
theorem test_no_symbol : ∀ piece ∈ ["abc:0", ":0", "+:0", "9a:0", "1+2:0", "++1:0", "256:0"],
    parseEntry piece.toList = none := by decide

/-- The empty table and the empty line (the model's choice, log entry 18). -/
theorem test_empty_line : tableLine State.reset = [] ∧ readEntries .skipEntry [] = some [] ∧
    readEntries .rejectLoad [] = none := by decide

/-! ## Witnesses: the states they use -/

/-- Symbol 0 has the code `0`; no other symbol is in the table. -/
def zeroS : State := { State.reset with codelen := [(0, 1)] }

/-- A text of 65536 symbols: the first is symbol 1 with a code of `k` bits, the others symbol 0 with 8 bits. -/
def fullS (k : Byte) : State :=
  { State.reset with text := [(0, 1)], tlen := 65536, codelen := if k = 0 then [(0, 8)] else [(0, 8), (1, k)] }

/-- The tree of V-BUILD-3, made by BUILD from two `a` and one `b`. -/
def treeS : State :=
  { State.reset with
    freq := [(97, 2), (98, 1)], node := [(0, .leaf 97 2), (1, .leaf 98 1), (2, .internal 3 1 0)], nnodes := 3, root := 2 }

/-- A tree of one node (V-BUILD-2). -/
def leafS : State := { State.reset with node := [(0, .leaf 97 4)], nnodes := 1 }

/-- The text "a". -/
def textA : State := { State.reset with text := [(0, 97)], tlen := 1 }

/-- A write to `CSR.CMD` of any 256 bits waits. -/
def cmdWaits (s : State) (wdata : PortData) : State := { s with inbox := [.transaction ⟨true, 0#4, 1#32, wdata⟩] }

/-- A transaction waits at the reset state. -/
def waits (we : Bool) (space index wdata : Nat) : State :=
  { State.reset with
    inbox := [.transaction ⟨we, BitVec.ofNat 4 space, BitVec.ofNat 32 index, BitVec.ofNat 256 wdata⟩] }

theorem exec_next (i : Instr) (s : State) : ∃ t, exec i s = .next t := ⟨_, exec_eq_runStages i s⟩

theorem step_next (s : State) : ∃ t, step s = .next t := by
  cases hi : s.inbox with
  | nil => exact ⟨_, step_idle hi⟩
  | cons ev rest =>
    cases ev with
    | reset => exact ⟨_, step_reset hi⟩
    | transaction t =>
      rw [step_transaction hi]
      cases hc : startsCommand t with
      | false => exact ⟨_, transact_access hc _⟩
      | true => rcases transact_command hc { s with inbox := rest } with ⟨_, -, e⟩ | ⟨_, -, e⟩ <;> exact ⟨_, e⟩

theorem zeroS_only (a : Byte) (h : InTable zeroS a) : a = 0#8 := by
  revert a; unfold InTable; decide

theorem zeroS_prefixFree : PrefixFree zeroS :=
  fun a b hab ha hb _ => hab ((zeroS_only a ha).trans (zeroS_only b hb).symm)

theorem sum_map_const {n c : Nat} {f : Nat → Nat} (h : ∀ i < n, f i = c) : ((List.range n).map f).sum = n * c := by
  rw [List.map_congr_left (g := fun _ => c) (by simpa using h)]
  simp

/-- The payload length of `fullS k`, as the offset of the end of the text. -/
theorem fullS_offset (k : Byte) :
    ((List.range (fullS k).tlen.toNat).map fun i => codeLength (fullS k) ((fullS k).text.read 0#8 i)).sum =
      524280 + k.toNat := by
  have h0 : codeLength (fullS k) 1#8 = k.toNat := by
    revert k; unfold fullS codeLength; decide
  have h1 : codeLength (fullS k) 0#8 = 8 := by
    by_cases hk : k = 0#8 <;> simp [fullS, codeLength, hk, Mem.read]
  show ((List.range (65535 + 1)).map fun i => codeLength (fullS k) (Mem.read 0#8 [(0, 1#8)] i)).sum = _
  rw [List.range_succ_eq_map, List.map_cons, List.sum_cons, List.map_map,
    sum_map_const (c := 8) (fun i _ => by simpa [Mem.read] using h1)]
  simp only [Mem.read, if_true, h0]
  omega

theorem fullS_payload (k : Byte) : ((textSymbols (fullS k)).map (codeLength (fullS k))).sum = 524280 + k.toNat := by
  have h := fullS_offset k
  simpa [textSymbols, Mem.slice, Function.comp_def] using h

theorem treeS_inv : treeS.TreeInvariant := by
  refine ⟨fun h => absurd h (by decide), fun _ => ⟨by decide, by decide, by decide, ?_, ?_, ?_, ?_, ?_⟩⟩
  · intro i hi
    have : i < 2 := hi
    interval_cases i
    · exact ⟨97, 2, rfl⟩
    · exact ⟨98, 1, rfl⟩
  · intro i j sym sym' f f' hij hj h1 h2
    have : j < 2 := hj
    obtain ⟨rfl, rfl⟩ : i = 0 ∧ j = 1 := by omega
    cases h1; cases h2; decide
  · intro i h1 h2
    have h1 : 2 ≤ i := h1
    have h2 : i < 3 := h2
    obtain rfl : i = 2 := by omega
    exact ⟨3, 1, 0, rfl, by decide⟩
  · intro j hj
    have : j < 2 := hj
    have own : ∀ i' < 3, ∀ j, isParent treeS.node i' j → i' = 2 := by
      intro i' hi' j ⟨f, l, r, h, _⟩
      interval_cases i'
      · exact absurd h (by simp [treeS, Mem.read])
      · exact absurd h (by simp [treeS, Mem.read])
      · rfl
    refine ⟨2, ⟨by decide, 3, 1, 0, rfl, ?_⟩, fun i' hi' hp => own i' hi' j hp⟩
    interval_cases j <;> decide
  · rintro i hi ⟨f, l, r, h, hlr⟩
    have : i < 3 := hi
    interval_cases i
    · exact absurd h (by simp [treeS, Mem.read])
    · exact absurd h (by simp [treeS, Mem.read])
    · cases h; revert hlr; decide

theorem leafS_inv : leafS.TreeInvariant := by
  refine ⟨fun h => absurd h (by decide), fun _ => ⟨by decide, by decide, by decide, ?_, ?_, ?_, ?_, ?_⟩⟩
  · intro i hi
    have : i < 1 := hi
    interval_cases i
    exact ⟨97, 4, rfl⟩
  · intro i j sym sym' f f' hij hj _ _
    have : j < 1 := hj
    omega
  · intro i h1 h2
    have h1 : 1 ≤ i := h1
    have h2 : i < 1 := h2
    omega
  · intro j hj
    have : j < 0 := hj
    omega
  · rintro i hi ⟨f, l, r, h, -⟩
    have : i < 1 := hi
    interval_cases i
    exact absurd h (by simp [leafS, Mem.read])

theorem waits_canonical (we : Bool) (space index wdata : Nat) : (waits we space index wdata).SpacesCanonical := by
  simp [waits, State.reset, State.SpacesCanonical, Mem.Wf, Mem.Below]

/-! ## Witnesses: one for every statement with hypotheses -/

theorem witness_IllegalWordsAreTheReservedOnes : ∃ (w : Word) (i : Instr), decode w = .ok i :=
  ⟨13#32, .compress, by decide⟩

theorem witness_DecodeAndEncodeAgree : ∃ i : Instr, i.wellFormed = true := ⟨.compress, rfl⟩

/-- A legal word with bits above bit 31, the least illegal word, and the least word with a reserved bit. -/
theorem witness_CommandWriteRunsTheDecodedCommand :
    (∃ (s : State) (wdata : PortData) (rest : List Event) (w : Word) (i : Instr) (t : State),
      s.inbox = .transaction ⟨true, 0#4, 1#32, wdata⟩ :: rest ∧ w = wdata.setWidth 32 ∧ decode w = .ok i ∧
      exec i { s with inbox := rest, cmd := w, err := 0#4, errstage := 0#4, errinfo := 0#32 } = .next t) ∧
    ∀ n ∈ [14, 16], ∃ (s : State) (wdata : PortData) (rest : List Event) (w : Word) (e : DecodeError),
      s.inbox = .transaction ⟨true, 0#4, 1#32, wdata⟩ :: rest ∧ w = wdata.setWidth 32 ∧ w.toNat = n ∧
      decode w = .error e := by
  refine ⟨⟨cmdWaits State.reset 0x10000000D#256, _, _, 13#32, .compress, _, rfl, by decide, by decide,
    exec_eq_runStages _ _⟩, fun n hn => ?_⟩
  simp only [List.mem_cons, List.not_mem_nil, or_false] at hn
  rcases hn with rfl | rfl
  · exact ⟨cmdWaits State.reset 14#256, _, _, 14#32, .reservedOpcode, rfl, by decide, rfl, by decide⟩
  · exact ⟨cmdWaits State.reset 16#256, _, _, 16#32, .reservedBits, rfl, by decide, rfl, by decide⟩

theorem witness_FetchWordRunsItsCommand : ∃ (s t : State) (i : Instr),
    exec i { s with cmd := encode i, err := 0#4, errstage := 0#4, errinfo := 0#32 } = .next t :=
  ⟨textA, _, .compress, exec_eq_runStages _ _⟩

theorem witness_IdleAndResetSteps : (∃ s : State, s.inbox = []) ∧
    ∃ (s : State) (rest : List Event), s.inbox = .reset :: rest :=
  ⟨⟨textA, rfl⟩, { textA with inbox := [.reset] }, [], rfl⟩

/-- Each of the four cases at its first value, and the last value that is no bus error. -/
theorem witness_BusErrorsAreTheFourCases :
    (∀ p ∈ [(0, 15), (1, 65535), (2, 255), (3, 510), (4, 255), (5, 255), (6, 524287), (7, 65535), (8, 65535)],
      nextIs (step (waits false p.1 p.2 0)) (fun t => t.answers.all fun a => !a.err) = true ∧
      nextIs (step (waits false p.1 (p.2 + 1) 0)) (fun t => t.answers.all Answer.err) = true) ∧
    (∀ q ∈ [(9, 0, 0), (15, 0, 0), (3, 0, 1), (8, 0, 1), (0, 0, 1), (0, 15, 1), (0, 6, 65537), (0, 7, 524289),
        (0, 8, 65537)], nextIs (step (waits true q.1 q.2.1 q.2.2)) (fun t => t.answers.all Answer.err) = true) ∧
    ∀ q ∈ [(0, 5, 3), (0, 6, 65536), (0, 7, 524288), (0, 8, 65536), (2, 255, 4294967295)],
      nextIs (step (waits true q.1 q.2.1 q.2.2)) (fun t => t.answers.all fun a => !a.err) = true := by decide

/-- The last element of every space. -/
theorem witness_ReadsAnswerTheElementAndChangeNothing :
    ∀ p ∈ [(0, 15), (1, 65535), (2, 255), (3, 510), (4, 255), (5, 255), (6, 524287), (7, 65535), (8, 65535)],
      ∃ (s : State) (space : BitVec 4) (index : BitVec 32) (wdata : PortData) (rest : List Event),
        s.inbox = .transaction ⟨false, space, index, wdata⟩ :: rest ∧ space.toNat = p.1 ∧ index.toNat = p.2 ∧
        index.toNat < [16, 65536, 256, 511, 256, 256, 524288, 65536, 65536].getD space.toNat 0 := by
  intro p hp
  refine ⟨waits false p.1 p.2 0, _, _, _, _, rfl, ?_⟩
  revert p; decide

/-- The last element of every writable data space. -/
theorem witness_WritesStoreOneElement :
    ∀ p ∈ [(1, 65535), (2, 255), (4, 255), (5, 255), (6, 524287), (7, 65535)],
      ∃ (s : State) (space : BitVec 4) (index : BitVec 32) (wdata : PortData) (rest : List Event),
        s.SpacesCanonical ∧ s.inbox = .transaction ⟨true, space, index, wdata⟩ :: rest ∧ space.toNat = p.1 ∧
        index.toNat = p.2 ∧ index.toNat < [16, 65536, 256, 511, 256, 256, 524288, 65536, 65536].getD space.toNat 0 := by
  intro p hp
  refine ⟨waits true p.1 p.2 7, _, _, _, _, waits_canonical _ _ _ _, rfl, ?_⟩
  revert p; decide

theorem witness_RegisterWritesStoreOrClear :
    (∀ p ∈ [(6, 65536), (7, 524288), (8, 65536), (5, 1), (5, 2)], ∃ (s : State) (index : BitVec 32) (wdata : PortData)
      (rest : List Event), s.inbox = .transaction ⟨true, 0#4, index, wdata⟩ :: rest ∧ index.toNat = p.1 ∧
      wdata.toNat % 2 ^ 32 = p.2) := by
  intro p hp
  refine ⟨waits true 0 p.1 p.2, _, _, _, rfl, ?_⟩
  revert p; decide

theorem witness_StepKeepsSpacesAndLengths : ∃ s s' : State, s.LengthsInRange ∧ s.SpacesCanonical ∧ step s = .next s' := by
  obtain ⟨t, ht⟩ := step_next (waits true 1 65535 7)
  refine ⟨_, t, ?_, waits_canonical _ _ _ _, ht⟩
  unfold State.LengthsInRange; decide

theorem witness_StepKeepsTreeInvariant : ∃ s s' : State, s.TreeInvariant ∧ s.nnodes ≠ 0#10 ∧ step s = .next s' := by
  obtain ⟨t, ht⟩ := step_next (cmdWaits treeS 4#256)
  exact ⟨cmdWaits treeS 4#256, t, treeS_inv, by decide, ht⟩

/-- The failure registers after V-CTL-3, and a failing command next. -/
theorem witness_StepKeepsFailureRegistersInAgreement : ∃ s s' : State,
    s.FailureRegistersAgree ∧ s.err ≠ 0#4 ∧ step s = .next s' := by
  obtain ⟨t, ht⟩ := step_next (cmdWaits { State.reset with cmd := 14, err := 7, errstage := 14, errinfo := 14 } 3#256)
  refine ⟨_, t, ?_, by decide, ht⟩
  unfold State.FailureRegistersAgree; decide

theorem witness_StickyFlagIsSetByFailuresOnly :
    (∀ e ∈ [Event.reset, .transaction ⟨true, 0#4, 1#32, 1#256⟩, .transaction ⟨true, 0#4, 5#32, 1#256⟩],
      nextIs (step { State.reset with esticky := 1, inbox := [e] }) (fun t => t.esticky == 0#1) = true) ∧
    nextIs (step (cmdWaits State.reset 3#256)) (fun t => t.esticky == 1#1 && t.err == 1#4) = true := by decide

theorem witness_CommandsWriteOnlyTheirOperands : ∃ (i : Instr) (s t : State), exec i s = .next t :=
  ⟨.compress, textA, exec_next _ _⟩

/-- One run for every error code of every command that has one on a small state. -/
theorem witness_CommandsRaiseOnlyTheirFailures :
    (∃ (i : Instr) (s t : State), s.err = 0#4 ∧ exec i s = .next t) ∧
    nextIs (exec .build State.reset) (fun t => t.err == 1#4) = true ∧
    nextIs (exec .gen State.reset) (fun t => t.err == 6#4) = true ∧
    nextIs (exec .pad { State.reset with blen := 524288 }) (fun t => t.err == 4#4) = true ∧
    nextIs (exec .pack { State.reset with blen := 1 }) (fun t => t.err == 5#4) = true ∧
    nextIs (exec .strip State.reset) (fun t => t.err == 3#4) = true ∧
    nextIs (exec .matchCodes { State.reset with blen := 1 }) (fun t => t.err == 2#4) = true :=
  ⟨⟨.compress, textA, _, rfl, exec_eq_runStages _ _⟩, by decide⟩

theorem witness_FailingPrimitiveWritesNoSpace : ∃ (i : Instr) (s t : State),
    i ∉ [Instr.enc, .dec, .compress] ∧ s.err = 0#4 ∧ exec i s = .next t ∧ t.err ≠ 0#4 :=
  ⟨.gen, tableS, _, by decide, rfl, exec_eq_runStages _ _, by decide⟩

/-- MAP on a payload that does not fit fails. -/
theorem map_fullS_fails : (runStages [.map] (fullS 9)).err = 4#4 := by
  have hp : payloadLength (fullS 9) = 524289 := fullS_payload 9
  rw [runStages_single]
  show (stageMap (fullS 9)).state.err = _
  rw [stageMap, hp, if_pos (by decide)]
  rfl

/-- MAP on a payload that fills BITS completes. -/
theorem map_fullS_fills : (runStages [.map] (fullS 8)).err = 0#4 ∧ (runStages [.map] (fullS 8)).blen = 524288#32 := by
  have hp : payloadLength (fullS 8) = 524288 := fullS_payload 8
  rw [runStages_single]
  show (stageMap (fullS 8)).state.err = _ ∧ (stageMap (fullS 8)).state.blen = _
  rw [stageMap, hp, if_neg (by decide)]
  exact ⟨rfl, rfl⟩

/-- A failure in the first stage, a failure in the second, and none; for the three composites. -/
theorem witness_CompositesRunTheirStagesAndAbort :
    (∃ s s1 s2 : State, s.err = 0#4 ∧ exec .map s = .next s1 ∧ exec .pad s1 = .next s2 ∧ s1.err ≠ 0#4) ∧
    (∃ s s1 s2 : State, s.err = 0#4 ∧ exec .map s = .next s1 ∧ exec .pad s1 = .next s2 ∧ s1.err = 0#4 ∧ s2.err ≠ 0#4) ∧
    (∃ s s1 s2 : State, s.err = 0#4 ∧ exec .map s = .next s1 ∧ exec .pad s1 = .next s2 ∧ s1.err = 0#4 ∧ s2.err = 0#4) ∧
    (∃ s s1 s2 : State, s.err = 0#4 ∧ exec .expand s = .next s1 ∧ exec .strip s1 = .next s2 ∧ s2.err ≠ 0#4) ∧
    (∃ s s1 s2 : State, s.err = 0#4 ∧ exec .expand s = .next s1 ∧ exec .strip s1 = .next s2 ∧ s2.err = 0#4) ∧
    (∃ s s1 s2 s3 : State, s.err = 0#4 ∧ exec .count s = .next s1 ∧ exec .build s1 = .next s2 ∧
      exec .gen s2 = .next s3 ∧ s2.err ≠ 0#4) ∧
    ∃ s s1 s2 s3 : State, s.err = 0#4 ∧ exec .count s = .next s1 ∧ exec .build s1 = .next s2 ∧
      exec .gen s2 = .next s3 ∧ s2.err = 0#4 := by
  refine ⟨⟨fullS 9, _, _, rfl, exec_eq_runStages _ _, exec_eq_runStages _ _, ?_⟩,
    ⟨fullS 8, _, _, rfl, exec_eq_runStages _ _, exec_eq_runStages _ _, map_fullS_fills.1, ?_⟩,
    ⟨textA, _, _, rfl, exec_eq_runStages _ _, exec_eq_runStages _ _, by decide, by decide⟩,
    ⟨State.reset, _, _, rfl, exec_eq_runStages _ _, exec_eq_runStages _ _, by decide⟩,
    ⟨{ State.reset with packed := [(0, 0x80)], plen := 1 }, _, _, rfl, exec_eq_runStages _ _, exec_eq_runStages _ _,
      by decide⟩,
    ⟨State.reset, _, _, _, rfl, exec_eq_runStages _ _, exec_eq_runStages _ _, exec_eq_runStages _ _, by decide⟩,
    ⟨textA, _, _, _, rfl, exec_eq_runStages _ _, exec_eq_runStages _ _, exec_eq_runStages _ _, by decide⟩⟩
  · intro h
    exact absurd (map_fullS_fails.symm.trans h) (by decide)
  · show (runStages [.pad] (runStages [.map] (fullS 8))).err ≠ 0#4
    rw [runStages_single]
    show (stagePad (runStages [.map] (fullS 8))).state.err ≠ 0#4
    rw [stagePad, map_fullS_fills.2, if_pos (by decide)]
    show (4#4 : BitVec 4) ≠ 0#4
    decide

theorem witness_NopClearsTheErrorOnly : ∃ (s : State) (wdata : PortData) (rest : List Event),
    s.inbox = .transaction ⟨true, 0#4, 1#32, wdata⟩ :: rest ∧ wdata.setWidth 32 = 0#32 :=
  ⟨cmdWaits State.reset 0x100000000#256, _, _, rfl, by decide⟩

theorem witness_BuildRejectsTheEmptyTable : ∃ s : State, ∀ i < 256, s.freq.read 0#32 i = 0#32 :=
  ⟨leafS, fun _ _ => rfl⟩

theorem witness_BuildCombinesTheTwoLeastNodes : ∃ (s : State) (syms : List Nat), syms ≠ [] ∧ syms.Pairwise (· < ·) ∧
    (∀ i, i ∈ syms ↔ i < 256 ∧ s.freq.read 0#32 i ≠ 0#32) := by
  refine ⟨{ State.reset with freq := [(97, 2), (98, 1)] }, [97, 98], by decide, by decide, fun i => ?_⟩
  by_cases h1 : 97 = i
  · subst h1; decide
  · by_cases h2 : 98 = i
    · subst h2; decide
    · simp [Mem.read, h1, h2, Ne.symm h1, Ne.symm h2]

/-- Two symbols with unequal counts, BUILD and GEN run. -/
theorem witness_CountedTable : ∃ (s t u : State) (a b : Byte), (∃ i < 256, s.freq.read 0#32 i ≠ 0#32) ∧
    exec .build s = .next t ∧ exec .gen t = .next u ∧ s.freq.read 0#32 b.toNat ≠ 0#32 ∧
    (s.freq.read 0#32 b.toNat).toNat < (s.freq.read 0#32 a.toNat).toNat ∧ InTable u a ∧ t.nnodes.toNat ≠ 1 :=
  ⟨{ State.reset with freq := [(97, 2), (98, 1)] }, _, _, 97, 98, ⟨97, by decide, by decide⟩, exec_eq_runStages _ _,
    exec_eq_runStages _ _, by decide, by decide, by unfold InTable; decide, by decide⟩

theorem witness_BuildFrequenciesAreExactAndRising : ∃ s t : State,
    (∃ i < 256, s.freq.read 0#32 i ≠ 0#32) ∧ exec .build s = .next t := by
  obtain ⟨s, t, _, _, _, h, hb, _⟩ := witness_CountedTable
  exact ⟨s, t, h, hb⟩

/-- The higher index first, and the first extracted on the right: not the block's choice. -/
theorem witness_BuildIsSoundForEveryTieBreak : ∃ (tb : Config.TieBreak) (co : Config.ChildOrder) (s t : State),
    buildTree tb co s = .completed t := by
  refine ⟨fun i j => decide (j < i), .firstIsRight, { State.reset with freq := [(1, 1), (2, 1), (3, 1)] }, ?_⟩
  unfold buildTree
  exact ⟨_, if_neg (by decide)⟩

theorem witness_GenRejectsTheMissingTree : ∃ s : State, s.nnodes = 0#10 := ⟨tableS, rfl⟩

theorem witness_GenGivesASingleLeafOneBit : ∃ (s : State) (sym : Byte) (f : NodeFreq),
    s.nnodes ≠ 0#10 ∧ s.node.read Node.zero s.root.toNat = .leaf sym f := ⟨leafS, 97, 4, by decide, rfl⟩

theorem witness_GenRecordsThePathOfEveryLeaf : ∃ s : State, s.TreeInvariant ∧ 1 < s.nnodes.toNat :=
  ⟨treeS, treeS_inv, by decide⟩

theorem witness_GeneratedTableIsPrefixFree : ∃ s t : State,
    s.TreeInvariant ∧ s.nnodes ≠ 0#10 ∧ exec .gen s = .next t :=
  ⟨treeS, _, treeS_inv, by decide, exec_eq_runStages _ _⟩

/-- A symbol in the table of a tree of three nodes, and one in the table of a tree of one node. -/
theorem witness_TableCoversTheFrequencyTable :
    ∀ l ∈ [[(97, 2#32), (98, 1#32)], [(97, 4#32)]], ∃ (s t u : State) (sym : Byte), s.freq = l ∧
      (∃ i < 256, s.freq.read 0#32 i ≠ 0#32) ∧ exec .build s = .next t ∧ exec .gen t = .next u ∧ InTable u sym ∧
      t.nnodes.toNat = 2 * l.length - 1 := by
  intro l hl
  refine ⟨{ State.reset with freq := l }, _, _, 97, rfl, ?_, exec_eq_runStages _ _, exec_eq_runStages _ _, ?_⟩
  · exact ⟨97, by decide, by revert l; decide⟩
  · unfold InTable; revert l; decide

theorem witness_GeneratedTableIsFull :
    (∃ s t : State, s.TreeInvariant ∧ s.nnodes ≠ 0#10 ∧ exec .gen s = .next t ∧ 1 < s.nnodes.toNat) ∧
    ∃ s t : State, s.TreeInvariant ∧ s.nnodes ≠ 0#10 ∧ exec .gen s = .next t ∧ s.nnodes.toNat = 1 :=
  ⟨⟨treeS, _, treeS_inv, by decide, exec_eq_runStages _ _, by decide⟩,
    leafS, _, leafS_inv, by decide, exec_eq_runStages _ _, by decide⟩

theorem witness_MoreFrequentSymbolsGetNoLongerCodes : ∃ (s t u : State) (a b : Byte), exec .build s = .next t ∧
    exec .gen t = .next u ∧ s.freq.read 0#32 b.toNat ≠ 0#32 ∧
    (s.freq.read 0#32 b.toNat).toNat < (s.freq.read 0#32 a.toNat).toNat := by
  obtain ⟨s, t, u, a, b, -, hb, hg, h1, h2, -⟩ := witness_CountedTable
  exact ⟨s, t, u, a, b, hb, hg, h1, h2⟩

/-- A payload of exactly BITS_CAP bits, and one of one bit more. -/
theorem witness_MapConcatenatesTheCodes : ∀ P ∈ [524288, 524289], ∃ s : State, s.tlen.toNat ≤ 65536 ∧
    ((List.range s.tlen.toNat).map fun i => codeLength s (s.text.read 0#8 i)).sum = P := by
  intro P hP
  simp only [List.mem_cons, List.not_mem_nil, or_false] at hP
  rcases hP with rfl | rfl
  · exact ⟨fullS 8, by decide, fullS_offset 8⟩
  · exact ⟨fullS 9, by decide, fullS_offset 9⟩

theorem witness_PadAppendsTheSentinelAndZeros :
    (∃ s : State, s.blen.toNat + (8 - s.blen.toNat % 8) = 524288) ∧
    ∃ s : State, s.blen.toNat = 524288 ∧ 524288 < s.blen.toNat + (8 - s.blen.toNat % 8) :=
  ⟨⟨{ State.reset with blen := 524287 }, by decide⟩, { State.reset with blen := 524288 }, by decide⟩

theorem witness_PackMakesBytesFirstBitHigh : (∃ s : State, s.blen.toNat = 524288 ∧ s.blen.toNat % 8 = 0) ∧
    ∃ s : State, s.blen.toNat = 524287 ∧ s.blen.toNat % 8 ≠ 0 :=
  ⟨⟨{ State.reset with blen := 524288 }, by decide⟩, { State.reset with blen := 524287 }, by decide⟩

/-- A lone 1 bit at the top of BITS, and a full sequence of zeros. -/
theorem witness_StripCutsAtTheLastOne :
    (∃ (s : State) (p : Nat), p = 524287 ∧ p < s.blen.toNat ∧ s.bits.read false p = true ∧
      ∀ i, p < i → i < s.blen.toNat → s.bits.read false i = false) ∧
    ∃ s : State, s.blen.toNat = 524288 ∧ ∀ i < s.blen.toNat, s.bits.read false i = false := by
  refine ⟨⟨{ State.reset with bits := [(524287, true)], blen := 524288 }, 524287, rfl, by decide, by decide, ?_⟩,
    { State.reset with blen := 524288 }, by decide, fun _ _ => rfl⟩
  intro i h1 h2
  have h2 : i < 524288 := h2
  omega

theorem zeroS_cut (s : State) (n : Nat) (rest : BitSeq) (hl : s.codelen = zeroS.codelen) (hb : s.codebits = [])
    (hr : rest = [] ∨ rest = [true]) : GreedyCut s (List.replicate n ([false], 0#8)) rest := by
  have hlen : ∀ a : Byte, codeLength s a = codeLength zeroS a := fun a => by simp [codeLength, hl]
  have hcode : ∀ a : Byte, codeOf s a = codeOf zeroS a := fun a => by simp [codeOf, hlen, hb, zeroS, State.reset]
  have only : ∀ a : Byte, InTable s a → a = 0#8 := fun a h => zeroS_only a (by rwa [InTable, ← hlen])
  have h0 : codeOf s 0#8 = [false] := (hcode _).trans (by decide)
  refine ⟨fun p hp => ?_, fun a ha hpre => ?_⟩
  · obtain rfl := List.eq_of_mem_replicate hp
    refine ⟨⟨⟨?_, h0⟩, fun a ha => absurd ha (Nat.not_lt_zero _)⟩, fun a ha _ => ?_⟩
    · rw [InTable, hlen]; decide
    · obtain rfl := only a ha; exact h0
  · obtain rfl := only a ha
    rw [h0] at hpre
    rcases hr with rfl | rfl <;> exact absurd hpre (by decide)

theorem zeroS_pieces (n : Nat) : piecesBits (List.replicate n ([false], 0#8)) = List.replicate n false := by
  induction n with
  | zero => rfl
  | succ n ih => rw [List.replicate_succ, piecesBits, List.flatMap_cons, ← piecesBits, ih]; rfl

theorem slice_empty {α : Type} (z : α) (n : Nat) : Mem.slice z [] 0 n = List.replicate n z := by
  simp [Mem.slice]

theorem slice_last {α : Type} (z v : α) (n : Nat) : Mem.slice z [(n, v)] 0 (n + 1) = List.replicate n z ++ [v] := by
  have h : ∀ k ∈ List.range n, Mem.read z [(n, v)] (0 + k) = z := fun k hk => by
    have := List.mem_range.1 hk
    simp [Mem.read]
    omega
  rw [Mem.slice, List.range_succ, List.map_append, List.map_congr_left h]
  simp [Mem.read]

/-- 65536 symbols, the most that fit; a dangling bit after them; one symbol too many. -/
theorem witness_MatchResolvesGreedily :
    (∃ (s : State) (pieces : List (BitSeq × Byte)) (rest : BitSeq), GreedyCut s pieces rest ∧
      bitSequence s = piecesBits pieces ++ rest ∧ rest = [] ∧ pieces.length = 65536) ∧
    (∃ (s : State) (pieces : List (BitSeq × Byte)) (rest : BitSeq), GreedyCut s pieces rest ∧
      bitSequence s = piecesBits pieces ++ rest ∧ rest ≠ [] ∧ pieces.length = 65536) ∧
    ∃ (s : State) (pieces : List (BitSeq × Byte)) (rest : BitSeq), GreedyCut s pieces rest ∧
      bitSequence s = piecesBits pieces ++ rest ∧ pieces.length = 65537 := by
  refine ⟨⟨{ zeroS with blen := 65536 }, List.replicate 65536 ([false], 0#8), [], zeroS_cut _ _ _ rfl rfl (.inl rfl), ?_,
      rfl, List.length_replicate⟩,
    ⟨{ zeroS with bits := [(65536, true)], blen := 65537 }, List.replicate 65536 ([false], 0#8), [true],
      zeroS_cut _ _ _ rfl rfl (.inr rfl), ?_, by decide, List.length_replicate⟩,
    ⟨{ zeroS with blen := 65537 }, List.replicate 65537 ([false], 0#8), [], zeroS_cut _ _ _ rfl rfl (.inl rfl), ?_,
      List.length_replicate⟩⟩
  · rw [zeroS_pieces, List.append_nil]; exact slice_empty false 65536
  · rw [zeroS_pieces]
    exact slice_last false true 65536
  · rw [zeroS_pieces, List.append_nil]; exact slice_empty false 65537

/-- A payload of one bit less than BITS_CAP. -/
theorem witness_EncPacksThePaddedPayload : ∃ s : State, ((textSymbols s).map (codeLength s)).sum = 524287 :=
  ⟨fullS 7, fullS_payload 7⟩

/-- A payload of BITS_CAP bits, and of one bit more. -/
theorem witness_EncFailuresLeaveNoBuffer :
    (∃ s : State, ((textSymbols s).map (codeLength s)).sum = 524289) ∧
    ∃ s : State, ((textSymbols s).map (codeLength s)).sum = 524288 :=
  ⟨⟨fullS 9, fullS_payload 9⟩, fullS 8, fullS_payload 8⟩

theorem witness_DecDecodesAPaddedBuffer : ∃ (s : State) (pieces : List (BitSeq × Byte)) (k : Nat),
    GreedyCut s pieces [] ∧ pieces.length ≤ 65536 ∧ s.plen.toNat ≤ 65536 ∧ pieces ≠ [] ∧
    (packedBytes s).flatMap bitsOfByte = piecesBits pieces ++ true :: List.replicate k false :=
  ⟨{ zeroS with packed := [(0, 0x20)], plen := 1 }, List.replicate 2 ([false], 0#8), 5,
    zeroS_cut _ _ _ rfl rfl (.inl rfl), by decide, by decide, by decide, by decide⟩

theorem zero_bytes_then_40 (n : Nat) : (List.replicate n 0#8 ++ [0x40#8]).flatMap bitsOfByte =
    List.replicate (8 * n + 1) false ++ true :: List.replicate 6 false := by
  have hz : (List.replicate n 0#8).flatMap bitsOfByte = List.replicate (8 * n) false := by
    induction n with
    | zero => rfl
    | succ n ih =>
      rw [List.replicate_succ, List.flatMap_cons, ih, show bitsOfByte 0#8 = List.replicate 8 false by decide,
        List.replicate_append_replicate]
      congr 1; omega
  have h1 : [0x40#8].flatMap bitsOfByte = List.replicate 1 false ++ true :: List.replicate 6 false := by decide
  rw [List.flatMap_append, hz, h1, ← List.append_assoc, List.replicate_append_replicate]

/-- 8192 zero bytes and `40`: 65537 codes of one bit, then the sentinel (V-DEC-13). -/
theorem bytes_too_many :
    (packedBytes { zeroS with packed := [(8192, 0x40)], plen := 8193 }).flatMap bitsOfByte =
      List.replicate 65537 false ++ true :: List.replicate 6 false :=
  (congrArg (List.flatMap bitsOfByte) (slice_last 0#8 0x40#8 8192)).trans (zero_bytes_then_40 8192)

/-- A buffer of one zero byte; a dangling bit; one symbol too many. -/
theorem witness_DecFailuresDeliverNothing :
    (∃ s : State, s.plen.toNat ≤ 65536 ∧ 0 < s.plen.toNat ∧ ∀ j < s.plen.toNat, s.packed.read 0#8 j = 0#8) ∧
    (∃ (s : State) (pieces : List (BitSeq × Byte)) (rest : BitSeq) (k : Nat), s.plen.toNat ≤ 65536 ∧
      GreedyCut s pieces rest ∧
      (packedBytes s).flatMap bitsOfByte = (piecesBits pieces ++ rest) ++ true :: List.replicate k false ∧ rest ≠ [] ∧
      pieces.length ≤ 65536) ∧
    ∃ (s : State) (pieces : List (BitSeq × Byte)) (rest : BitSeq) (k : Nat), s.plen.toNat ≤ 65536 ∧
      GreedyCut s pieces rest ∧
      (packedBytes s).flatMap bitsOfByte = (piecesBits pieces ++ rest) ++ true :: List.replicate k false ∧
      pieces.length = 65537 := by
  refine ⟨⟨{ State.reset with plen := 1 }, by decide, by decide, fun _ _ => rfl⟩,
    ⟨{ zeroS with packed := [(0, 0x60)], plen := 1 }, List.replicate 1 ([false], 0#8), [true], 5, by decide,
      zeroS_cut _ _ _ rfl rfl (.inr rfl), by decide, by decide, by decide⟩,
    ⟨{ zeroS with packed := [(8192, 0x40)], plen := 8193 }, List.replicate 65537 ([false], 0#8), [], 6, by decide,
      zeroS_cut _ _ _ rfl rfl (.inl rfl), ?_, List.length_replicate⟩⟩
  rw [zeroS_pieces, List.append_nil, bytes_too_many]

theorem witness_CompressEncodesTheText : ∃ s : State, (∃ a ∈ textSymbols s, a.toNat < 128) ∧
    payloadLength (runStages [.count, .build, .gen] s) < 524288 := ⟨textA, by decide, by decide⟩

/-- A text of the symbol 128, and the empty text. -/
theorem witness_CompressRejectsATextWithoutSymbols :
    (∃ s : State, textSymbols s = [128#8] ∧ ∀ a ∈ textSymbols s, 128 ≤ a.toNat) ∧
    ∃ s : State, textSymbols s = [] ∧ ∀ a ∈ textSymbols s, 128 ≤ a.toNat :=
  ⟨⟨{ State.reset with text := [(0, 128)], tlen := 1 }, by decide⟩, State.reset, by decide⟩

theorem witness_StagesUndoEachOther :
    (∃ s t u : State, s.blen.toNat = 524288 ∧ s.blen.toNat % 8 = 0 ∧ exec .pack s = .next t ∧ exec .expand t = .next u) ∧
    (∃ s t u : State, s.plen.toNat = 65536 ∧ exec .expand s = .next t ∧ exec .pack t = .next u) ∧
    ∃ s t u : State, s.blen.toNat = 524287 ∧ exec .pad s = .next t ∧ exec .strip t = .next u :=
  ⟨⟨{ State.reset with blen := 524288 }, _, _, by decide, by decide, exec_eq_runStages _ _, exec_eq_runStages _ _⟩,
    ⟨{ State.reset with plen := 65536 }, _, _, by decide, exec_eq_runStages _ _, exec_eq_runStages _ _⟩,
    { State.reset with blen := 524287 }, _, _, by decide, exec_eq_runStages _ _, exec_eq_runStages _ _⟩

/-- Both clauses: DEC succeeds, and all symbols of the text are in the table. -/
theorem witness_RoundTripWithAPrefixFreeTable : ∃ s t u : State, PrefixFree s ∧ s.err = 0#4 ∧ exec .enc s = .next t ∧
    t.err = 0#4 ∧ exec .dec t = .next u ∧ u.err = 0#4 ∧ (∀ a ∈ textSymbols s, InTable s a) ∧ s.tlen.toNat ≤ 65536 ∧
    textSymbols s ≠ [] :=
  ⟨{ zeroS with tlen := 2 }, _, _, zeroS_prefixFree, rfl, exec_eq_runStages _ _, by decide, exec_eq_runStages _ _,
    by decide, by unfold InTable; decide, by decide, by decide⟩

theorem witness_CompressThenDecGivesTheText : ∃ s t u : State, 1 ≤ s.tlen.toNat ∧ s.tlen.toNat ≤ 65536 ∧
    (∀ a ∈ textSymbols s, a.toNat < 128) ∧ s.err = 0#4 ∧ exec .compress s = .next t ∧ t.err = 0#4 ∧
    exec .dec t = .next u :=
  ⟨textA, _, _, by decide, by decide, by decide, rfl, exec_eq_runStages _ _, by decide, exec_eq_runStages _ _⟩

/-- One copy, and as many as TEXT holds. -/
theorem witness_OneSymbolTextsRoundTrip : ∀ n ∈ [1, 65536], ∃ (s : State) (sym : Byte), 1 ≤ n ∧ n ≤ 65536 ∧
    s.tlen = BitVec.ofNat 32 n ∧ sym.toNat < 128 ∧ textSymbols s = List.replicate n sym := by
  intro n hn
  refine ⟨{ State.reset with tlen := BitVec.ofNat 32 n }, 0#8, ?_, ?_, rfl, by decide, ?_⟩
  · revert n; decide
  · revert n; decide
  · refine (slice_empty 0#8 (BitVec.ofNat 32 n).toNat).trans ?_
    congr 1
    revert n; decide

theorem witness_TableLineRoundTrips : ∃ s s' : State, (∃ a, InTable s a) ∧ s'.SpacesCanonical :=
  ⟨tableS, waits true 1 0 0, ⟨97, by unfold InTable; decide⟩, waits_canonical _ _ _ _⟩


/-- A clause each: no colon and two; the three wrong codes; letters, an empty token, a letter among digits, a plus
sign between digits and a second one in front, 256 and 256 with a space; a piece that is read; a line with a malformed piece and one without. -/
theorem witness_UnwritableEntriesAreMalformed :
    (∀ piece ∈ ["97".toList, "97:0:1".toList], piece.count ':' ≠ 1) ∧
    (∀ c ∈ [[], List.replicate 256 '1', ['0', '2']],
      c = [] ∨ 255 < c.length ∨ ∃ x ∈ c, x ≠ '0' ∧ x ≠ '1') ∧
    (∀ a ∈ [['a', 'b'], [], ['9', 'a'], ['1', '+', '2'], ['+', '+', '1'], ['2', '5', '6'], ['2', ' ', '5', '6']],
      (∀ x ∈ a, x.isDigit = false) ∨ (∃ x ∈ a, x.isDigit = false ∧ isBlank x = false ∧ x ≠ '+') ∨
        '+' ∈ (a.filter fun x => !isBlank x).drop 1 ∨ 256 ≤ decimalValue (a.filter Char.isDigit)) ∧
    parseEntry "255:1".toList = some (255, [true]) ∧
    (∃ p ∈ splitAtChar '-' (trimLine "97:0-x:1".toList), parseEntry p = none) ∧
    ∀ p ∈ splitAtChar '-' (trimLine "97:0-0:1".toList), parseEntry p ≠ none := by
  refine ⟨by decide, fun c hc => ?_, fun a ha => ?_, by decide, by decide, by decide⟩ <;>
    simp only [List.mem_cons, List.not_mem_nil, or_false] at *
  rcases hc with rfl | rfl | rfl
  · exact .inl rfl
  · exact .inr (.inl (by rw [List.length_replicate]; decide))
  · exact .inr (.inr ⟨'2', by decide, by decide⟩)
  rcases ha with rfl | rfl | rfl | rfl | rfl | rfl | rfl
  · exact .inl (List.forall_mem_cons.2 ⟨rfl, List.forall_mem_singleton.2 rfl⟩)
  · exact .inl fun _ h => absurd h List.not_mem_nil
  · exact .inr (.inl ⟨'a', by decide, by decide⟩)
  · exact .inr (.inr (.inl (by decide)))
  · exact .inr (.inr (.inl (by decide)))
  · exact .inr (.inr (.inr (Nat.le_of_eq (by decide))))
  · exact .inr (.inr (.inr (Nat.le_of_eq (by decide))))

end Sys2Proof.Tests
end

section
namespace Sys2Proof.Machine

/-! ## Which words decode, and which start a command -/

/-- The opcodes 14 and 15 are reserved (R96). -/
theorem commandOfOpcode_reserved {o : BitVec 4} (h : 14 ≤ o.toNat) : commandOfOpcode o = .error .reservedOpcode := by
  revert o; decide

theorem decode_encode (i : Instr) : decode (encode i) = .ok i := by cases i <;> decide

/-- The words below 14 are the words of the fourteen commands (R93). -/
theorem exists_encode_eq_of_lt {w : Word} (h : w.toNat < 14) : ∃ i, encode i = w := by
  have hw : w = BitVec.ofNat 32 w.toNat := by simp
  generalize w.toNat = n at h hw
  subst hw
  have hall : ∀ n < 14, ∃ i ∈ [Instr.nop, .clr, .count, .build, .gen, .map, .pad, .pack, .expand, .strip, .matchCodes,
      .enc, .dec, .compress], encode i = BitVec.ofNat 32 n := by decide
  obtain ⟨i, -, hi⟩ := hall n h
  exact ⟨i, hi⟩

theorem rsvClear_splitWord_iff (w : Word) : (splitWord w).rsvClear = true ↔ w.toNat < 16 := by
  have hn : (w.extractLsb' 4 28).toNat = w.toNat / 16 := by
    rw [BitVec.extractLsb'_toNat, Nat.shiftRight_eq_div_pow]
    omega
  simp only [splitWord, CommandWord.rsvClear, beq_iff_eq, ← BitVec.toNat_inj, hn, BitVec.toNat_ofNat]
  omega

theorem splitWord_opc_toNat (w : Word) : (splitWord w).opc.toNat = w.toNat % 16 := by
  simp [splitWord]

/-- A word of 14 or more is illegal: its reserved bits are not clear, or its opcode is 14 or 15 (R92, R96). -/
theorem decode_error_of_le {w : Word} (h : 14 ≤ w.toNat) : ∃ e, decode w = .error e := by
  by_cases hr : w.toNat < 16
  · have hopc : 14 ≤ (splitWord w).opc.toNat := by rw [splitWord_opc_toNat]; omega
    exact ⟨_, by rw [decode, if_pos ((rsvClear_splitWord_iff w).2 hr), commandOfOpcode_reserved hopc]⟩
  · exact ⟨_, by rw [decode, if_neg (mt (rsvClear_splitWord_iff w).1 hr)]⟩

theorem decode_eq_ok_iff {w : Word} {i : Instr} : decode w = .ok i ↔ w = encode i := by
  refine ⟨fun h => ?_, fun h => h ▸ decode_encode i⟩
  by_cases hw : w.toNat < 14
  · obtain ⟨j, rfl⟩ := exists_encode_eq_of_lt hw
    rw [decode_encode] at h
    cases h
    rfl
  · obtain ⟨e, he⟩ := decode_error_of_le (Nat.le_of_not_lt hw)
    rw [he] at h
    cases h

theorem encode_toNat_lt (i : Instr) : (encode i).toNat < 14 := by cases i <;> decide

theorem lt_of_decode_ok {w : Word} {i : Instr} (h : decode w = .ok i) : w.toNat < 14 :=
  decode_eq_ok_iff.1 h ▸ encode_toNat_lt i

theorem le_of_decode_error {w : Word} {e : DecodeError} (h : decode w = .error e) : 14 ≤ w.toNat := by
  by_contra hw
  obtain ⟨i, rfl⟩ := exists_encode_eq_of_lt (Nat.lt_of_not_le hw)
  rw [decode_encode] at h
  cases h

theorem startsCommand_iff {t : Transaction} : startsCommand t = true ↔ t = ⟨true, 0#4, 1#32, t.wdata⟩ := by
  obtain ⟨we, sp, idx, wd⟩ := t
  simp [startsCommand, and_assoc]

/-! ## A host write that starts no command -/

/-- The whole effect of such a write where there is no bus error (R63). -/
theorem step_write {s : State} {t : Transaction} {rest : List Event} {sp : Space}
    (h : s.inbox = .transaction t :: rest) (hc : startsCommand t = false) (hwe : t.we = true)
    (hsp : spaceOf t.space = some sp) (hb : busError t = false) :
    step s = .next (answer writeDone (writeElement { s with inbox := rest } sp t.index.toNat t.wdata)) := by
  rw [step_transaction h, transact_access hc]
  simp [access, hb, hsp, hwe]

/-- A write that gets no bus error stays inside its space (R66, case 2). -/
theorem index_lt_of_not_busError {t : Transaction} {sp : Space} (hsp : spaceOf t.space = some sp)
    (hb : busError t = false) : t.index.toNat < spaceSize sp := by
  simp only [busError, hsp, Bool.or_eq_false_iff, decide_eq_false_iff_not] at hb
  omega

/-- A write that gets no bus error stays within the length registers' capacities (R66, case 4). -/
theorem not_lengthTooGreat_of_not_busError {t : Transaction} {sp : Space} (hsp : spaceOf t.space = some sp)
    (hwe : t.we = true) (hb : busError t = false) : lengthTooGreat sp t.index.toNat t.wdata = false := by
  simp only [busError, hsp, hwe, Bool.true_and, Bool.or_eq_false_iff] at hb
  exact hb.2

/-! ## Carrying a property over the stages of a command and over a step -/

/-- What a completing stage, the failure registers and an invalidation keep, a command keeps. -/
theorem runStages_keeps {P : State → Prop}
    (hfailure : ∀ (s : State) err errstage errinfo esticky, P s → P { s with
      err := err, errstage := errstage, errinfo := errinfo, esticky := esticky })
    (hstage : ∀ p s s', runStage p s = .completed s' → P s → P s') (hinv : ∀ p s, P s → P (invalidate p s))
    (ps : List Primitive) {s : State} (h : P s) : P (runStages ps s) := by
  have hall : ∀ ps s, P s → P (invalidateAll ps s) := by
    intro ps
    induction ps with
    | nil => exact fun _ h => h
    | cons p ps ih => exact fun s h => ih _ (hinv p s h)
  induction ps generalizing s with
  | nil => exact h
  | cons p ps ih =>
    rcases runStages_cons p ps s with ⟨s', hr, e⟩ | ⟨s', hr, e⟩ <;> rw [e]
    · exact ih (hstage p s s' hr h)
    · obtain ⟨k, n, hraise⟩ := runStage_failed_by_raise hr
      rw [raiseFailure_eq_failed hraise]
      exact hall ps _ (hinv p _ (hfailure s _ _ _ _ h))

/-- A property that speaks neither of the failure registers, nor of `CMD`, nor of the port's two fields is kept by
every step when the completing stages, the invalidations and the host's writes keep it and the reset state has it. -/
theorem step_keeps {P : State → Prop}
    (hregs : ∀ (s : State) cmd err errstage errinfo esticky inbox answers, P s → P { s with
      cmd := cmd, err := err, errstage := errstage, errinfo := errinfo, esticky := esticky, inbox := inbox,
      answers := answers })
    (hreset : P State.reset) (hstage : ∀ p s s', runStage p s = .completed s' → P s → P s')
    (hinv : ∀ p s, P s → P (invalidate p s))
    (hwrite : ∀ (t : Transaction) sp s, spaceOf t.space = some sp → t.we = true → busError t = false → P s →
      P (writeElement s sp t.index.toNat t.wdata))
    {s s' : State} (hs : P s) (h : step s = .next s') : P s' := by
  rcases step_cases h with ⟨-, rfl⟩ | ⟨rest, -, rfl⟩ | ⟨t, rest, i, -, -, -, rfl⟩ | ⟨t, rest, e, -, -, -, rfl⟩ |
    ⟨t, rest, -, -, rfl⟩
  · exact hs
  · exact hregs _ _ _ _ _ _ rest s.answers hreset
  · have hstart : P (startCommand (commandWord t) { s with inbox := rest }) := hregs s _ _ _ _ _ _ _ hs
    exact hregs _ _ _ _ _ _ _ _ (runStages_keeps (fun s _ _ _ _ => hregs s _ _ _ _ _ _ _) hstage hinv _ hstart)
  · exact hregs s _ _ _ _ _ _ _ hs
  · have hrest : P { s with inbox := rest } := hregs s _ _ _ _ _ rest _ hs
    rcases access_cases t { s with inbox := rest } with
      ⟨-, e⟩ | ⟨sp, hsp, hb, ⟨hwe, e⟩ | ⟨-, e⟩⟩ <;> rw [e]
    · exact hregs s _ _ _ _ _ _ _ hs
    · exact hregs _ _ _ _ _ _ _ _ (hwrite t sp _ hsp hwe hb hrest)
    · exact hregs s _ _ _ _ _ _ _ hs

end Sys2Proof.Machine
end

section
namespace Sys2Proof.Machine

/-! ## The frame of a list of stages (R22, R94) -/

/-- What the stages `ps` leave as it was between `s` and `t`: everything that none of them writes. -/
structure Frame (ps : List Primitive) (s t : State) : Prop where
  port : t.cmd = s.cmd ∧ t.inbox = s.inbox ∧ t.answers = s.answers
  text : (∀ p ∈ ps, p ≠ .clr) → t.tlen = s.tlen ∧ t.text = s.text
  freq : (∀ p ∈ ps, p ∉ [Primitive.clr, .count]) → t.freq = s.freq
  tree : (∀ p ∈ ps, p ∉ [Primitive.clr, .build]) → t.node = s.node ∧ t.nnodes = s.nnodes ∧ t.root = s.root
  table : (∀ p ∈ ps, p ∉ [Primitive.clr, .gen]) → t.codelen = s.codelen ∧ t.codebits = s.codebits
  bits : (∀ p ∈ ps, p ∉ [Primitive.clr, .map, .pad, .expand]) → t.bits = s.bits
  blen : (∀ p ∈ ps, p ∉ [Primitive.clr, .map, .pad, .expand, .strip]) → t.blen = s.blen
  packed : (∀ p ∈ ps, p ∉ [Primitive.clr, .pack]) → t.packed = s.packed ∧ t.plen = s.plen
  out : (∀ p ∈ ps, p ∉ [Primitive.clr, .matchCodes]) → t.out = s.out ∧ t.olen = s.olen

theorem Frame.refl (ps : List Primitive) (s : State) : Frame ps s s := by
  constructor <;> simp

theorem Frame.cons {p : Primitive} {ps : List Primitive} {s t u : State} (h : Frame [p] s t) (h' : Frame ps t u) :
    Frame (p :: ps) s u := by
  have hsplit : ∀ {Q : Primitive → Prop}, (∀ q ∈ p :: ps, Q q) → (∀ q ∈ [p], Q q) ∧ ∀ q ∈ ps, Q q := fun hQ =>
    ⟨fun q hq => hQ q (by simp_all), fun q hq => hQ q (List.mem_cons_of_mem _ hq)⟩
  constructor
  case port => exact ⟨h'.port.1.trans h.port.1, h'.port.2.1.trans h.port.2.1, h'.port.2.2.trans h.port.2.2⟩
  all_goals intro hQ; obtain ⟨h1, h2⟩ := hsplit hQ
  case text => rw [(h'.text h2).1, (h'.text h2).2]; exact h.text h1
  case freq => rw [h'.freq h2, h.freq h1]
  case tree => rw [(h'.tree h2).1, (h'.tree h2).2.1, (h'.tree h2).2.2]; exact h.tree h1
  case table => rw [(h'.table h2).1, (h'.table h2).2]; exact h.table h1
  case bits => rw [h'.bits h2, h.bits h1]
  case blen => rw [h'.blen h2, h.blen h1]
  case packed => rw [(h'.packed h2).1, (h'.packed h2).2]; exact h.packed h1
  case out => rw [(h'.out h2).1, (h'.out h2).2]; exact h.out h1

/-- INV of a primitive touches its own destination alone (R248). -/
theorem invalidate_frame (p : Primitive) (s : State) : Frame [p] s (invalidate p s) := by
  cases p <;> constructor <;> simp [invalidate]

theorem invalidateAll_frame (ps : List Primitive) (s : State) : Frame ps s (invalidateAll ps s) := by
  induction ps generalizing s with
  | nil => exact Frame.refl _ _
  | cons p ps ih => exact (invalidate_frame p s).cons (ih _)

/-- A stage touches its own destination and the failure registers alone (R94). -/
theorem runStage_frame (p : Primitive) (s : State) : Frame [p] s (runStage p s).state := by
  cases h : runStage p s with
  | failed s' =>
    obtain ⟨e, n, he⟩ := runStage_failed_by_raise h
    rw [StageResult.state_failed, raiseFailure_eq_failed he]
    obtain ⟨hport, htext, hfreq, htree, htable, hbits, hblen, hpacked, hout⟩ := invalidate_frame p
      { s with err := errorCode e, errstage := primitiveOpcode p, errinfo := infoWord n, esticky := 1#1 }
    exact ⟨hport, htext, hfreq, htree, htable, hbits, hblen, hpacked, hout⟩
  | completed s' =>
    rw [StageResult.state_completed]
    rcases runStage_completed_cases h with ⟨-, rfl⟩ | ⟨rfl, rfl⟩ | ⟨rfl, f, rfl⟩ | ⟨rfl, m, n, r, rfl⟩ |
      ⟨rfl, l, b, rfl⟩ | ⟨rfl | rfl | rfl, m, n, rfl⟩ | ⟨rfl, m, n, rfl⟩ | ⟨rfl, n, rfl⟩ | ⟨rfl, m, n, rfl⟩ <;>
      constructor <;> simp

theorem runStages_frame (ps : List Primitive) (s : State) : Frame ps s (runStages ps s) := by
  induction ps generalizing s with
  | nil => exact Frame.refl _ _
  | cons p ps ih =>
    have hp := runStage_frame p s
    rcases runStages_cons p ps s with ⟨s', h, e⟩ | ⟨s', h, e⟩ <;> rw [h] at hp <;> rw [e]
    · exact hp.cons (ih s')
    · exact hp.cons (invalidateAll_frame ps s')

/-- Settles O19: each stage of a command touches its own destination and the failure registers alone. -/
theorem commandsWriteOnlyTheirOperands : Obligations.CommandsWriteOnlyTheirOperands := by
  unfold Obligations.CommandsWriteOnlyTheirOperands
  intro i s t h
  rw [exec_eq_runStages] at h
  cases h
  have frame := runStages_frame (stagesOf i) s
  refine ⟨frame.port, fun hi => frame.text ?_, fun hi => frame.freq ?_, fun hi => frame.tree ?_,
    fun hi => frame.table ?_, fun hi => frame.bits ?_, fun hi => frame.blen ?_, fun hi => frame.packed ?_,
    fun hi => frame.out ?_⟩ <;> revert hi <;> cases i <;> decide

end Sys2Proof.Machine
end

section
namespace Sys2Proof.Machine

/-! ## What a host write of one element can do (R63) -/

theorem writeSticky_eq (d : PortData) (s : State) :
    writeSticky d s = { s with esticky := if d.getLsbD 0 then 0#1 else s.esticky } := by
  unfold writeSticky
  split <;> rfl

/-- The states the store of `d` into element `i` of a space can give: no change where the target is read-only or there
is none, else the one register or element. -/
inductive HostWrite (s : State) (d : PortData) (i : Nat) : Space → State → Prop where
  | unchanged (sp : Space) : HostWrite s d i sp s
  | cmd (h : csrOf i = some .cmd) : HostWrite s d i .csr { s with cmd := d.setWidth 32 }
  | esticky (h : csrOf i = some .esticky) :
    HostWrite s d i .csr { s with esticky := if d.getLsbD 0 then 0#1 else s.esticky }
  | tlen (h : csrOf i = some .tlen) : HostWrite s d i .csr { s with tlen := d.setWidth 32 }
  | blen (h : csrOf i = some .blen) : HostWrite s d i .csr { s with blen := d.setWidth 32 }
  | plen (h : csrOf i = some .plen) : HostWrite s d i .csr { s with plen := d.setWidth 32 }
  | text : HostWrite s d i .text { s with text := s.text.write 0#8 i (d.setWidth 8) }
  | freq : HostWrite s d i .freq { s with freq := s.freq.write 0#32 i (d.setWidth 32) }
  | codelen : HostWrite s d i .codelen { s with codelen := s.codelen.write 0#8 i (d.setWidth 8) }
  | codebits : HostWrite s d i .codebits { s with codebits := s.codebits.write 0#255 i (d.setWidth 255) }
  | bits : HostWrite s d i .bits { s with bits := s.bits.write false i (d.getLsbD 0) }
  | packed : HostWrite s d i .packed { s with packed := s.packed.write 0#8 i (d.setWidth 8) }

theorem writeElement_hostWrite (s : State) (sp : Space) (i : Nat) (d : PortData) :
    HostWrite s d i sp (writeElement s sp i d) := by
  cases sp with
  | csr =>
    cases h : csrOf i with
    | none => simpa [writeElement, h] using HostWrite.unchanged _
    | some r =>
      have hw : writeElement s .csr i d = writeCsr s d r := by simp [writeElement, h]
      rw [hw]
      cases r with
      | cmd => exact .cmd h
      | esticky => rw [writeCsr, writeSticky_eq]; exact .esticky h
      | tlen => exact .tlen h
      | blen => exact .blen h
      | plen => exact .plen h
      | id | err | errstage | errinfo | olen | nnodes | root | capText | capBits | capPack | capOut =>
        exact .unchanged _
  | text => exact .text
  | freq => exact .freq
  | node => exact .unchanged _
  | codelen => exact .codelen
  | codebits => exact .codebits
  | bits => exact .bits
  | packed => exact .packed
  | out => exact .unchanged _

theorem csrOf_eq_cmd {i : Nat} (h : csrOf i = some .cmd) : i = 1 := by
  unfold csrOf at h
  split at h <;> cases h
  rfl

theorem csrOf_eq_esticky {i : Nat} (h : csrOf i = some .esticky) : i = 5 := by
  unfold csrOf at h
  split at h <;> cases h
  rfl

theorem csrOf_lt {i : Nat} {r : Csr} (h : csrOf i = some r) : i < 16 := by
  by_contra hi
  obtain ⟨k, rfl⟩ : ∃ k, i = k + 16 := ⟨i - 16, by omega⟩
  cases h

theorem spaceOf_eq_csr {id : BitVec 4} (h : spaceOf id = some .csr) : id = 0#4 := by
  unfold spaceOf at h
  split at h <;> cases h
  exact BitVec.eq_of_toNat_eq (by assumption)

/-- The host cannot write NODE, `NNODES` or `ROOT` (R38, R66). -/
theorem writeElement_tree (s : State) (sp : Space) (i : Nat) (d : PortData) :
    (writeElement s sp i d).node = s.node ∧ (writeElement s sp i d).nnodes = s.nnodes ∧
      (writeElement s sp i d).root = s.root := by
  have hw := writeElement_hostWrite s sp i d
  generalize writeElement s sp i d = t at hw ⊢
  cases hw <;> exact ⟨rfl, rfl, rfl⟩

/-- Where a write starts no command, it changes neither `CMD` nor the failure registers, and it can only clear
`ESTICKY`, by a 1 in bit 0 of the write to it (R28, R67). -/
theorem access_registers {t : Transaction} (hc : startsCommand t = false) (s : State) :
    ((access t s).cmd = s.cmd ∧ (access t s).err = s.err ∧ (access t s).errstage = s.errstage ∧
      (access t s).errinfo = s.errinfo) ∧
    ((access t s).esticky = s.esticky ∨
      ((access t s).esticky = 0#1 ∧ t = ⟨true, 0#4, 5#32, t.wdata⟩ ∧ t.wdata.getLsbD 0 = true)) := by
  rcases access_cases t s with ⟨-, e⟩ | ⟨sp, hsp, hb, ⟨hwe, e⟩ | ⟨-, e⟩⟩
  · simp [e]
  · obtain ⟨we, space, idx, d⟩ := t
    obtain rfl : we = true := hwe
    have hspace : sp = .csr → space = 0#4 := fun h => spaceOf_eq_csr (h ▸ hsp)
    have hw := writeElement_hostWrite s sp idx.toNat d
    rw [e]
    generalize writeElement s sp idx.toNat d = u at hw ⊢
    cases hw with
    | cmd hr =>
      have hidx : idx = 1#32 := BitVec.eq_of_toNat_eq (csrOf_eq_cmd hr)
      simp [startsCommand, hidx, hspace rfl] at hc
    | esticky hr =>
      have hidx : idx = 5#32 := BitVec.eq_of_toNat_eq (csrOf_eq_esticky hr)
      refine ⟨by simp, ?_⟩
      cases d.getLsbD 0 with
      | false => exact .inl rfl
      | true => exact .inr ⟨rfl, by rw [hidx, hspace rfl], rfl⟩
    | _ => exact ⟨⟨rfl, rfl, rfl, rfl⟩, .inl rfl⟩
  · simp [e]

/-! ## A write to a register (R28 to R31, R63) -/

/-- A write of 32 bits within the capacity of a length register, or to a register without one, gets no bus error. -/
theorem busError_csr_write {idx : BitVec 32} {d : PortData} {r : Csr} (hr : csrOf idx.toNat = some r)
    (hro : csrReadOnly r = false)
    (hlen : ∀ limit, lengthLimit r = some limit → d.toNat % 2 ^ 32 ≤ limit) :
    busError ⟨true, 0#4, idx, d⟩ = false := by
  have hsp : spaceOf 0#4 = some .csr := rfl
  have hlong : lengthTooGreat .csr idx.toNat d = false := by
    simp only [lengthTooGreat, targetCsr, hr, Option.bind_some]
    cases hl : lengthLimit r with
    | none => rfl
    | some limit => simpa using hlen limit hl
  have hin : decide (spaceSize .csr ≤ idx.toNat) = false := decide_eq_false (Nat.not_le_of_lt (csrOf_lt hr))
  simp [busError, hsp, hlong, readOnly, hr, hro, hin]

theorem step_csr_write {s : State} {idx : BitVec 32} {d : PortData} {rest : List Event} {r : Csr}
    (h : s.inbox = .transaction ⟨true, 0#4, idx, d⟩ :: rest) (hr : csrOf idx.toNat = some r) (hne : idx ≠ 1#32)
    (hro : csrReadOnly r = false)
    (hlen : ∀ limit, lengthLimit r = some limit → d.toNat % 2 ^ 32 ≤ limit) :
    step s = .next (answer writeDone (writeCsr { s with inbox := rest } d r)) := by
  rw [step_write h (by simpa [startsCommand] using hne) rfl rfl (busError_csr_write hr hro hlen)]
  simp [writeElement, hr]

/-- Settles O12: each of the four registers is a writable one, and the value is within its capacity. -/
theorem registerWritesStoreOrClear : Obligations.RegisterWritesStoreOrClear := by
  unfold Obligations.RegisterWritesStoreOrClear
  intro s idx d rest h
  refine ⟨?tlen, ?blen, ?plen, ?esticky⟩
  case tlen =>
    rintro rfl hd
    rw [step_csr_write (r := .tlen) h rfl (by decide) rfl (by rintro _ ⟨⟩; exact hd)]
    rfl
  case blen =>
    rintro rfl hd
    rw [step_csr_write (r := .blen) h rfl (by decide) rfl (by rintro _ ⟨⟩; exact hd)]
    rfl
  case plen =>
    rintro rfl hd
    rw [step_csr_write (r := .plen) h rfl (by decide) rfl (by rintro _ ⟨⟩; exact hd)]
    rfl
  case esticky =>
    rintro rfl
    have hbit : d.getLsbD 0 = true ↔ d.toNat % 2 = 1 := by simp [BitVec.getLsbD, Nat.testBit_zero]
    rw [step_csr_write (r := .esticky) h rfl (by decide) rfl (by rintro _ ⟨⟩), writeCsr, writeSticky_eq]
    simp only [hbit]
    rfl

/-! ## What a host reads: the reset state and a node record (R51, R40) -/

/-- Settles O8: the constants are read from the parameters, everything else from a state of zeros and empty spaces. -/
theorem resetStateReadsAsTheSpecSays : Obligations.ResetStateReadsAsTheSpecSays := by
  unfold Obligations.ResetStateReadsAsTheSpecSays
  refine ⟨rfl, rfl, rfl, rfl, rfl, fun r hr => ?_, fun i => ⟨rfl, rfl, ?_, rfl, rfl, rfl, rfl, rfl⟩⟩
  · revert hr
    cases r <;> decide
  · show nodeBits Node.zero = 0#67
    decide

theorem toNat_append_eq_add {n m : Nat} (x : BitVec n) (y : BitVec m) :
    (x ++ y).toNat = x.toNat * 2 ^ m + y.toNat := by
  rw [BitVec.toNat_append, ← Nat.shiftLeft_add_eq_or_of_lt y.isLt, Nat.shiftLeft_eq]

/-- Settles O13: a concatenation is the sum of its fields at their places. -/
theorem nodeRecordLayout : Obligations.NodeRecordLayout := by
  unfold Obligations.NodeRecordLayout
  refine ⟨fun sym f => ?_, fun f l r => ?_⟩ <;>
    simp only [nodeBits, toNat_append_eq_add, BitVec.toNat_ofNat] <;> omega

end Sys2Proof.Machine
end

section
namespace Sys2Proof.Machine

/-! ## The tree builder: every round keeps a forest over the leaves (R41, R134 to R138) -/

/-! The queue. -/

theorem leastKey_mem (tb : Config.TieBreak) (k : QueueKey) (q : List QueueKey) : leastKey tb k q ∈ k :: q := by
  induction q generalizing k with
  | nil => exact List.mem_cons_self
  | cons k' q ih =>
    rw [leastKey]
    rcases List.mem_cons.1 (ih (if keyBefore tb k' k then k' else k)) with e | h
    · rw [e]
      split <;> simp
    · simp [h]

/-- `extract_min` takes one member out of the queue (R133). -/
theorem extractMin_perm {tb : Config.TieBreak} {q q' : Queue} {k : QueueKey} (h : extractMin tb q = some (k, q')) :
    q.Perm (k :: q') := by
  cases q with
  | nil => cases h
  | cons k0 q =>
    cases h
    exact List.perm_cons_erase (leastKey_mem tb k0 q)

theorem extractMin_eq_none {tb : Config.TieBreak} {q : Queue} (h : extractMin tb q = none) : q = [] := by
  cases q with
  | nil => rfl
  | cons k q => cases h

/-- The new node of a round has the two extracted members as its children, in either order (R135). -/
theorem combine_eq (co : Config.ChildOrder) {a b : QueueKey} (ha : a.index < 512) (hb : b.index < 512) :
    ∃ l r, combine co a b = .internal (a.nfreq + b.nfreq) l r ∧
      ((l.toNat = a.index ∧ r.toNat = b.index) ∨ (l.toNat = b.index ∧ r.toNat = a.index)) := by
  cases co with
  | firstIsLeft => exact ⟨_, _, rfl, .inl ⟨by simp [ha], by simp [hb]⟩⟩
  | firstIsRight => exact ⟨_, _, rfl, .inr ⟨by simp [hb], by simp [ha]⟩⟩

/-! The nodes made so far, as the space NODE would hold them. -/

/-- A space that holds a list of nodes from index 0 on. -/
def nodeMem (nodes : List Node) : Mem Node := Mem.entries Node.zero 0 nodes

theorem nodeMem_read (nodes : List Node) (i : Nat) : (nodeMem nodes).read Node.zero i = nodes.getD i Node.zero := by
  simp [nodeMem, Mem.read_entries]

theorem nodeMem_read_of_lt {nodes : List Node} {i : Nat} (h : i < nodes.length) :
    (nodeMem nodes).read Node.zero i = nodes[i] := by
  rw [nodeMem_read, List.getD_eq_getElem _ _ h]

theorem nodeMem_read_of_le {nodes : List Node} {i : Nat} (h : nodes.length ≤ i) :
    (nodeMem nodes).read Node.zero i = Node.zero := by
  rw [nodeMem_read, List.getD_eq_default _ _ h]

theorem nodeMem_append_read_old {nodes : List Node} {i : Nat} (h : i < nodes.length) (x : Node) :
    (nodeMem (nodes ++ [x])).read Node.zero i = (nodeMem nodes).read Node.zero i := by
  rw [nodeMem_read_of_lt h, nodeMem_read_of_lt (by simp; omega), List.getElem_append_left h]

theorem nodeMem_append_read_new (nodes : List Node) (x : Node) :
    (nodeMem (nodes ++ [x])).read Node.zero nodes.length = x := by
  rw [nodeMem_read_of_lt (by simp), List.getElem_append_right (Nat.le_refl _)]
  simp

theorem lt_of_isParent_nodeMem {nodes : List Node} {i j : Nat} (h : isParent (nodeMem nodes) i j) :
    i < nodes.length := by
  by_contra hi
  obtain ⟨f, l, r, hr, -⟩ := h
  rw [nodeMem_read_of_le (Nat.le_of_not_lt hi)] at hr
  cases hr

/-- Whether a node is a parent depends on its own record. -/
theorem isParent_congr {m m' : Mem Node} {i : Nat} (h : m.read Node.zero i = m'.read Node.zero i) (j : Nat) :
    isParent m i j ↔ isParent m' i j := by
  simp only [isParent, h]

theorem freqAt_congr {m m' : Mem Node} {i : Nat} (h : m.read Node.zero i = m'.read Node.zero i) :
    freqAt m i = freqAt m' i := by
  simp only [freqAt, h]

theorem isParent_of_read {m : Mem Node} {i : Nat} {f : NodeFreq} {l r : NodeIndex}
    (h : m.read Node.zero i = .internal f l r) (j : Nat) : isParent m i j ↔ l.toNat = j ∨ r.toNat = j := by
  simp only [isParent, h]
  refine ⟨?_, fun hj => ⟨f, l, r, rfl, hj⟩⟩
  rintro ⟨f', l', r', e, hj⟩
  cases e
  exact hj

theorem not_isParent_of_leaf {m : Mem Node} {i : Nat} {sym : Byte} {f : NodeFreq}
    (h : m.read Node.zero i = .leaf sym f) (j : Nat) : ¬ isParent m i j := by
  rintro ⟨f', l, r, e, -⟩
  rw [h] at e
  cases e

/-- After a round, the parents of a node are the old ones and, for the two extracted members, the new node. -/
theorem isParent_append_internal {nodes : List Node} {f : NodeFreq} {l r : NodeIndex} {i j : Nat} :
    isParent (nodeMem (nodes ++ [.internal f l r])) i j ↔
      isParent (nodeMem nodes) i j ∨ (i = nodes.length ∧ (l.toNat = j ∨ r.toNat = j)) := by
  rcases Nat.lt_trichotomy i nodes.length with hi | rfl | hi
  · rw [isParent_congr (nodeMem_append_read_old hi _)]
    simp [Nat.ne_of_lt hi]
  · rw [isParent_of_read (nodeMem_append_read_new nodes _)]
    have hold : ¬ isParent (nodeMem nodes) nodes.length j := fun h => Nat.lt_irrefl _ (lt_of_isParent_nodeMem h)
    simp [hold]
  · have hold : ¬ isParent (nodeMem nodes) i j := fun h => by have := lt_of_isParent_nodeMem h; omega
    have hnew : ¬ isParent (nodeMem (nodes ++ [.internal f l r])) i j := fun h => by
      have := lt_of_isParent_nodeMem h
      simp only [List.length_append, List.length_singleton] at this
      omega
    simp [hold, hnew, Nat.ne_of_gt hi]

/-- Node i is an internal node with two different children below it and the exact sum of their frequencies (R41). -/
def SoundInternal (m : Mem Node) (i : Nat) : Prop :=
  ∃ f l r, m.read Node.zero i = .internal f l r ∧ l.toNat < i ∧ r.toNat < i ∧ l ≠ r ∧
    f.toNat = freqAt m l.toNat + freqAt m r.toNat

theorem SoundInternal.congr {m m' : Mem Node} {i : Nat} (h : SoundInternal m i)
    (e : ∀ j ≤ i, m.read Node.zero j = m'.read Node.zero j) : SoundInternal m' i := by
  obtain ⟨f, l, r, hr, hl, hrt, hne, hf⟩ := h
  refine ⟨f, l, r, (e i (Nat.le_refl i)).symm.trans hr, hl, hrt, hne, ?_⟩
  rw [← freqAt_congr (e _ (Nat.le_of_lt hl)), ← freqAt_congr (e _ (Nat.le_of_lt hrt))]
  exact hf

/-- What the nodes made so far and the queue are between two rounds of BUILD: the leaves come first, then sound
internal nodes; a node is in the queue with its frequency, or it has one parent; no count is lost. -/
structure Forest (ls nodes : List Node) (q : Queue) : Prop where
  leaf : ∀ x ∈ ls, ∃ sym f, x = .leaf sym f
  leavesFirst : ls <+: nodes
  size : nodes.length + q.length = 2 * ls.length
  nodup : (q.map QueueKey.index).Nodup
  key : ∀ k ∈ q, k.index < nodes.length ∧ nodeFreq ((nodeMem nodes).read Node.zero k.index) = k.nfreq
  inner : ∀ i, ls.length ≤ i → i < nodes.length → SoundInternal (nodeMem nodes) i
  queued : ∀ k ∈ q, ∀ i, ¬ isParent (nodeMem nodes) i k.index
  used : ∀ j < nodes.length, j ∉ q.map QueueKey.index → ∃! i, isParent (nodeMem nodes) i j
  total : (q.map fun k => k.nfreq.toNat).sum < 2 ^ 40

theorem Forest.perm {ls nodes : List Node} {q q' : Queue} (h : Forest ls nodes q) (hp : q.Perm q') :
    Forest ls nodes q' where
  leaf := h.leaf
  leavesFirst := h.leavesFirst
  size := hp.length_eq ▸ h.size
  nodup := (hp.map _).nodup_iff.1 h.nodup
  key k hk := h.key k (hp.mem_iff.2 hk)
  inner := h.inner
  queued k hk := h.queued k (hp.mem_iff.2 hk)
  used j hj hn := h.used j hj fun hq => hn ((hp.map _).mem_iff.1 hq)
  total := (hp.map fun k => k.nfreq.toNat).sum_eq ▸ h.total

theorem Forest.read_leaf {ls nodes : List Node} {q : Queue} (h : Forest ls nodes q) {i : Nat} (hi : i < ls.length) :
    (nodeMem nodes).read Node.zero i = ls[i] := by
  rw [nodeMem_read_of_lt (Nat.lt_of_lt_of_le hi h.leavesFirst.length_le)]
  exact (h.leavesFirst.getElem hi).symm

/-- A child has a lower index than its parent. -/
theorem Forest.child_lt {ls nodes : List Node} {q : Queue} (h : Forest ls nodes q) {i j : Nat}
    (hp : isParent (nodeMem nodes) i j) : j < i := by
  rcases Nat.lt_or_ge i ls.length with hi | hi
  · obtain ⟨sym, f, e⟩ := h.leaf _ (List.getElem_mem hi)
    exact absurd hp (not_isParent_of_leaf ((h.read_leaf hi).trans e) j)
  · obtain ⟨f, l, r, hr, hl, hrt, -⟩ := h.inner i hi (lt_of_isParent_nodeMem hp)
    rcases (isParent_of_read hr j).1 hp with e | e <;> omega

/-- The two members extracted are different nodes, and neither is in the rest of the queue. -/
theorem Forest.heads_distinct {ls nodes : List Node} {a b : QueueKey} {q : Queue} (h : Forest ls nodes (a :: b :: q)) :
    a.index ≠ b.index ∧ a.index ∉ q.map QueueKey.index ∧ b.index ∉ q.map QueueKey.index ∧
      (q.map QueueKey.index).Nodup := by
  obtain ⟨ha, hb, hq⟩ : a.index ∉ b.index :: q.map QueueKey.index ∧ b.index ∉ q.map QueueKey.index ∧
      (q.map QueueKey.index).Nodup := by
    simpa only [List.map_cons, List.nodup_cons] using h.nodup
  obtain ⟨hab, haq⟩ := not_or.1 (mt List.mem_cons.2 ha)
  exact ⟨hab, haq, hb, hq⟩

/-- The node a round makes: its children are the two extracted members, and it is sound, since the frequencies in the
queue add up to less than 2^40 (R135, R141). -/
theorem Forest.combine_sound {ls nodes : List Node} {a b : QueueKey} {q : Queue} (h : Forest ls nodes (a :: b :: q))
    (hn : ls.length ≤ 256) (co : Config.ChildOrder) :
    ∃ l r, combine co a b = .internal (a.nfreq + b.nfreq) l r ∧
      (a.nfreq + b.nfreq).toNat = a.nfreq.toNat + b.nfreq.toNat ∧
      (∀ j, (l.toNat = j ∨ r.toNat = j) ↔ (j = a.index ∨ j = b.index)) ∧
      SoundInternal (nodeMem (nodes ++ [.internal (a.nfreq + b.nfreq) l r])) nodes.length := by
  have hsize : nodes.length + (q.length + 2) = 2 * ls.length := h.size
  obtain ⟨ha, hfa⟩ := h.key a (by simp)
  obtain ⟨hb, hfb⟩ := h.key b (by simp)
  have hab := h.heads_distinct.1
  have htotal : a.nfreq.toNat + (b.nfreq.toNat + (q.map fun k => k.nfreq.toNat).sum) < 2 ^ 40 := by
    simpa using h.total
  have hsum : (a.nfreq + b.nfreq).toNat = a.nfreq.toNat + b.nfreq.toNat := by
    rw [BitVec.toNat_add, Nat.mod_eq_of_lt (by omega)]
  obtain ⟨l, r, hco, hlr⟩ := combine_eq co (a := a) (b := b) (by omega) (by omega)
  refine ⟨l, r, hco, hsum, by omega, _, l, r, nodeMem_append_read_new _ _, by omega, by omega, fun e => ?_, ?_⟩
  · subst e; omega
  · rw [hsum, freqAt, freqAt, nodeMem_append_read_old (by omega), nodeMem_append_read_old (by omega)]
    rcases hlr with ⟨el, er⟩ | ⟨el, er⟩ <;> rw [el, er, hfa, hfb]
    exact Nat.add_comm _ _

/-- One round (R135): the two extracted members get the new node as their one parent, and it takes their place. -/
theorem Forest.round {ls nodes : List Node} {a b : QueueKey} {q : Queue} (h : Forest ls nodes (a :: b :: q))
    (hn : ls.length ≤ 256) (co : Config.ChildOrder) :
    Forest ls (nodes ++ [combine co a b]) (q ++ [⟨a.nfreq + b.nfreq, nodes.length⟩]) := by
  have hsize : nodes.length + (q.length + 2) = 2 * ls.length := h.size
  have ha := (h.key a (by simp)).1
  have hb := (h.key b (by simp)).1
  obtain ⟨-, haq, hbq, hq⟩ := h.heads_distinct
  have hqlt : ∀ k ∈ q, k.index < nodes.length := fun k hk => (h.key k (by simp [hk])).1
  obtain ⟨l, r, hco, hsum, hchild, hsound⟩ := h.combine_sound hn co
  rw [hco]
  refine ⟨h.leaf, h.leavesFirst.trans ⟨_, rfl⟩, ?size, ?nodup, ?key, ?inner, ?queued, ?used, ?total⟩
  case size => simp only [List.length_append, List.length_singleton]; omega
  case nodup =>
    rw [List.map_append, List.map_singleton, List.nodup_append]
    refine ⟨hq, by simp, fun i hi j hj => ?_⟩
    obtain ⟨k, hk, rfl⟩ := List.mem_map.1 hi
    rw [List.mem_singleton.1 hj]
    exact Nat.ne_of_lt (hqlt k hk)
  case key =>
    intro k hk
    rcases List.mem_append.1 hk with hk | hk
    · obtain ⟨hlt, hf⟩ := h.key k (by simp [hk])
      rw [nodeMem_append_read_old hlt]
      exact ⟨by simp; omega, hf⟩
    · rw [List.mem_singleton.1 hk, nodeMem_append_read_new]
      exact ⟨by simp, rfl⟩
  case inner =>
    intro i hi hlt
    rw [List.length_append, List.length_singleton] at hlt
    rcases Nat.lt_or_ge i nodes.length with hold | hnew
    · exact (h.inner i hi hold).congr fun j hj => (nodeMem_append_read_old (by omega) _).symm
    · obtain rfl : i = nodes.length := by omega
      exact hsound
  case queued =>
    intro k hk i hpar
    rw [isParent_append_internal, hchild] at hpar
    rcases List.mem_append.1 hk with hk | hk
    · rcases hpar with hpar | ⟨-, e | e⟩
      · exact h.queued k (by simp [hk]) i hpar
      · exact haq (e ▸ List.mem_map_of_mem hk)
      · exact hbq (e ▸ List.mem_map_of_mem hk)
    · rw [List.mem_singleton.1 hk] at hpar
      rcases hpar with hpar | ⟨-, e | e⟩
      · exact Nat.lt_asymm (h.child_lt hpar) (lt_of_isParent_nodeMem hpar)
      · exact Nat.ne_of_gt ha e
      · exact Nat.ne_of_gt hb e
  case used =>
    intro j hj hjq
    rw [List.length_append, List.length_singleton] at hj
    rw [List.map_append, List.map_singleton, List.mem_append, List.mem_singleton, not_or] at hjq
    obtain ⟨hjq, hjne⟩ := hjq
    simp only [isParent_append_internal, hchild]
    by_cases hnew : j = a.index ∨ j = b.index
    · have hno : ∀ i, ¬ isParent (nodeMem nodes) i j := by
        rcases hnew with rfl | rfl
        · exact h.queued a (by simp)
        · exact h.queued b (by simp)
      exact ⟨nodes.length, .inr ⟨rfl, hnew⟩, fun i hi => (hi.resolve_left (hno i)).1⟩
    · have hlt : j < nodes.length := Nat.lt_of_le_of_ne (Nat.le_of_lt_succ hj) hjne
      have hout : j ∉ (a :: b :: q).map QueueKey.index := by
        simp only [List.map_cons, List.mem_cons, not_or] at hnew ⊢
        exact ⟨hnew.1, hnew.2, hjq⟩
      obtain ⟨i, hi, huniq⟩ := h.used j hlt hout
      exact ⟨i, .inl hi, fun i' hi' => huniq i' (hi'.resolve_right fun e => hnew e.2)⟩
  case total =>
    have htotal := h.total
    simp only [List.map_cons, List.sum_cons] at htotal
    simp only [List.map_append, List.map_cons, List.map_nil, List.sum_append, List.sum_cons, List.sum_nil, hsum]
    omega

/-- The queue of the leaves is a forest of single nodes (R134). -/
theorem Forest.init {ls : List Node} (hleaf : ∀ x ∈ ls, ∃ sym f, x = .leaf sym f)
    (htotal : (ls.map fun x => (nodeFreq x).toNat).sum < 2 ^ 40) : Forest ls ls (initialQueue ls) := by
  have hkey : ∀ k ∈ initialQueue ls, ∃ h : k.index < ls.length, k.nfreq = nodeFreq ls[k.index] := by
    intro k hk
    obtain ⟨⟨x, i⟩, hx, rfl⟩ := List.mem_map.1 hk
    obtain ⟨hi, e⟩ := List.mem_zipIdx' hx
    exact ⟨hi, congrArg nodeFreq e⟩
  have hindex : (initialQueue ls).map QueueKey.index = List.range ls.length := by
    rw [initialQueue, List.map_map, List.range_eq_range', ← List.zipIdx_map_snd 0 ls]
    rfl
  have hfreq : (initialQueue ls).map (fun k => k.nfreq.toNat) = ls.map fun x => (nodeFreq x).toNat := by
    conv_rhs => rw [← List.zipIdx_map_fst 0 ls, List.map_map]
    rw [initialQueue, List.map_map]
    rfl
  have hnone : ∀ i j, ¬ isParent (nodeMem ls) i j := by
    intro i j hp
    have hi := lt_of_isParent_nodeMem hp
    obtain ⟨sym, f, e⟩ := hleaf _ (List.getElem_mem hi)
    exact not_isParent_of_leaf ((nodeMem_read_of_lt hi).trans e) j hp
  refine ⟨hleaf, ⟨[], List.append_nil _⟩, ?size, ?nodup, ?key, ?inner, ?queued, ?used, hfreq ▸ htotal⟩
  case size => simp only [initialQueue, List.length_map, List.length_zipIdx]; omega
  case nodup => rw [hindex]; exact List.nodup_range
  case key =>
    intro k hk
    obtain ⟨hi, e⟩ := hkey k hk
    exact ⟨hi, by rw [nodeMem_read_of_lt hi, e]⟩
  case inner => exact fun i hi hlt => absurd hlt (Nat.not_lt_of_le hi)
  case queued => exact fun k _ i => hnone i _
  case used =>
    intro j hj hq
    rw [hindex] at hq
    exact absurd (List.mem_range.2 hj) hq

/-- The rounds end with one member in the queue: the number of leaves is fuel enough (R137). -/
theorem Forest.rounds {ls nodes : List Node} {q : Queue} (h : Forest ls nodes q) (hn : ls.length ≤ 256)
    (tb : Config.TieBreak) (co : Config.ChildOrder) {fuel : Nat} (hne : q ≠ []) (hf : q.length ≤ fuel + 1) :
    ∃ k, Forest ls (buildRounds tb co fuel nodes q).1 [k] := by
  induction fuel generalizing nodes q with
  | zero =>
    obtain ⟨k, rfl⟩ := List.length_eq_one_iff.1 (Nat.le_antisymm hf (List.length_pos_iff.2 hne))
    exact ⟨k, h⟩
  | succ fuel ih =>
    rw [buildRounds]
    cases ha : extractMin tb q with
    | none => exact absurd (extractMin_eq_none ha) hne
    | some p =>
      obtain ⟨a, q1⟩ := p
      have hpa := extractMin_perm ha
      cases hb : extractMin tb q1 with
      | none =>
        obtain rfl := extractMin_eq_none hb
        exact ⟨a, by simpa [hb] using h.perm hpa⟩
      | some p =>
        obtain ⟨b, q2⟩ := p
        have hpb : q.Perm (a :: b :: q2) := hpa.trans ((extractMin_perm hb).cons a)
        have hlen : q.length = q2.length + 2 := hpb.length_eq
        simp only [hb]
        exact ih ((h.perm hpb).round hn co) (by simp) (by simp; omega)

/-- The soundness of a tree depends on the records of its own nodes. -/
theorem TreeSound.congr {m m' : Mem Node} {nn : Nat} (h : TreeSound m nn)
    (e : ∀ i < nn, m.read Node.zero i = m'.read Node.zero i) : TreeSound m' nn := by
  obtain ⟨hodd, hmax, hleaf, hasc, hin, hpar, hroot⟩ := h
  have hp : ∀ i < nn, ∀ j, isParent m i j ↔ isParent m' i j := fun i hi => isParent_congr (e i hi)
  have hpos : (nn + 1) / 2 ≤ nn := by omega
  refine ⟨hodd, hmax, fun i hi => ?_, fun i j sym sym' f f' hij hj hi' hj' => ?_, fun i hi hlt => ?_, fun j hj => ?_,
    fun i hi => mt (hp i hi _).2 (hroot i hi)⟩
  · rw [← e i (by omega)]
    exact hleaf i hi
  · rw [← e _ (by omega)] at hi' hj'
    exact hasc i j sym sym' f f' hij hj hi' hj'
  · have hi' : SoundInternal m i := hin i hi hlt
    exact hi'.congr fun j hj => e j (by omega)
  · obtain ⟨i, ⟨hi, hij⟩, huniq⟩ := hpar j hj
    exact ⟨i, ⟨hi, (hp i hi j).1 hij⟩, fun i' hi' hij' => huniq i' hi' ((hp i' hi' j).2 hij')⟩

/-- A forest with one member in the queue is a sound tree with the last node at its root (R41, R137). -/
theorem Forest.treeSound {ls nodes : List Node} {k : QueueKey} (h : Forest ls nodes [k]) (hn : ls.length ≤ 256)
    (hasc : ls.Pairwise fun x y => ∀ sym sym' f f', x = .leaf sym f → y = .leaf sym' f' → sym.toNat < sym'.toNat) :
    TreeSound (nodeMem nodes) nodes.length := by
  have hsize : nodes.length + 1 = 2 * ls.length := h.size
  have hlast : nodes.length - 1 = k.index := by
    by_contra hne
    obtain ⟨i, hi, -⟩ := h.used (nodes.length - 1) (by omega) (by simpa using hne)
    have := h.child_lt hi
    have := lt_of_isParent_nodeMem hi
    omega
  have hhalf : (nodes.length + 1) / 2 = ls.length := by omega
  have hmax : Config.maxNodes = 511 := rfl
  refine ⟨by omega, by omega, fun i hi => ?leaf, fun i j sym sym' f f' hij hj hi' hj' => ?asc, ?inner,
    fun j hj => ?parent, fun i _ => hlast ▸ h.queued k (by simp) i⟩
  case leaf =>
    rw [h.read_leaf (hhalf ▸ hi)]
    exact h.leaf _ (List.getElem_mem _)
  case asc =>
    rw [hhalf] at hj
    rw [h.read_leaf (by omega)] at hi'
    rw [h.read_leaf hj] at hj'
    exact List.pairwise_iff_getElem.1 hasc i j _ hj hij sym sym' f f' hi' hj'
  case inner => rw [hhalf]; exact h.inner
  case parent =>
    obtain ⟨i, hi, huniq⟩ := h.used j (by omega) (by simp; omega)
    exact ⟨i, ⟨lt_of_isParent_nodeMem hi, hi⟩, fun i' _ hi' => huniq i' hi'⟩

/-! The leaves of a frequency table. -/

theorem leaves_length_le (f : Mem Word) : (leaves f).length ≤ 256 := by
  rw [leaves, List.length_map, presentSymbols]
  exact (List.length_filter_le _ _).trans (by simp [Config.nsym])

theorem lt_of_mem_presentSymbols {f : Mem Word} {i : Nat} (h : i ∈ presentSymbols f) : i < 256 :=
  List.mem_range.1 (List.mem_filter.1 h).1

theorem presentSymbols_ascending (f : Mem Word) : (presentSymbols f).Pairwise (· < ·) :=
  List.pairwise_lt_range.filter _

theorem leaves_are_leaves (f : Mem Word) : ∀ x ∈ leaves f, ∃ sym g, x = .leaf sym g := by
  intro x hx
  obtain ⟨i, -, rfl⟩ := List.mem_map.1 hx
  exact ⟨_, _, rfl⟩

theorem leaves_ascending (f : Mem Word) : (leaves f).Pairwise fun x y =>
    ∀ sym sym' g g', x = .leaf sym g → y = .leaf sym' g' → sym.toNat < sym'.toNat := by
  refine List.pairwise_map.2 ((presentSymbols_ascending f).imp_of_mem fun {i j} hi hj hij => ?_)
  intro sym sym' g g' e e'
  cases e
  cases e'
  have hi := lt_of_mem_presentSymbols hi
  have hj := lt_of_mem_presentSymbols hj
  simpa [Nat.mod_eq_of_lt hi, Nat.mod_eq_of_lt hj] using hij

/-- The 40 bits of NFREQ hold the sum of all counts (R141). -/
theorem leaves_total_lt (f : Mem Word) : ((leaves f).map fun x => (nodeFreq x).toNat).sum < 2 ^ 40 := by
  have hone : ∀ n ∈ (leaves f).map fun x => (nodeFreq x).toNat, n ≤ 2 ^ 32 - 1 := by
    intro n hn
    obtain ⟨x, hx, rfl⟩ := List.mem_map.1 hn
    obtain ⟨i, -, rfl⟩ := List.mem_map.1 hx
    have := (f.read 0#32 i).isLt
    simp only [leafOf, nodeFreq, BitVec.toNat_setWidth]
    omega
  have hsum := List.sum_le_card_nsmul _ _ hone
  have hlen := leaves_length_le f
  rw [List.length_map, smul_eq_mul] at hsum
  omega

/-- The nodes BUILD makes over a table with a count: 2n - 1 of them, and they form a sound tree. -/
theorem buildNodes_sound (tb : Config.TieBreak) (co : Config.ChildOrder) {f : Mem Word} (hne : leaves f ≠ []) :
    (buildNodes tb co f).length = 2 * (leaves f).length - 1 ∧
      TreeSound (nodeMem (buildNodes tb co f)) (buildNodes tb co f).length := by
  have hlen : (initialQueue (leaves f)).length = (leaves f).length := by simp [initialQueue]
  obtain ⟨k, hk⟩ := (Forest.init (leaves_are_leaves f) (leaves_total_lt f)).rounds (leaves_length_le f) tb co
    (fuel := (leaves f).length) (by rwa [← List.length_pos_iff, hlen, List.length_pos_iff]) (by omega)
  have hsize : (buildNodes tb co f).length + 1 = 2 * (leaves f).length := hk.size
  exact ⟨by omega, hk.treeSound (leaves_length_le f) (leaves_ascending f)⟩

/-- What a BUILD that completes leaves in NODE, `NNODES` and `ROOT` is a sound tree, for every tie-break and child
order (R41). -/
theorem buildTree_sound {tb : Config.TieBreak} {co : Config.ChildOrder} {s t : State}
    (h : buildTree tb co s = .completed t) :
    t.nnodes ≠ 0#10 ∧ t.root.toNat = t.nnodes.toNat - 1 ∧ TreeSound t.node t.nnodes.toNat := by
  have hle := leaves_length_le s.freq
  by_cases hz : (leaves s.freq).length = 0
  · rw [buildTree, if_pos hz] at h
    exact absurd h (raiseFailure_ne_completed _ _ _ _ _)
  · rw [buildTree, if_neg hz] at h
    obtain ⟨hlen, hsound⟩ := buildNodes_sound tb co (f := s.freq) (by rintro e; simp [e] at hz)
    have hnn : (BitVec.ofNat 10 (2 * (leaves s.freq).length - 1)).toNat = 2 * (leaves s.freq).length - 1 := by
      rw [BitVec.toNat_ofNat, Nat.mod_eq_of_lt (by omega)]
    have hroot : (BitVec.ofNat 9 (2 * (leaves s.freq).length - 2)).toNat = 2 * (leaves s.freq).length - 2 := by
      rw [BitVec.toNat_ofNat, Nat.mod_eq_of_lt (by omega)]
    cases h
    simp only [State.setTree_nnodes, State.setTree_root, State.setTree_node, hnn, hroot]
    refine ⟨fun e => ?_, by omega, ?_⟩
    · rw [e] at hnn
      simp only [BitVec.toNat_ofNat] at hnn
      omega
    · rw [← hlen]
      refine hsound.congr fun i hi => ?_
      rw [nodeMem_read, Mem.read_writeFrom, if_pos ⟨Nat.zero_le _, by omega⟩, Nat.sub_zero]

/-- Settles O29: the rounds keep a forest over the leaves, which ends as a sound tree, and no step of the proof looks
at which members the tie-break extracts or on which side they are put. -/
theorem buildIsSoundForEveryTieBreak : Obligations.BuildIsSoundForEveryTieBreak := by
  unfold Obligations.BuildIsSoundForEveryTieBreak
  exact fun _ _ _ _ h => (buildTree_sound h).2

/-! The tree invariant over a step. -/

theorem reset_treeInvariant : State.reset.TreeInvariant := ⟨fun _ => rfl, fun h => absurd rfl h⟩

theorem State.TreeInvariant.congr {s t : State} (h : s.TreeInvariant)
    (e : t.node = s.node ∧ t.nnodes = s.nnodes ∧ t.root = s.root) : t.TreeInvariant := by
  obtain ⟨en, ec, er⟩ := e
  rwa [State.TreeInvariant, en, ec, er]

theorem State.TreeInvariant.invalidate {s : State} (h : s.TreeInvariant) (p : Primitive) :
    (invalidate p s).TreeInvariant := by
  by_cases hp : p = .build
  · subst hp
    exact ⟨fun _ => rfl, fun h => absurd rfl h⟩
  · exact h.congr ⟨by simp, by rw [invalidate_nnodes, if_neg hp], by rw [invalidate_root, if_neg hp]⟩

theorem State.TreeInvariant.completed {s s' : State} (h : s.TreeInvariant) {p : Primitive}
    (hr : runStage p s = .completed s') : s'.TreeInvariant := by
  have hframe := (runStage_frame p s).tree
  rw [hr, StageResult.state_completed] at hframe
  by_cases hclr : p = .clr
  · subst hclr
    cases hr
    exact reset_treeInvariant
  · by_cases hbuild : p = .build
    · subst hbuild
      obtain ⟨hne, hroot, hsound⟩ := buildTree_sound (show buildTree tieBreak childOrder s = .completed s' from hr)
      exact ⟨fun e => absurd e hne, fun _ => ⟨hroot, hsound⟩⟩
    · exact h.congr (hframe (by simp [hclr, hbuild]))

/-- Settles O15: a BUILD that completes makes a sound tree, a BUILD that fails or does not run leaves none, and
nothing else but CLR and reset touches the tree. -/
theorem stepKeepsTreeInvariant : Obligations.StepKeepsTreeInvariant := by
  unfold Obligations.StepKeepsTreeInvariant
  intro s s' hs h
  exact step_keeps (P := State.TreeInvariant) (fun _ _ _ _ _ _ _ _ h => h) reset_treeInvariant
    (fun _ _ _ hr h => h.completed hr) (fun p _ h => h.invalidate p)
    (fun t sp s _ _ _ h => h.congr (writeElement_tree s sp _ _)) hs h

end Sys2Proof.Machine
end

section
namespace Sys2Proof.Machine

/-! ## Lengths within the capacities, spaces canonical (R29 to R32, R38) -/

/-- The invariant of StepKeepsSpacesAndLengths. -/
def State.Bounded (s : State) : Prop := s.LengthsInRange ∧ s.SpacesCanonical

/-- A space in canonical form with no index beyond its size. -/
def Mem.Good {α : Type} (z : α) (size : Nat) (m : Mem α) : Prop := Mem.Wf z m ∧ m.Below size

theorem Mem.good_cleared {α : Type} (z : α) (size : Nat) : Mem.Good z size Mem.cleared :=
  ⟨⟨List.Pairwise.nil, fun _ h => absurd h List.not_mem_nil⟩, fun _ h => absurd h List.not_mem_nil⟩

theorem Mem.Good.write {α : Type} [DecidableEq α] {z : α} {size : Nat} {m : Mem α} (h : Mem.Good z size m) {i : Nat}
    (hi : i < size) (v : α) : Mem.Good z size (m.write z i v) :=
  ⟨Mem.write_wf h.1 i v, Mem.write_below h.2 hi v⟩

theorem Mem.Good.writeFrom {α : Type} [DecidableEq α] {z : α} {size : Nat} {m : Mem α} (h : Mem.Good z size m)
    {base : Nat} {vs : List α} (hb : base + vs.length ≤ size) : Mem.Good z size (m.writeFrom z base vs) :=
  ⟨Mem.writeFrom_wf h.1 base vs, Mem.writeFrom_below h.2 base vs hb⟩

theorem infoWord_toNat_le (n : Nat) : (infoWord n).toNat ≤ n := by
  rw [infoWord_toNat]; exact Nat.mod_le _ _

/-! What each update of the state asks for. -/

theorem reset_bounded : State.reset.Bounded := by
  unfold State.Bounded State.LengthsInRange State.SpacesCanonical
  decide

theorem State.Bounded.setFreq {s : State} (h : s.Bounded) {f : Mem Word} (hf : Mem.Good 0#32 Config.nsym f) :
    (s.setFreq f).Bounded := by
  obtain ⟨hl, ht, -, hrest⟩ := h
  exact ⟨hl, ht, hf, hrest⟩

theorem State.Bounded.setTree {s : State} (h : s.Bounded) {m : Mem Node} (hm : Mem.Good Node.zero Config.maxNodes m)
    (n : BitVec 10) (r : NodeIndex) : (s.setTree m n r).Bounded := by
  obtain ⟨hl, ht, hf, -, hrest⟩ := h
  exact ⟨hl, ht, hf, hm, hrest⟩

theorem State.Bounded.setTable {s : State} (h : s.Bounded) {l : Mem Byte} {b : Mem CodeWord}
    (hl : Mem.Good 0#8 Config.nsym l) (hb : Mem.Good 0#255 Config.nsym b) : (s.setTable l b).Bounded := by
  obtain ⟨hlen, ht, hf, hn, -, -, hrest⟩ := h
  exact ⟨hlen, ht, hf, hn, hl, hb, hrest⟩

theorem State.Bounded.setBlen {s : State} (h : s.Bounded) {n : Word} (hn : n.toNat ≤ Config.bitsCap) :
    (s.setBlen n).Bounded := by
  obtain ⟨⟨htl, -, hrest⟩, hsp⟩ := h
  exact ⟨⟨htl, hn, hrest⟩, hsp⟩

theorem State.Bounded.setBits {s : State} (h : s.Bounded) {m : Mem Bool} {n : Word}
    (hm : Mem.Good false Config.bitsCap m) (hn : n.toNat ≤ Config.bitsCap) : (s.setBits m n).Bounded := by
  obtain ⟨⟨htl, -, hlens⟩, ht, hf, hnode, hl, hb, -, hrest⟩ := h
  exact ⟨⟨htl, hn, hlens⟩, ht, hf, hnode, hl, hb, hm, hrest⟩

theorem State.Bounded.setPacked {s : State} (h : s.Bounded) {m : Mem Byte} {n : Word}
    (hm : Mem.Good 0#8 Config.packCap m) (hn : n.toNat ≤ Config.packCap) : (s.setPacked m n).Bounded := by
  obtain ⟨⟨htl, hbl, -, hol⟩, ht, hf, hnode, hl, hb, hbits, -, hout⟩ := h
  exact ⟨⟨htl, hbl, hn, hol⟩, ht, hf, hnode, hl, hb, hbits, hm, hout⟩

theorem State.Bounded.setOut {s : State} (h : s.Bounded) {m : Mem Byte} {n : Word}
    (hm : Mem.Good 0#8 Config.outCap m) (hn : n.toNat ≤ Config.outCap) : (s.setOut m n).Bounded := by
  obtain ⟨⟨htl, hbl, hpl, -⟩, ht, hf, hnode, hl, hb, hbits, hp, -⟩ := h
  exact ⟨⟨htl, hbl, hpl, hn⟩, ht, hf, hnode, hl, hb, hbits, hp, hm⟩

theorem State.Bounded.invalidate {s : State} (h : s.Bounded) (p : Primitive) : (invalidate p s).Bounded := by
  obtain ⟨⟨htl, hbl, hpl, hol⟩, hsp⟩ := id h
  obtain ⟨ht, hf, hnode, -, hrest⟩ := hsp
  cases p with
  | nop | clr | count | build | pad | expand | strip => exact h
  | gen => exact ⟨h.1, ht, hf, hnode, Mem.good_cleared _ _, hrest⟩
  | map => exact ⟨⟨htl, Nat.zero_le _, hpl, hol⟩, h.2⟩
  | pack => exact ⟨⟨htl, hbl, Nat.zero_le _, hol⟩, h.2⟩
  | matchCodes => exact ⟨⟨htl, hbl, hpl, Nat.zero_le _⟩, h.2⟩

/-! What the stages write: how long it is, and that it is canonical. -/

theorem countText_good (text : List Byte) : Mem.Good 0#32 Config.nsym (countText text) := by
  have hstep : ∀ (f : Mem Word) (a : Byte), Mem.Good 0#32 Config.nsym f →
      Mem.Good 0#32 Config.nsym (countSymbol f a) := by
    intro f a hf
    unfold countSymbol
    split
    · exact hf.write a.isLt _
    · exact hf
  have hfold : ∀ (l : List Byte) (f : Mem Word), Mem.Good 0#32 Config.nsym f →
      Mem.Good 0#32 Config.nsym (l.foldl countSymbol f) := by
    intro l
    induction l with
    | nil => exact fun _ hf => hf
    | cons a l ih => exact fun f hf => ih _ (hstep f a hf)
  exact hfold text _ (Mem.good_cleared _ _)

/-- A code table with both spaces canonical and within their sizes. -/
def CodeTable.Good (t : CodeTable) : Prop := Mem.Good 0#8 Config.nsym t.codelen ∧ Mem.Good 0#255 Config.nsym t.codebits

theorem emptyTable_good : emptyTable.Good := ⟨Mem.good_cleared _ _, Mem.good_cleared _ _⟩

theorem CodeTable.Good.recordCode {t : CodeTable} (h : t.Good) (sym : Byte) (path : BitSeq) :
    (recordCode sym path t).Good :=
  ⟨h.1.write sym.isLt _, h.2.write sym.isLt _⟩

theorem CodeTable.Good.visit (m : Mem Node) (depth : Nat) {t : CodeTable} (h : t.Good) (i : Nat) (path : BitSeq) :
    (visit m depth i path t).Good := by
  induction depth generalizing i path t with
  | zero => exact h
  | succ depth ih =>
    rw [Machine.visit]
    split
    · exact h.recordCode _ _
    · exact ih (ih h _ _) _ _

theorem tableOfTree_good (m : Mem Node) (root : Nat) : (tableOfTree m root).Good := by
  unfold tableOfTree
  split
  · exact emptyTable_good.recordCode _ _
  · exact emptyTable_good.visit _ _ _ _

theorem payload_length (s : State) : (payload s).length = payloadLength s := by
  simp [payload, payloadLength, List.length_flatMap, codeOf]

theorem padCount_bounds (b : Nat) : 1 ≤ padCount b ∧ padCount b ≤ 8 := by
  have := Nat.mod_lt b (show 0 < 8 by decide)
  simp only [padCount, Config.byteBits]
  omega

theorem padBits_length (b : Nat) : (padBits b).length = padCount b := by
  have := (padCount_bounds b).1
  simp only [padBits, List.length_cons, List.length_replicate]
  omega

theorem expanded_length (s : State) : ((packedBytes s).flatMap bitsOfByte).length = 8 * s.plen.toNat := by
  have hbyte : ∀ v, (bitsOfByte v).length = 8 := fun v => by simp [bitsOfByte, Config.byteBits]
  simp [List.length_flatMap, hbyte, packedBytes, Nat.mul_comm]

theorem bitSequence_length (s : State) : (bitSequence s).length = s.blen.toNat := Mem.slice_length _ _ _ _

theorem lastOne_lt {b : BitSeq} {p : Nat} (h : lastOne b = some p) : p < b.length := by
  induction b generalizing p with
  | nil => cases h
  | cons x b ih =>
    rw [lastOne] at h
    split at h
    · next q hq =>
      cases h
      exact Nat.succ_lt_succ (ih hq)
    · split at h <;> cases h
      exact Nat.succ_pos _

/-- MATCH emits no more symbols than fit (R203). -/
theorem scan_decoded_length {look : BitSeq → Option Byte} {cap : Nat} {b : BitSeq} {i : Nat} {cand : BitSeq}
    {start emitted : Nat} {syms : List Byte} (he : emitted ≤ cap)
    (h : scan look cap b i cand start emitted = .decoded syms) : emitted + syms.length ≤ cap := by
  induction b generalizing i cand start emitted syms with
  | nil =>
    rw [scan] at h
    split at h <;> cases h
    exact he
  | cons x b ih =>
    rw [scan] at h
    split at h
    · exact ih he h
    · split at h
      · cases h
      · next hne =>
        cases hs : scan look cap b (i + 1) [] (i + 1) (emitted + 1) with
        | decoded l =>
          rw [hs] at h
          cases h
          have := ih (by omega) hs
          simp only [List.length_cons]
          omega
        | dangling n => rw [hs] at h; cases h
        | overflow n => rw [hs] at h; cases h

/-- A stage that completes has written a list that fits in its space, and a length within its capacity. -/
theorem State.Bounded.completed {s s' : State} (h : s.Bounded) {p : Primitive} (hr : runStage p s = .completed s') :
    s'.Bounded := by
  have hcap : Config.bitsCap = 524288 ∧ Config.packCap = 65536 := ⟨rfl, rfl⟩
  obtain ⟨⟨-, hblen, hplen, -⟩, -, -, hnode, -, -, hbits, hpacked, hout⟩ := id h
  cases p with
  | nop => cases hr; exact h
  | clr => cases hr; exact reset_bounded
  | count => cases hr; exact h.setFreq (countText_good _)
  | build =>
    rcases runStage_build s with ⟨-, e⟩ | ⟨hne, e⟩ <;> rw [e] at hr <;> cases hr
    have hlen := (buildNodes_sound tieBreak childOrder hne).1
    have hmax : (leaves s.freq).length ≤ 256 ∧ Config.maxNodes = 511 := ⟨leaves_length_le _, rfl⟩
    exact h.setTree (Mem.Good.writeFrom hnode (by omega)) _ _
  | gen =>
    rcases runStage_gen s with ⟨-, e⟩ | ⟨-, e⟩ <;> rw [e] at hr <;> cases hr
    exact h.setTable (tableOfTree_good _ _).1 (tableOfTree_good _ _).2
  | map =>
    rcases runStage_map s with ⟨-, e⟩ | ⟨hle, e⟩ <;> rw [e] at hr <;> cases hr
    exact h.setBits (Mem.Good.writeFrom hbits (by rw [payload_length]; omega)) ((infoWord_toNat_le _).trans hle)
  | pad =>
    rcases runStage_pad s with ⟨-, e⟩ | ⟨hle, e⟩ <;> rw [e] at hr <;> cases hr
    exact h.setBits (Mem.Good.writeFrom hbits (by rw [padBits_length]; exact hle)) ((infoWord_toNat_le _).trans hle)
  | pack =>
    rcases runStage_pack s with ⟨-, e⟩ | ⟨-, e⟩ <;> rw [e] at hr <;> cases hr
    exact h.setPacked (Mem.Good.writeFrom hpacked (by rw [List.length_map, List.length_range]; omega))
      ((infoWord_toNat_le _).trans (by omega))
  | expand =>
    rw [runStage_expand] at hr
    cases hr
    exact h.setBits (Mem.Good.writeFrom hbits (by rw [expanded_length]; omega))
      ((infoWord_toNat_le _).trans (by omega))
  | strip =>
    rcases runStage_strip s with ⟨-, e⟩ | ⟨n, hn, e⟩ <;> rw [e] at hr <;> cases hr
    have hlt := bitSequence_length s ▸ lastOne_lt hn
    exact h.setBlen ((infoWord_toNat_le _).trans (by omega))
  | matchCodes =>
    rcases runStage_match s with ⟨syms, hscan, e⟩ | ⟨_, -, e⟩ | ⟨_, -, e⟩ <;> rw [e] at hr <;> cases hr
    have hlen := scan_decoded_length (Nat.zero_le _) hscan
    exact h.setOut (Mem.Good.writeFrom hout hlen) ((infoWord_toNat_le _).trans (by omega))

/-- A host write that gets no bus error: the index is inside the space and a length is within its capacity (R66). -/
theorem State.Bounded.writeElement {s : State} (h : s.Bounded) {sp : Space} {i : Nat} {d : PortData}
    (hi : i < spaceSize sp) (hlen : lengthTooGreat sp i d = false) : (writeElement s sp i d).Bounded := by
  obtain ⟨⟨htl, hbl, hpl, hol⟩, htext, hfreq, hnode, hcl, hcb, hbits, hpacked, hout⟩ := id h
  have hlimit : ∀ r limit, sp = .csr → csrOf i = some r → lengthLimit r = some limit →
      (d.setWidth 32).toNat ≤ limit := by
    rintro r limit rfl hr hl
    simpa [lengthTooGreat, targetCsr, hr, hl] using hlen
  have hw := writeElement_hostWrite s sp i d
  generalize Machine.writeElement s sp i d = t at hw ⊢
  cases hw with
  | unchanged => exact h
  | cmd | esticky => exact h
  | tlen hr => exact ⟨⟨hlimit _ _ rfl hr rfl, hbl, hpl, hol⟩, h.2⟩
  | blen hr => exact ⟨⟨htl, hlimit _ _ rfl hr rfl, hpl, hol⟩, h.2⟩
  | plen hr => exact ⟨⟨htl, hbl, hlimit _ _ rfl hr rfl, hol⟩, h.2⟩
  | text => exact ⟨h.1, Mem.Good.write htext hi _, hfreq, hnode, hcl, hcb, hbits, hpacked, hout⟩
  | freq => exact ⟨h.1, htext, Mem.Good.write hfreq hi _, hnode, hcl, hcb, hbits, hpacked, hout⟩
  | codelen => exact ⟨h.1, htext, hfreq, hnode, Mem.Good.write hcl hi _, hcb, hbits, hpacked, hout⟩
  | codebits => exact ⟨h.1, htext, hfreq, hnode, hcl, Mem.Good.write hcb hi _, hbits, hpacked, hout⟩
  | bits => exact ⟨h.1, htext, hfreq, hnode, hcl, hcb, Mem.Good.write hbits hi _, hpacked, hout⟩
  | packed => exact ⟨h.1, htext, hfreq, hnode, hcl, hcb, hbits, Mem.Good.write hpacked hi _, hout⟩

/-- Settles O14: every stage writes a list that fits in its space, and a length within its capacity; a host write is
held to both by its bus errors. -/
theorem stepKeepsSpacesAndLengths : Obligations.StepKeepsSpacesAndLengths := by
  unfold Obligations.StepKeepsSpacesAndLengths
  intro s s' hl hsp h
  exact step_keeps (P := State.Bounded) (fun _ _ _ _ _ _ _ _ h => h) reset_bounded (fun _ _ _ hr h => h.completed hr)
    (fun p _ h => h.invalidate p)
    (fun _ _ _ hsp hwe hb h => h.writeElement (index_lt_of_not_busError hsp hb)
      (not_lengthTooGreat_of_not_busError hsp hwe hb)) ⟨hl, hsp⟩ h

end Sys2Proof.Machine
end

section
namespace Sys2Proof.Machine

/-! ## The failure registers over a command (R25 to R28, R244, R246) -/

/-- The failures a primitive can raise (R244). -/
def raisedBy : Primitive → List ErrorKind
  | .nop | .clr | .count | .expand => []
  | .build => [.emptyFreq]
  | .gen => [.noTree]
  | .map | .pad => [.capacity]
  | .pack => [.unaligned]
  | .strip => [.noSentinel]
  | .matchCodes => [.undecodable, .capacity]

/-- A stage that fails has taken one of its own failures (R244, R246). -/
theorem runStage_failed_raises {p : Primitive} {s s' : State} (h : runStage p s = .failed s') :
    ∃ e ∈ raisedBy p, ∃ n, raiseFailure p e n s = .failed s' := by
  cases p with
  | nop | clr | count | expand => cases h
  | build =>
    rcases runStage_build s with ⟨-, e⟩ | ⟨-, e⟩ <;> rw [e] at h <;> cases h
    exact ⟨_, List.mem_singleton_self _, _, rfl⟩
  | gen =>
    rcases runStage_gen s with ⟨-, e⟩ | ⟨-, e⟩ <;> rw [e] at h <;> cases h
    exact ⟨_, List.mem_singleton_self _, _, rfl⟩
  | map =>
    rcases runStage_map s with ⟨-, e⟩ | ⟨-, e⟩ <;> rw [e] at h <;> cases h
    exact ⟨_, List.mem_singleton_self _, _, rfl⟩
  | pad =>
    rcases runStage_pad s with ⟨-, e⟩ | ⟨-, e⟩ <;> rw [e] at h <;> cases h
    exact ⟨_, List.mem_singleton_self _, _, rfl⟩
  | pack =>
    rcases runStage_pack s with ⟨-, e⟩ | ⟨-, e⟩ <;> rw [e] at h <;> cases h
    exact ⟨_, List.mem_singleton_self _, _, rfl⟩
  | strip =>
    rcases runStage_strip s with ⟨-, e⟩ | ⟨_, -, e⟩ <;> rw [e] at h <;> cases h
    exact ⟨_, List.mem_singleton_self _, _, rfl⟩
  | matchCodes =>
    rcases runStage_match s with ⟨_, -, e⟩ | ⟨_, -, e⟩ | ⟨_, -, e⟩ <;> rw [e] at h <;> cases h
    · exact ⟨.undecodable, by simp [raisedBy], _, rfl⟩
    · exact ⟨.capacity, by simp [raisedBy], _, rfl⟩

/-- The failure registers of `t` are those of `s`. -/
def SameFailureRegisters (s t : State) : Prop :=
  t.err = s.err ∧ t.errstage = s.errstage ∧ t.errinfo = s.errinfo ∧ t.esticky = s.esticky

/-- The failure registers of `t` name a failure that one of the primitives `ps` can raise. -/
def ShowsFailureOf (ps : List Primitive) (t : State) : Prop :=
  ∃ p ∈ ps, ∃ e ∈ raisedBy p, t.err = errorCode e ∧ t.errstage = primitiveOpcode p ∧ t.esticky = 1#1

/-- A stage that completes leaves the failure registers, CLR apart (R113, R245). -/
theorem runStage_completed_registers {p : Primitive} (hp : p ≠ .clr) {s s' : State}
    (h : runStage p s = .completed s') : SameFailureRegisters s s' := by
  rcases runStage_completed_cases h with ⟨-, rfl⟩ | ⟨hclr, -⟩ | ⟨-, _, rfl⟩ | ⟨-, _, _, _, rfl⟩ | ⟨-, _, _, rfl⟩ |
    ⟨-, _, _, rfl⟩ | ⟨-, _, _, rfl⟩ | ⟨-, _, rfl⟩ | ⟨-, _, _, rfl⟩
  case inr.inl => exact absurd hclr hp
  all_goals exact ⟨rfl, rfl, rfl, rfl⟩

/-- Without a CLR among its stages a command leaves the failure registers, or they show the failure of the stage that
ended it: the invalidation of the later stages does not touch them (R116, R248). -/
theorem runStages_failureRegisters {ps : List Primitive} (hps : Primitive.clr ∉ ps) (s : State) :
    SameFailureRegisters s (runStages ps s) ∨ ShowsFailureOf ps (runStages ps s) := by
  induction ps generalizing s with
  | nil => exact .inl ⟨rfl, rfl, rfl, rfl⟩
  | cons p ps ih =>
    obtain ⟨hp, hps⟩ := not_or.1 (mt List.mem_cons.2 hps)
    rcases runStages_cons p ps s with ⟨s', h, e⟩ | ⟨s', h, e⟩ <;> rw [e]
    · obtain ⟨he, hst, hi, hstk⟩ := runStage_completed_registers (Ne.symm hp) h
      rcases ih hps s' with ⟨he', hst', hi', hstk'⟩ | ⟨q, hq, hfail⟩
      · exact .inl ⟨he'.trans he, hst'.trans hst, hi'.trans hi, hstk'.trans hstk⟩
      · exact .inr ⟨q, List.mem_cons_of_mem _ hq, hfail⟩
    · obtain ⟨k, hk, n, hraise⟩ := runStage_failed_raises h
      obtain ⟨he, hst, -, hstk⟩ := raiseFailure_registers hraise
      obtain ⟨he', hst', -, hstk', -⟩ := invalidateAll_registers ps s'
      exact .inr ⟨p, List.mem_cons_self, k, hk, he'.trans he, hst'.trans hst, hstk'.trans hstk⟩

/-- After a command that dispatch has started: no error, and `ESTICKY` kept or cleared by CLR; or the failure of one of
its stages. -/
theorem command_failureRegisters (i : Instr) (w : Word) (s : State) {t : State}
    (ht : t = runStages (stagesOf i) (startCommand w s)) :
    ((t.err = 0#4 ∧ t.errstage = 0#4 ∧ t.errinfo = 0#32) ∧ (t.esticky = s.esticky ∨ (i = .clr ∧ t.esticky = 0#1))) ∨
    ShowsFailureOf (stagesOf i) t := by
  subst ht
  by_cases hi : i = .clr
  · subst hi
    exact .inl ⟨⟨rfl, rfl, rfl⟩, .inr ⟨rfl, rfl⟩⟩
  · have hps : Primitive.clr ∉ stagesOf i := by revert hi; cases i <;> decide
    rcases runStages_failureRegisters hps (startCommand w s) with ⟨he, hst, hinfo, hstk⟩ | h
    · exact .inl ⟨⟨he, hst, hinfo⟩, .inl hstk⟩
    · exact .inr h

theorem ShowsFailureOf.err_ne {ps : List Primitive} {t : State} (h : ShowsFailureOf ps t) : t.err ≠ 0#4 := by
  obtain ⟨p, -, e, -, he, -⟩ := h
  exact he ▸ errorCode_ne_zero e

theorem ShowsFailureOf.esticky {ps : List Primitive} {t : State} (h : ShowsFailureOf ps t) : t.esticky = 1#1 := by
  obtain ⟨p, -, e, -, -, -, hstk⟩ := h
  exact hstk

/-! When the failure registers agree (R25 to R27, R97). -/

theorem agree_of_no_failure {t : State} (h : t.err = 0#4 ∧ t.errstage = 0#4 ∧ t.errinfo = 0#32)
    (hcmd : t.cmd.toNat < 14) : t.FailureRegistersAgree := by
  obtain ⟨he, hst, hinfo⟩ := h
  have h7 : t.err ≠ 7#4 := by rw [he]; decide
  exact ⟨fun _ => ⟨hst, hinfo⟩, fun hne => absurd he hne, iff_of_false h7 (Nat.not_le_of_lt hcmd), fun h => absurd h h7⟩

/-- No primitive raises ILLEGAL, and each is among the stages of its failures (R244). -/
theorem stage_mem_stagesOfError {p : Primitive} {e : ErrorKind} (h : e ∈ raisedBy p) :
    errorCode e ≠ 7#4 ∧ (primitiveOpcode p).toNat ∈ stagesOfError (errorCode e).toNat := by
  revert h
  cases p <;> cases e <;> decide

theorem agree_of_failure {ps : List Primitive} {t : State} (h : ShowsFailureOf ps t) (hcmd : t.cmd.toNat < 14) :
    t.FailureRegistersAgree := by
  have hne := h.err_ne
  obtain ⟨p, -, e, hmem, he, hst, -⟩ := h
  obtain ⟨h7, hstage⟩ := stage_mem_stagesOfError hmem
  rw [← he] at h7
  exact ⟨fun h0 => absurd h0 hne, fun _ => by rw [he, hst]; exact hstage,
    iff_of_false h7 (Nat.not_le_of_lt hcmd), fun h => absurd h h7⟩

theorem illegalCommand_agrees {w : Word} (hw : 14 ≤ w.toNat) (s : State) :
    (illegalCommand w (startCommand w s)).FailureRegistersAgree :=
  ⟨fun h => absurd h (errorCode_ne_zero .illegal), fun _ => List.mem_range.2 (splitWord w).opc.isLt,
    iff_of_true rfl hw, fun _ => ⟨splitWord_opc_toNat w, rfl⟩⟩

/-- The agreement is about five registers. -/
theorem State.FailureRegistersAgree.congr {s t : State} (h : s.FailureRegistersAgree)
    (e : t.cmd = s.cmd ∧ t.err = s.err ∧ t.errstage = s.errstage ∧ t.errinfo = s.errinfo) :
    t.FailureRegistersAgree := by
  obtain ⟨ec, ee, es, ei⟩ := e
  rwa [State.FailureRegistersAgree, ec, ee, es, ei]

theorem reset_failureRegistersAgree : State.reset.FailureRegistersAgree :=
  agree_of_no_failure ⟨rfl, rfl, rfl⟩ (by decide)

/-- Settles O16: dispatch clears the failure registers, a legal command leaves them so or shows the failure of one of
its stages, an illegal word shows ILLEGAL, and nothing else writes them or `CMD`. -/
theorem stepKeepsFailureRegistersInAgreement : Obligations.StepKeepsFailureRegistersInAgreement := by
  unfold Obligations.StepKeepsFailureRegistersInAgreement
  intro s s' hs h
  rcases step_cases h with ⟨-, rfl⟩ | ⟨rest, -, rfl⟩ | ⟨t, rest, i, -, -, hd, rfl⟩ | ⟨t, rest, e, -, -, hd, rfl⟩ |
    ⟨t, rest, -, hc, rfl⟩
  · exact hs
  · exact reset_failureRegistersAgree
  · have hcmd : (runStages (stagesOf i) (startCommand (commandWord t) { s with inbox := rest })).cmd.toNat < 14 := by
      rw [(runStages_port _ _).1]
      exact lt_of_decode_ok hd
    rcases command_failureRegisters i (commandWord t) { s with inbox := rest } rfl with ⟨hok, -⟩ | hfail
    · exact agree_of_no_failure (t := answer writeDone _) hok hcmd
    · exact agree_of_failure (t := answer writeDone _) hfail hcmd
  · exact illegalCommand_agrees (le_of_decode_error hd) { s with inbox := rest }
  · exact hs.congr (access_registers hc _).1

/-- Settles O18: of the ways a step goes, only a failing command sets the flag, and only reset, CLR and a write of 1 to
it clear it. -/
theorem stickyFlagIsSetByFailuresOnly : Obligations.StickyFlagIsSetByFailuresOnly := by
  unfold Obligations.StickyFlagIsSetByFailuresOnly
  intro s s' h
  have h01 : (0#1 : BitVec 1) ≠ 1#1 := by decide
  rcases step_cases h with ⟨hin, rfl⟩ | ⟨rest, hin, rfl⟩ | ⟨t, rest, i, hin, hc, hd, rfl⟩ |
    ⟨t, rest, e, hin, hc, hd, rfl⟩ | ⟨t, rest, hin, hc, rfl⟩
  · exact ⟨fun h1 h0 => absurd (h0.symm.trans h1) h01, fun h0 h1 => absurd (h0.symm.trans h1) h01,
      fun _ _ hin' => by rw [hin] at hin'; cases hin'⟩
  · exact ⟨fun _ _ => .inl ⟨rest, hin⟩, fun _ h1 => absurd h1 h01, fun _ _ hin' => by rw [hin] at hin'; cases hin'⟩
  · rw [startsCommand_iff.1 hc] at hin
    rcases command_failureRegisters i (commandWord t) { s with inbox := rest } rfl with
      ⟨⟨he, -⟩, hstk⟩ | hfail
    · refine ⟨fun h1 h0 => ?_, fun h0 h1 => ?_, fun _ _ _ hne => absurd he hne⟩
      · rcases hstk with hstk | ⟨rfl, -⟩
        · exact absurd (h0.symm.trans (hstk.trans h1)) h01
        · exact .inr (.inl ⟨_, _, hin, decode_eq_ok_iff.1 hd⟩)
      · rcases hstk with hstk | ⟨-, hstk⟩
        · exact absurd (h0.symm.trans (hstk.symm.trans h1)) h01
        · exact absurd (hstk.symm.trans h1) h01
    · exact ⟨fun _ h0 => absurd (h0.symm.trans hfail.esticky) h01, fun _ _ => ⟨hfail.err_ne, _, _, hin⟩,
        fun _ _ _ _ => hfail.esticky⟩
  · rw [startsCommand_iff.1 hc] at hin
    exact ⟨fun _ h0 => absurd h0.symm h01, fun _ _ => ⟨by simp, _, _, hin⟩, fun _ _ _ _ => rfl⟩
  · have hno : ∀ d r, s.inbox ≠ .transaction ⟨true, 0#4, 1#32, d⟩ :: r := fun d r hin' => by
      rw [hin] at hin'
      cases hin'
      cases hc
    obtain ⟨-, hstk | ⟨hstk, ht, hbit⟩⟩ := access_registers hc { s with inbox := rest }
    · exact ⟨fun h1 h0 => absurd (h0.symm.trans (hstk.trans h1)) h01,
        fun h0 h1 => absurd (h0.symm.trans (hstk.symm.trans h1)) h01, fun d r hin' => absurd hin' (hno d r)⟩
    · rw [ht] at hin
      exact ⟨fun _ _ => .inr (.inr ⟨_, _, hin, hbit⟩), fun _ h1 => absurd (hstk.symm.trans h1) h01,
        fun d r hin' => absurd hin' (hno d r)⟩

/-- Settles O17: the reset state has zeros and empty spaces. -/
theorem resetMeetsTheInvariants : Obligations.ResetMeetsTheInvariants := by
  unfold Obligations.ResetMeetsTheInvariants
  exact ⟨reset_bounded.1, reset_bounded.2, reset_treeInvariant, reset_failureRegistersAgree⟩

end Sys2Proof.Machine
end

section
namespace Sys2Proof.Machine

/-! ## The address map (R38, R66) -/

theorem spaceOf_eq_none_iff {id : BitVec 4} : spaceOf id = none ↔ 9 ≤ id.toNat := by
  revert id; decide

theorem spaceOf_eq_some_iff {id : BitVec 4} {sp : Space} : spaceOf id = some sp ↔ id = spaceId sp := by
  cases sp <;> revert id <;> decide

@[simp] theorem spaceOf_spaceId (sp : Space) : spaceOf (spaceId sp) = some sp := spaceOf_eq_some_iff.2 rfl

theorem spaceId_inj {sp sp' : Space} : spaceId sp = spaceId sp' ↔ sp = sp' := by
  cases sp <;> cases sp' <;> decide

/-- The sizes of the nine spaces in the order of their ids. -/
theorem spaceSize_eq_getD (sp : Space) :
    [16, 65536, 256, 511, 256, 256, 524288, 65536, 65536].getD (spaceId sp).toNat 0 = spaceSize sp := by
  cases sp <;> rfl

/-- An index inside a space of that id: the id is one of the nine, for the reserved ones have no element. -/
theorem exists_space_of_index_lt {id : BitVec 4} {i : Nat}
    (h : i < [16, 65536, 256, 511, 256, 256, 524288, 65536, 65536].getD id.toNat 0) :
    ∃ sp, id = spaceId sp ∧ i < spaceSize sp := by
  cases hsp : spaceOf id with
  | none =>
    rw [List.getD_eq_default _ _ (spaceOf_eq_none_iff.1 hsp)] at h
    omega
  | some sp =>
    obtain rfl := spaceOf_eq_some_iff.1 hsp
    exact ⟨sp, rfl, spaceSize_eq_getD sp ▸ h⟩

theorem csrOf_csrIndex (r : Csr) : csrOf (csrIndex r) = some r := by cases r <;> rfl

theorem exists_csrIndex_eq {i : Nat} (h : i < 16) : ∃ r, i = csrIndex r := by
  have hall : ∀ i < 16, ∃ r ∈ csrOf i, i = csrIndex r := by decide
  obtain ⟨r, -, hr⟩ := hall i h
  exact ⟨r, hr⟩

/-! ## The four cases of a bus error (R66) -/

theorem readOnly_iff {sp : Space} {i : Nat} (hi : i < spaceSize sp) :
    readOnly sp i = true ↔
      sp = .node ∨ sp = .out ∨ (sp = .csr ∧ i ∈ [0, 2, 3, 4, 9, 10, 11, 12, 13, 14, 15]) := by
  cases sp with
  | csr =>
    obtain ⟨r, rfl⟩ := exists_csrIndex_eq hi
    cases r <;> decide
  | text | freq | node | codelen | codebits | bits | packed | out => simp [readOnly]

theorem lengthTooGreat_iff {sp : Space} {i : Nat} {d : PortData} (hi : i < spaceSize sp) :
    lengthTooGreat sp i d = true ↔ sp = .csr ∧
      ((i = 6 ∧ 65536 < d.toNat % 2 ^ 32) ∨ (i = 7 ∧ 524288 < d.toNat % 2 ^ 32) ∨
        (i = 8 ∧ 65536 < d.toNat % 2 ^ 32)) := by
  cases sp with
  | csr =>
    obtain ⟨r, rfl⟩ := exists_csrIndex_eq hi
    simp only [lengthTooGreat, targetCsr, csrOf_csrIndex, Option.bind_some]
    cases r <;> simp [lengthLimit, csrIndex, Config.textCap, Config.bitsCap, Config.packCap, Config.byteBits]
  | text | freq | node | codelen | codebits | bits | packed | out => simp [lengthTooGreat, targetCsr]

/-- `busError` for a transaction to a space, its index inside or not. -/
theorem busError_iff {we : Bool} {sp : Space} {idx : BitVec 32} {d : PortData} :
    busError ⟨we, spaceId sp, idx, d⟩ = true ↔
      spaceSize sp ≤ idx.toNat ∨ (we = true ∧ readOnly sp idx.toNat = true) ∨
        (we = true ∧ lengthTooGreat sp idx.toNat d = true) := by
  simp [busError, or_assoc]

/-- A write of a command word gets no bus error (R67). -/
theorem busError_of_startsCommand {t : Transaction} (h : startsCommand t = true) : busError t = false := by
  rw [startsCommand_iff.1 h]
  exact busError_csr_write (r := .cmd) rfl rfl (by rintro _ ⟨⟩)

/-- Every transaction is answered once, with `err` for a bus error; then it has no effect (R60, R66). -/
theorem step_answers {s : State} {t : Transaction} {rest : List Event} (h : s.inbox = .transaction t :: rest) :
    ∃ u a, step s = .next u ∧ u.answers = s.answers ++ [a] ∧ a.err = busError t ∧
      (a.err = true → a.rdata = 0#256 ∧ u = { s with inbox := rest, answers := s.answers ++ [a] }) := by
  rw [step_transaction h]
  cases hc : startsCommand t with
  | true =>
    have hb := busError_of_startsCommand hc
    rcases transact_command hc { s with inbox := rest } with ⟨i, -, e⟩ | ⟨_, -, e⟩
    · exact ⟨_, writeDone, e, by simp [runStages_port], hb.symm, by rintro ⟨⟩⟩
    · exact ⟨_, writeDone, e, by simp, hb.symm, by rintro ⟨⟩⟩
  | false =>
    rw [transact_access hc]
    rcases access_cases t { s with inbox := rest } with ⟨hb, e⟩ | ⟨sp, -, hb, ⟨-, e⟩ | ⟨-, e⟩⟩ <;> rw [e]
    · exact ⟨_, busErrorAnswer, rfl, rfl, hb.symm, fun _ => ⟨rfl, rfl⟩⟩
    · refine ⟨_, writeDone, rfl, ?_, hb.symm, by rintro ⟨⟩⟩
      have hw := writeElement_hostWrite { s with inbox := rest } sp t.index.toNat t.wdata
      generalize writeElement { s with inbox := rest } sp t.index.toNat t.wdata = u at hw ⊢
      cases hw <;> rfl
    · exact ⟨_, readDone _, rfl, rfl, hb.symm, by rintro ⟨⟩⟩

/-- Settles O9: the answer's `err` is `busError`; a reserved space always gets it, and in a space each of the
remaining cases is an equivalence of its own. -/
theorem busErrorsAreTheFourCases : Obligations.BusErrorsAreTheFourCases := by
  unfold Obligations.BusErrorsAreTheFourCases
  intro s we space idx d rest h
  obtain ⟨u, a, hstep, hanswers, herr, hno⟩ := step_answers h
  refine ⟨u, a, hstep, hanswers, hno, ?_⟩
  rw [herr]
  cases hsp : spaceOf space with
  | none => exact iff_of_true (by simp [busError, hsp]) (.inl (spaceOf_eq_none_iff.1 hsp))
  | some sp =>
    obtain rfl := spaceOf_eq_some_iff.1 hsp
    have hid : ¬ 9 ≤ (spaceId sp).toNat := fun h9 => by simp [spaceOf_eq_none_iff.2 h9] at hsp
    have hnode : spaceId sp = 3#4 ↔ sp = .node := spaceId_inj (sp' := .node)
    have hout : spaceId sp = 8#4 ↔ sp = .out := spaceId_inj (sp' := .out)
    have hcsr : spaceId sp = 0#4 ↔ sp = .csr := spaceId_inj (sp' := .csr)
    rw [busError_iff, spaceSize_eq_getD, hnode, hout, hcsr]
    by_cases hi : spaceSize sp ≤ idx.toNat
    · exact iff_of_true (.inl hi) (.inr (.inl hi))
    · have hidx : ∀ n : BitVec 32, idx = n ↔ idx.toNat = n.toNat := fun n => BitVec.toNat_inj.symm
      rw [readOnly_iff (Nat.lt_of_not_le hi), lengthTooGreat_iff (Nat.lt_of_not_le hi), hidx 6#32, hidx 7#32, hidx 8#32]
      simp [hid]

/-! ## A read (R62) -/

theorem step_read {s : State} {t : Transaction} {rest : List Event} {sp : Space}
    (h : s.inbox = .transaction t :: rest) (hwe : t.we = false) (hsp : t.space = spaceId sp)
    (hi : t.index.toNat < spaceSize sp) :
    step s = .next (answer (readDone (readElement { s with inbox := rest } sp t.index.toNat))
      { s with inbox := rest }) := by
  obtain ⟨we, space, idx, d⟩ := t
  obtain rfl : we = false := hwe
  obtain rfl : space = spaceId sp := hsp
  have hb : busError ⟨false, spaceId sp, idx, d⟩ = false := by simpa [busError] using hi
  rw [step_transaction h, transact_access rfl]
  simp [access, hb]

/-- The registers as numbers, in the order of their indices (R22). -/
theorem readElement_csr_toNat (s : State) {i : Nat} (h : i < 16) : (readElement s .csr i).toNat =
    [0x48554631, s.cmd.toNat, s.err.toNat, s.errstage.toNat, s.errinfo.toNat, s.esticky.toNat, s.tlen.toNat,
      s.blen.toNat, s.plen.toNat, s.olen.toNat, s.nnodes.toNat, s.root.toNat, 65536, 524288, 65536,
      65536].getD i 0 := by
  obtain ⟨r, rfl⟩ := exists_csrIndex_eq h
  simp only [readElement, csrOf_csrIndex]
  cases r <;> rfl

/-- Settles O10: the answer is the element of the space the id names, and no element is wider than the answer. -/
theorem readsAnswerTheElementAndChangeNothing : Obligations.ReadsAnswerTheElementAndChangeNothing := by
  unfold Obligations.ReadsAnswerTheElementAndChangeNothing
  intro s space idx d rest h hidx
  obtain ⟨sp, rfl, hi⟩ := exists_space_of_index_lt hidx
  refine ⟨_, step_read h rfl rfl hi, ?_⟩
  have hzext {n : Nat} (x : BitVec n) (hn : n ≤ 256) : (x.setWidth 256).toNat = x.toNat :=
    BitVec.toNat_setWidth_of_le hn
  have hspace (sp' : Space) {p : Prop} (hp : sp = sp' → p) : spaceId sp = spaceId sp' → p :=
    fun e => hp (spaceId_inj.1 e)
  exact ⟨
    hspace .csr (by rintro rfl; exact readElement_csr_toNat _ hi),
    hspace .text (by rintro rfl; exact hzext _ (by decide)),
    hspace .freq (by rintro rfl; exact hzext _ (by decide)),
    hspace .node (by rintro rfl; exact hzext _ (by decide)),
    hspace .codelen (by rintro rfl; exact hzext _ (by decide)),
    hspace .codebits (by rintro rfl; exact hzext _ (by decide)),
    hspace .bits (by rintro rfl; exact (hzext _ (by decide)).trans (BitVec.toNat_ofBool _)),
    hspace .packed (by rintro rfl; exact hzext _ (by decide)),
    hspace .out (by rintro rfl; exact hzext _ (by decide))⟩

/-! ## A write to a data space (R63, R64) -/

/-- A write to an element of a space the host may write: no register is meant, so no length can be too great. -/
theorem busError_space_write {sp : Space} {idx : BitVec 32} {d : PortData} (hi : idx.toNat < spaceSize sp)
    (hcsr : sp ≠ .csr) (hro : readOnly sp idx.toNat = false) : busError ⟨true, spaceId sp, idx, d⟩ = false := by
  have hlen : lengthTooGreat sp idx.toNat d = false :=
    Bool.eq_false_iff.2 fun hl => hcsr ((lengthTooGreat_iff hi).1 hl).1
  rw [Bool.eq_false_iff, Ne, busError_iff]
  simp [hro, hlen, hi]

theorem step_space_write {s : State} {idx : BitVec 32} {d : PortData} {rest : List Event} {sp : Space}
    (h : s.inbox = .transaction ⟨true, spaceId sp, idx, d⟩ :: rest) (hi : idx.toNat < spaceSize sp)
    (hcsr : sp ≠ .csr) (hro : readOnly sp idx.toNat = false) :
    step s = .next (answer writeDone (writeElement { s with inbox := rest } sp idx.toNat d)) := by
  have hc : startsCommand ⟨true, spaceId sp, idx, d⟩ = false :=
    Bool.eq_false_iff.2 fun hc => hcsr (spaceId_inj.1 (congrArg Transaction.space (startsCommand_iff.1 hc)))
  exact step_write h hc rfl (spaceOf_spaceId sp) (busError_space_write hi hcsr hro)

/-- Settles O11: in a canonical space a write is read back and leaves every other element. -/
theorem writesStoreOneElement : Obligations.WritesStoreOneElement := by
  unfold Obligations.WritesStoreOneElement
  intro s space idx d rest hcan h hidx
  obtain ⟨htext, hfreq, -, hcl, hcb, hbits, hpacked, -⟩ := hcan
  obtain ⟨sp, rfl, hi⟩ := exists_space_of_index_lt hidx
  have hread {α : Type} [DecidableEq α] {z : α} {m : Mem α} (hm : Mem.Wf z m) (v : α) (j : Nat) :
      (m.write z idx.toNat v).read z j = if j = idx.toNat then v else m.read z j := by
    simp only [Mem.read_write hm, eq_comm]
  refine ⟨fun e => ?_, fun e => ?_, fun e => ?_, fun e => ?_, fun e => ?_, fun e => ?_⟩
  · obtain rfl : sp = .text := spaceId_inj.1 e
    exact ⟨_, step_space_write h hi nofun rfl, hread htext.1 _⟩
  · obtain rfl : sp = .freq := spaceId_inj.1 e
    exact ⟨_, step_space_write h hi nofun rfl, hread hfreq.1 _⟩
  · obtain rfl : sp = .codelen := spaceId_inj.1 e
    exact ⟨_, step_space_write h hi nofun rfl, hread hcl.1 _⟩
  · obtain rfl : sp = .codebits := spaceId_inj.1 e
    exact ⟨_, step_space_write h hi nofun rfl, hread hcb.1 _⟩
  · obtain rfl : sp = .bits := spaceId_inj.1 e
    exact ⟨_, step_space_write h hi nofun rfl, hread hbits.1 _⟩
  · obtain rfl : sp = .packed := spaceId_inj.1 e
    exact ⟨_, step_space_write h hi nofun rfl, hread hpacked.1 _⟩

end Sys2Proof.Machine
end

section
namespace Sys2Proof.Machine

/-! ## Splitting a line (R82) -/

theorem splitAtChar_ne_nil (c : Char) (l : List Char) : splitAtChar c l ≠ [] := by
  cases l with
  | nil => simp [splitAtChar]
  | cons x xs =>
    simp only [splitAtChar]
    split
    · simp
    · split <;> simp

theorem splitAtChar_cons_self (c : Char) (l : List Char) : splitAtChar c (c :: l) = [] :: splitAtChar c l := by
  cases h : splitAtChar c l with
  | nil => exact absurd h (splitAtChar_ne_nil c l)
  | cons p ps => simp [splitAtChar, h]

theorem splitAtChar_cons_ne {c x : Char} (hx : x ≠ c) {l p : List Char} {ps : List (List Char)}
    (h : splitAtChar c l = p :: ps) : splitAtChar c (x :: l) = (x :: p) :: ps := by
  simp [splitAtChar, h, hx]

theorem length_splitAtChar (c : Char) (l : List Char) : (splitAtChar c l).length = l.count c + 1 := by
  induction l with
  | nil => rfl
  | cons x xs ih =>
    by_cases hx : x = c
    · subst hx
      simp [splitAtChar_cons_self, ih]
    · obtain ⟨p, ps, h⟩ := List.exists_cons_of_ne_nil (splitAtChar_ne_nil c xs)
      rw [splitAtChar_cons_ne hx h, List.count_cons_of_ne hx, ← ih, h]
      simp

theorem splitAtChar_of_not_mem {c : Char} {l : List Char} (h : c ∉ l) : splitAtChar c l = [l] := by
  induction l with
  | nil => rfl
  | cons x xs ih =>
    rw [List.mem_cons, not_or] at h
    exact splitAtChar_cons_ne (Ne.symm h.1) (ih h.2)

theorem splitAtChar_append_cons {c : Char} {a : List Char} (h : c ∉ a) (b : List Char) :
    splitAtChar c (a ++ c :: b) = a :: splitAtChar c b := by
  induction a with
  | nil => exact splitAtChar_cons_self c b
  | cons x xs ih =>
    rw [List.mem_cons, not_or] at h
    exact splitAtChar_cons_ne (Ne.symm h.1) (ih h.2)

/-- Splitting undoes joining where no piece holds the separator. -/
theorem splitAtChar_intercalate {c : Char} {pieces : List (List Char)} (hne : pieces ≠ [])
    (h : ∀ p ∈ pieces, c ∉ p) : splitAtChar c ([c].intercalate pieces) = pieces := by
  induction pieces with
  | nil => exact absurd rfl hne
  | cons p ps ih =>
    rw [List.forall_mem_cons] at h
    cases ps with
    | nil => simpa using splitAtChar_of_not_mem h.1
    | cons q qs =>
      rw [List.intercalate_cons_cons, List.append_assoc]
      exact (splitAtChar_append_cons h.1 _).trans (congrArg (p :: ·) (ih (by simp) h.2))

theorem trimLine_of_no_blank {line : List Char} (h : ∀ x ∈ line, isBlank x = false) : trimLine line = line := by
  have hdrop {l : List Char} (hl : ∀ x ∈ l, isBlank x = false) : l.dropWhile isBlank = l := by
    cases l with
    | nil => rfl
    | cons x xs => exact List.dropWhile_cons_of_neg (by simp [hl x List.mem_cons_self])
  rw [trimLine, hdrop h, hdrop fun x hx => h x (List.mem_reverse.1 hx), List.reverse_reverse]

/-! ## The two tokens of an entry (R82, R83) -/

theorem isBlank_of_isDigit {x : Char} (h : x.isDigit = true) : isBlank x = false := by
  rw [isBlank, Bool.or_eq_false_iff, Bool.or_eq_false_iff, Bool.or_eq_false_iff]
  refine ⟨⟨⟨?_, ?_⟩, ?_⟩, ?_⟩ <;> (rw [beq_eq_false_iff_ne]; rintro rfl; exact absurd h (by decide))

theorem digitsOnly_iff {cs : List Char} : digitsOnly cs = true ↔ cs ≠ [] ∧ ∀ x ∈ cs, x.isDigit = true := by
  simp [digitsOnly]

/-- What is left of a token without its blanks is its body, with at most a plus sign in front. -/
theorem filter_not_isBlank_eq (cs : List Char) :
    (cs.filter fun x => !isBlank x) = decimalBody cs ∨ (cs.filter fun x => !isBlank x) = '+' :: decimalBody cs := by
  unfold decimalBody
  split
  · next h => exact .inr h
  · exact .inl rfl

theorem decimalBody_of_digitsOnly {cs : List Char} (h : digitsOnly cs = true) : decimalBody cs = cs := by
  have hd := (digitsOnly_iff.1 h).2
  have hf : (cs.filter fun x => !isBlank x) = cs :=
    List.filter_eq_self.2 fun x hx => by simp [isBlank_of_isDigit (hd x hx)]
  rcases filter_not_isBlank_eq cs with e | e <;> rw [hf] at e
  · exact e.symm
  · exact absurd (hd '+' (e ▸ List.mem_cons_self)) (by decide)

/-- A first token that is read, in whatever form, has a body of digits only, and their value. -/
theorem parseDecimal_eq_some {cs : List Char} {n : Nat} (h : parseDecimal cs = some n) :
    digitsOnly (decimalBody cs) = true ∧ n = decimalValue (decimalBody cs) := by
  unfold parseDecimal at h
  split at h
  · next hc =>
    have hd : digitsOnly cs = true := (Bool.and_eq_true_iff.1 hc).1
    rw [decimalBody_of_digitsOnly hd]
    exact ⟨hd, (Option.some.inj h).symm⟩
  · split at h
    · next hb => exact ⟨(Bool.and_eq_true_iff.1 hb).1, (Option.some.inj h).symm⟩
    · cases h

theorem parseBit_bitChar (b : Bool) : parseBit (bitChar b) = some b := by cases b <;> rfl

theorem parseBit_eq_some {x : Char} {b : Bool} (h : parseBit x = some b) : x = bitChar b := by
  unfold parseBit at h
  split at h
  · next hx => cases h; exact hx
  · split at h
    · next hx => cases h; exact hx
    · cases h

/-- The codes a second token can be read as: the token is the code written out. -/
theorem parseCode_eq_some_iff {cs : List Char} {bs : BitSeq} : parseCode cs = some bs ↔ cs = bs.map bitChar := by
  induction cs generalizing bs with
  | nil => simp [parseCode, eq_comm]
  | cons x xs ih =>
    refine ⟨fun h => ?_, fun h => ?_⟩
    · rw [parseCode] at h
      split at h
      · next b bs' hb hbs =>
        cases h
        rw [parseBit_eq_some hb, ih.1 hbs, List.map_cons]
      · cases h
    · obtain ⟨b, bs', rfl, rfl, hbs⟩ := List.map_eq_cons_iff.1 h.symm
      simp [parseCode, parseBit_bitChar, ih.2 hbs.symm]

theorem entryWellFormed_iff {e : Nat × BitSeq} :
    entryWellFormed e = true ↔ e.1 < 256 ∧ 1 ≤ e.2.length ∧ e.2.length ≤ 255 := by
  simp only [entryWellFormed, entrySymbolFits, entryCodeNonempty, entryCodeFits, Bool.and_eq_true, decide_eq_true_eq,
    Bool.not_eq_true', List.isEmpty_eq_false_iff, ← List.length_pos_iff, and_assoc]
  exact Iff.rfl

/-- A piece is read as an entry exactly when it has two tokens that are a number and a code the block can hold. -/
theorem parseEntry_eq_some_iff {piece : List Char} {e : Nat × BitSeq} : parseEntry piece = some e ↔
    ∃ a c, splitAtChar ':' piece = [a, c] ∧ parseDecimal a = some e.1 ∧ parseCode c = some e.2 ∧
      entryWellFormed e = true := by
  unfold parseEntry
  split
  · next a c hs =>
    rw [hs]
    refine ⟨fun h => ?_, ?_⟩
    · split at h
      · next n bs hn hbs =>
        split at h
        · next hw => cases h; exact ⟨a, c, rfl, hn, hbs, hw⟩
        · cases h
      · cases h
    · rintro ⟨_, _, ⟨⟩, hn, hbs, hw⟩
      simp [hn, hbs, hw]
  · next hs => exact ⟨nofun, fun ⟨a, c, h, _⟩ => absurd h (hs a c)⟩

theorem parseEntry_of_count_ne {piece : List Char} (h : piece.count ':' ≠ 1) : parseEntry piece = none := by
  rw [Option.eq_none_iff_forall_ne_some]
  intro e he
  obtain ⟨a, c, hs, -⟩ := parseEntry_eq_some_iff.1 he
  have hl := length_splitAtChar ':' piece
  rw [hs] at hl
  exact h (Nat.succ.inj hl).symm

theorem entryWellFormed_of_parseEntry {piece : List Char} {e : Nat × BitSeq} (h : parseEntry piece = some e) :
    entryWellFormed e = true := by
  obtain ⟨-, -, -, -, -, hw⟩ := parseEntry_eq_some_iff.1 h
  exact hw

/-- The tokens of a piece that is read are what stands before and after its colon. -/
theorem parseEntry_append_eq_some {a c : List Char} {e : Nat × BitSeq} (h : parseEntry (a ++ ':' :: c) = some e) :
    parseDecimal a = some e.1 ∧ parseCode c = some e.2 ∧ entryWellFormed e = true := by
  have hcount : (a ++ ':' :: c).count ':' = 1 := by
    by_contra hne
    rw [parseEntry_of_count_ne hne] at h
    cases h
  have hzero : a.count ':' = 0 ∧ c.count ':' = 0 := by
    rw [List.count_append, List.count_cons_self] at hcount
    omega
  obtain ⟨a', c', hs, htokens⟩ := parseEntry_eq_some_iff.1 h
  rw [splitAtChar_append_cons (List.count_eq_zero.1 hzero.1),
    splitAtChar_of_not_mem (List.count_eq_zero.1 hzero.2)] at hs
  cases hs
  exact htokens

/-! ## Malformed entries (R82, R83) -/

theorem length_of_parseCode {cs : List Char} {bs : BitSeq} (h : parseCode cs = some bs) : bs.length = cs.length := by
  rw [parseCode_eq_some_iff.1 h, List.length_map]

theorem eq_zero_or_one_of_parseCode {cs : List Char} {bs : BitSeq} (h : parseCode cs = some bs) {x : Char}
    (hx : x ∈ cs) : x = '0' ∨ x = '1' := by
  rw [parseCode_eq_some_iff.1 h, List.mem_map] at hx
  obtain ⟨b, -, rfl⟩ := hx
  cases b
  · exact .inl rfl
  · exact .inr rfl

/-- The digits of a token whose body is all digits are its body: neither a blank nor a plus sign is a digit. -/
theorem filter_isDigit_eq_decimalBody {cs : List Char} (h : digitsOnly (decimalBody cs) = true) :
    cs.filter Char.isDigit = decimalBody cs := by
  have hbody : (decimalBody cs).filter Char.isDigit = decimalBody cs := List.filter_eq_self.2 (digitsOnly_iff.1 h).2
  have hblank : cs.filter Char.isDigit = (cs.filter fun x => !isBlank x).filter Char.isDigit := by
    rw [List.filter_filter]
    refine List.filter_congr fun x _ => ?_
    cases hx : x.isDigit with
    | false => rfl
    | true => simp [isBlank_of_isDigit hx]
  rcases filter_not_isBlank_eq cs with e | e <;> rw [hblank, e]
  · exact hbody
  · exact (List.filter_cons_of_neg (by decide)).trans hbody

/-- A first token that is read holds a digit. -/
theorem exists_digit_of_parseDecimal {cs : List Char} {n : Nat} (h : parseDecimal cs = some n) :
    ∃ x ∈ cs, x.isDigit = true := by
  have hd := (parseDecimal_eq_some h).1
  obtain ⟨x, hx⟩ := List.exists_mem_of_ne_nil _ (digitsOnly_iff.1 hd).1
  rw [← filter_isDigit_eq_decimalBody hd, List.mem_filter] at hx
  exact ⟨x, hx⟩

/-- A first token that is read holds digits, blanks and plus signs only. -/
theorem allowed_of_parseDecimal {cs : List Char} {n : Nat} (h : parseDecimal cs = some n) {x : Char} (hx : x ∈ cs)
    (hdigit : x.isDigit = false) (hblank : isBlank x = false) : x = '+' := by
  have hbody : x ∉ decimalBody cs := fun hb => by
    simp [(digitsOnly_iff.1 (parseDecimal_eq_some h).1).2 x hb] at hdigit
  have hmem : x ∈ cs.filter fun x => !isBlank x := List.mem_filter.2 ⟨hx, by simp [hblank]⟩
  rcases filter_not_isBlank_eq cs with e | e <;> rw [e] at hmem
  · exact absurd hmem hbody
  · exact (List.mem_cons.1 hmem).resolve_right hbody

/-- A first token that is read has no plus sign behind its first character that is no blank. -/
theorem plus_in_front_of_parseDecimal {cs : List Char} {n : Nat} (h : parseDecimal cs = some n) :
    '+' ∉ (cs.filter fun x => !isBlank x).drop 1 := by
  have hbody : '+' ∉ decimalBody cs := fun hb =>
    absurd ((digitsOnly_iff.1 (parseDecimal_eq_some h).1).2 _ hb) (by decide)
  rcases filter_not_isBlank_eq cs with e | e <;> rw [e]
  · exact fun hb => hbody (List.mem_of_mem_drop hb)
  · exact hbody

theorem value_of_parseDecimal {cs : List Char} {n : Nat} (h : parseDecimal cs = some n) :
    n = decimalValue (cs.filter Char.isDigit) := by
  obtain ⟨hd, hn⟩ := parseDecimal_eq_some h
  rw [hn, filter_isDigit_eq_decimalBody hd]

theorem readEntries_skipEntry (line : List Char) :
    readEntries .skipEntry line = some ((splitAtChar '-' (trimLine line)).filterMap parseEntry) := by
  simp [readEntries, List.filterMap_map]

theorem readEntries_rejectLoad (line : List Char) : readEntries .rejectLoad line =
    if ∀ p ∈ splitAtChar '-' (trimLine line), parseEntry p ≠ none then
      some ((splitAtChar '-' (trimLine line)).filterMap parseEntry) else none := by
  simp [readEntries, List.filterMap_map, Option.isSome_iff_ne_none]

/-- Settles O55: each clause denies one thing that a piece that is read has; the policies are the two cases of
`readEntries`. -/
theorem unwritableEntriesAreMalformed : Obligations.UnwritableEntriesAreMalformed := by
  unfold Obligations.UnwritableEntriesAreMalformed
  refine ⟨fun _ => parseEntry_of_count_ne, fun a c hc => ?code, fun a c ha => ?number, fun piece sym code h => ?fits,
    fun line => ⟨readEntries_skipEntry line, ?reject, ?load⟩⟩
  case code =>
    rw [Option.eq_none_iff_forall_ne_some]
    intro e he
    obtain ⟨-, hcode, hw⟩ := parseEntry_append_eq_some he
    obtain ⟨-, hpos, hle⟩ := entryWellFormed_iff.1 hw
    have hlen := length_of_parseCode hcode
    rcases hc with rfl | hlong | ⟨x, hx, h0, h1⟩
    · rw [hlen] at hpos
      cases hpos
    · omega
    · exact (eq_zero_or_one_of_parseCode hcode hx).elim h0 h1
  case number =>
    rw [Option.eq_none_iff_forall_ne_some]
    intro e he
    obtain ⟨hnum, -, hw⟩ := parseEntry_append_eq_some he
    rcases ha with hno | ⟨x, hx, hdigit, hblank, hplus⟩ | hplus | hbig
    · obtain ⟨x, hx, hdigit⟩ := exists_digit_of_parseDecimal hnum
      simp [hno x hx] at hdigit
    · exact hplus (allowed_of_parseDecimal hnum hx hdigit hblank)
    · exact plus_in_front_of_parseDecimal hnum hplus
    · have hlt := (entryWellFormed_iff.1 hw).1
      rw [value_of_parseDecimal hnum] at hlt
      omega
  case reject =>
    rintro ⟨p, hp, hnone⟩
    rw [readEntries_rejectLoad, if_neg fun hall => hall p hp hnone]
  case load =>
    intro hall
    rw [readEntries_rejectLoad, if_pos hall]
  case fits => exact entryWellFormed_iff.1 (entryWellFormed_of_parseEntry h)

end Sys2Proof.Machine
end

section
namespace Sys2Proof.Machine

/-! ## The numeral and the entry the writer makes are read back (R81, R84) -/

theorem digitChar_isDigit {n : Nat} (h : n < 10) : (Nat.digitChar n).isDigit = true := by
  revert n; decide

theorem digitChar_value {n : Nat} (h : n < 10) : (Nat.digitChar n).toNat - '0'.toNat = n := by
  revert n; decide

theorem decimalValue_append_digit (cs : List Char) {n : Nat} (h : n < 10) :
    decimalValue (cs ++ [Nat.digitChar n]) = 10 * decimalValue cs + n := by
  simp only [decimalValue, List.foldl_append, List.foldl_cons, List.foldl_nil, digitChar_value h]

theorem decimalDigits_succ_of_lt (k : Nat) {n : Nat} (h : n < 10) : decimalDigits (k + 1) n = [Nat.digitChar n] :=
  if_pos h

theorem decimalDigits_succ_of_le (k : Nat) {n : Nat} (h : 10 ≤ n) :
    decimalDigits (k + 1) n = decimalDigits k (n / 10) ++ [Nat.digitChar (n % 10)] :=
  if_neg (Nat.not_lt_of_le h)

theorem isDigit_of_mem_decimalDigits {k n : Nat} {x : Char} (h : x ∈ decimalDigits k n) : x.isDigit = true := by
  induction k generalizing n with
  | zero => cases h
  | succ k ih =>
    rcases Nat.lt_or_ge n 10 with hn | hn
    · rw [decimalDigits_succ_of_lt k hn, List.mem_singleton] at h
      exact h ▸ digitChar_isDigit hn
    · rw [decimalDigits_succ_of_le k hn, List.mem_append, List.mem_singleton] at h
      rcases h with h | rfl
      · exact ih h
      · exact digitChar_isDigit (Nat.mod_lt _ (by decide))

/-- With room for the digits, the numeral has the value it was made of. -/
theorem decimalValue_decimalDigits {k n : Nat} (h : n < 10 ^ k) : decimalValue (decimalDigits k n) = n := by
  induction k generalizing n with
  | zero => rw [Nat.lt_one_iff.1 h]; rfl
  | succ k ih =>
    rcases Nat.lt_or_ge n 10 with hn | hn
    · rw [decimalDigits_succ_of_lt k hn]
      exact (decimalValue_append_digit [] hn).trans (Nat.zero_add n)
    · rw [decimalDigits_succ_of_le k hn, decimalValue_append_digit _ (Nat.mod_lt _ (by decide)),
        ih (Nat.div_lt_of_lt_mul (by rwa [Nat.pow_succ'] at h))]
      exact Nat.div_add_mod n 10

/-- The numeral of a positive number starts with a digit other than 0. -/
theorem exists_head_of_decimalDigits {k n : Nat} (hpos : 0 < n) (h : n < 10 ^ k) :
    ∃ c, (decimalDigits k n).head? = some c ∧ c ≠ '0' := by
  induction k generalizing n with
  | zero => rw [Nat.pow_zero] at h; omega
  | succ k ih =>
    rcases Nat.lt_or_ge n 10 with hn | hn
    · refine ⟨Nat.digitChar n, by rw [decimalDigits_succ_of_lt k hn]; rfl, fun hc => ?_⟩
      have := digitChar_value hn
      rw [hc] at this
      omega
    · obtain ⟨c, hc, hne⟩ := ih (Nat.div_pos hn (by decide)) (Nat.div_lt_of_lt_mul (by rwa [Nat.pow_succ'] at h))
      exact ⟨c, by rw [decimalDigits_succ_of_le k hn, List.head?_append, hc]; rfl, hne⟩

theorem canonicalDecimal_decimal {n : Nat} (h : n < 256) : canonicalDecimal (decimal n) = true := by
  have hdigits : ∀ x ∈ decimal n, x.isDigit = true := fun _ => isDigit_of_mem_decimalDigits
  rcases Nat.eq_zero_or_pos n with rfl | hpos
  · rfl
  · obtain ⟨c, hc, hne⟩ : ∃ c, (decimal n).head? = some c ∧ c ≠ '0' := exists_head_of_decimalDigits hpos (by omega)
    have hnil : decimal n ≠ [] := fun e => by simp [e] at hc
    simp [canonicalDecimal, digitsOnly_iff.2 ⟨hnil, hdigits⟩, hc, hne]

theorem parseDecimal_decimal {n : Nat} (h : n < 256) : parseDecimal (decimal n) = some n := by
  rw [parseDecimal, if_pos (canonicalDecimal_decimal h)]
  exact congrArg some (decimalValue_decimalDigits (k := 3) (by omega))

/-- The characters of an entry are digits and colons. -/
theorem mem_entryText {e : Nat × BitSeq} {x : Char} (h : x ∈ entryText e) : x.isDigit = true ∨ x = ':' := by
  simp only [entryText, List.mem_append, List.mem_cons, List.mem_map] at h
  rcases h with h | rfl | ⟨b, -, rfl⟩
  · exact .inl (isDigit_of_mem_decimalDigits h)
  · exact .inr rfl
  · cases b <;> exact .inl rfl

theorem parseEntry_entryText {e : Nat × BitSeq} (h : entryWellFormed e = true) :
    parseEntry (entryText e) = some e := by
  have hnum : ':' ∉ decimal e.1 := fun hm => absurd (isDigit_of_mem_decimalDigits hm) (by decide)
  have hcode : ':' ∉ e.2.map bitChar := fun hm => by
    obtain ⟨b, -, hb⟩ := List.mem_map.1 hm
    cases b <;> exact absurd hb (by decide)
  refine parseEntry_eq_some_iff.2 ⟨decimal e.1, e.2.map bitChar, ?_, parseDecimal_decimal (entryWellFormed_iff.1 h).1,
    parseCode_eq_some_iff.2 rfl, h⟩
  rw [entryText, splitAtChar_append_cons hnum, splitAtChar_of_not_mem hcode]

/-! ## The line the writer makes is read back (R81, R82, R84) -/

theorem length_codeOf (s : State) (a : Byte) : (codeOf s a).length = codeLength s a := by
  simp [codeOf]

theorem mem_tableEntries {s : State} {e : Nat × BitSeq} :
    e ∈ tableEntries s ↔ ∃ a : Byte, InTable s a ∧ e = (a.toNat, codeOf s a) := by
  simp only [tableEntries, List.mem_map, List.mem_filter, List.mem_range, bne_iff_ne]
  refine ⟨?_, ?_⟩
  · rintro ⟨i, ⟨hi, hin⟩, rfl⟩
    exact ⟨BitVec.ofNat 8 i, hin, by rw [BitVec.toNat_ofNat, Nat.mod_eq_of_lt (b := 2 ^ 8) hi]⟩
  · rintro ⟨a, hin, rfl⟩
    exact ⟨a.toNat, ⟨a.isLt, by rwa [BitVec.ofNat_toNat, BitVec.setWidth_eq]⟩,
      by rw [BitVec.ofNat_toNat, BitVec.setWidth_eq]⟩

theorem entryWellFormed_of_mem_tableEntries {s : State} {e : Nat × BitSeq} (h : e ∈ tableEntries s) :
    entryWellFormed e = true := by
  obtain ⟨a, hin, rfl⟩ := mem_tableEntries.1 h
  rw [entryWellFormed_iff, length_codeOf]
  exact ⟨a.isLt, Nat.pos_of_ne_zero hin, Nat.le_of_lt_succ (BitVec.isLt _)⟩

theorem mem_intercalate_singleton {c x : Char} {pieces : List (List Char)} (h : x ∈ [c].intercalate pieces) :
    x = c ∨ ∃ p ∈ pieces, x ∈ p := by
  induction pieces with
  | nil => cases h
  | cons p ps ih =>
    cases ps with
    | nil => exact .inr ⟨p, List.mem_singleton_self p, by simpa using h⟩
    | cons q qs =>
      rw [List.intercalate_cons_cons, List.append_assoc, List.mem_append, List.mem_append, List.mem_singleton] at h
      rcases h with h | h | h
      · exact .inr ⟨p, List.mem_cons_self, h⟩
      · exact .inl h
      · exact (ih h).imp_right fun ⟨r, hr, hx⟩ => ⟨r, List.mem_cons_of_mem _ hr, hx⟩

/-- The pieces of the line are the entries' texts. -/
theorem pieces_of_tableLine {s : State} (h : ∃ a, InTable s a) :
    splitAtChar '-' (trimLine (tableLine s)) = (tableEntries s).map entryText := by
  obtain ⟨a, ha⟩ := h
  have hne : (tableEntries s).map entryText ≠ [] :=
    List.map_eq_nil_iff.not.2 (List.ne_nil_of_mem (mem_tableEntries.2 ⟨a, ha, rfl⟩))
  have htext : ∀ p ∈ (tableEntries s).map entryText, ∀ x ∈ p, x.isDigit = true ∨ x = ':' := by
    intro p hp x hx
    obtain ⟨e, -, rfl⟩ := List.mem_map.1 hp
    exact mem_entryText hx
  have hblank : ∀ x ∈ tableLine s, isBlank x = false := by
    intro x hx
    rcases mem_intercalate_singleton hx with rfl | ⟨p, hp, hx⟩
    · rfl
    · rcases htext p hp x hx with hdigit | rfl
      · exact isBlank_of_isDigit hdigit
      · rfl
  rw [trimLine_of_no_blank hblank, tableLine, splitAtChar_intercalate hne]
  intro p hp hx
  exact (htext p hp _ hx).elim (by decide) (by decide)

theorem readEntries_tableLine {s : State} (h : ∃ a, InTable s a) (policy : Config.MalformedPolicy) :
    readEntries policy (tableLine s) = some (tableEntries s) := by
  have hread : ∀ e ∈ tableEntries s, parseEntry (entryText e) = some e := fun e he =>
    parseEntry_entryText (entryWellFormed_of_mem_tableEntries he)
  have hall : ((tableEntries s).map entryText).filterMap parseEntry = tableEntries s := by
    rw [List.filterMap_map]
    exact (List.filterMap_congr hread).trans List.filterMap_some
  cases policy with
  | skipEntry => rw [readEntries_skipEntry, pieces_of_tableLine h, hall]
  | rejectLoad =>
    rw [readEntries_rejectLoad, pieces_of_tableLine h, hall, if_pos]
    intro p hp
    obtain ⟨e, he, rfl⟩ := List.mem_map.1 hp
    simp [hread e he]

/-! ## Loading entries (R82, N16) -/

/-- The code a list of entries gives a symbol: that of the last entry for it, else the one before. -/
def codeAfter (entries : List (Nat × BitSeq)) (sym : Nat) (before : BitSeq) : BitSeq :=
  entries.foldl (fun c e => if sym = e.1 then e.2 else c) before

theorem codeAfter_cons (e : Nat × BitSeq) (es : List (Nat × BitSeq)) (sym : Nat) (before : BitSeq) :
    codeAfter (e :: es) sym before = codeAfter es sym (if sym = e.1 then e.2 else before) := rfl

/-- Where every entry for a symbol has the same code, that is the symbol's code, if there is such an entry or it had
that code before. -/
theorem codeAfter_eq {es : List (Nat × BitSeq)} {sym : Nat} {before c : BitSeq} (hc : ∀ e ∈ es, e.1 = sym → e.2 = c)
    (h : before = c ∨ ∃ e ∈ es, e.1 = sym) : codeAfter es sym before = c := by
  induction es generalizing before with
  | nil => exact h.resolve_right (by simp)
  | cons e es ih =>
    rw [List.forall_mem_cons] at hc
    rw [codeAfter_cons]
    apply ih hc.2
    split
    · next he => exact .inl (hc.1 he.symm)
    · next he =>
      exact h.imp_right fun hex => ((List.exists_mem_cons_iff _ _ _).1 hex).resolve_left (Ne.symm he)

/-- The script gives the symbol of an entry its code, leaves the code of every other symbol, and keeps the spaces
canonical. -/
def GivesCode (script : List Transaction) (e : Nat × BitSeq) : Prop :=
  ∀ u : State, u.SpacesCanonical → (performAll script u).SpacesCanonical ∧
    ∀ a : Byte, codeOf (performAll script u) a = if a.toNat = e.1 then e.2 else codeOf u a

theorem performAll_append (l l' : List Transaction) (u : State) :
    performAll (l ++ l') u = performAll l' (performAll l u) := List.foldl_append

/-- Scripts that give one entry's code each, one after the other, give the codes of the entries. -/
theorem performAll_flatMap {script : Nat × BitSeq → List Transaction} {es : List (Nat × BitSeq)}
    (h : ∀ e ∈ es, GivesCode (script e) e) {u : State} (hu : u.SpacesCanonical) :
    (performAll (es.flatMap script) u).SpacesCanonical ∧
      ∀ a : Byte, codeOf (performAll (es.flatMap script) u) a = codeAfter es a.toNat (codeOf u a) := by
  induction es generalizing u with
  | nil => exact ⟨hu, fun _ => rfl⟩
  | cons e es ih =>
    rw [List.forall_mem_cons] at h
    obtain ⟨hcan, hcode⟩ := h.1 u hu
    obtain ⟨hcan', hcode'⟩ := ih h.2 hcan
    rw [List.flatMap_cons, performAll_append]
    exact ⟨hcan', fun a => by rw [hcode', hcode, codeAfter_cons]⟩

/-! ### What a stored code reads as (R44) -/

theorem lsbFirst_testBit (c : BitSeq) (j : Nat) : (lsbFirst c).testBit j = c.getD j false := by
  induction c generalizing j with
  | nil => simp [lsbFirst]
  | cons b bs ih =>
    have hbit : lsbFirst (b :: bs) = Nat.bit b (lsbFirst bs) := by
      rw [lsbFirst, Nat.bit_val, Nat.add_comm]
    rw [hbit]
    cases j with
    | zero => exact Nat.testBit_bit_zero b _
    | succ j => exact (Nat.testBit_bit_succ j b _).trans (ih j)

/-- A symbol whose two elements hold a code has that code. -/
theorem codeOf_eq_of_reads {s : State} {a : Byte} {c : BitSeq} (hc : c.length ≤ 255)
    (hlen : s.codelen.read 0#8 a.toNat = BitVec.ofNat 8 c.length)
    (hbits : s.codebits.read 0#255 a.toNat = codeWordOf c) : codeOf s a = c := by
  have hcl : codeLength s a = c.length := by
    rw [codeLength, hlen, BitVec.toNat_ofNat]
    omega
  refine List.ext_getElem (by rw [length_codeOf, hcl]) fun j _ hj => ?_
  have hj255 : j < 255 := by omega
  simp [codeOf, hbits, codeWordOf, BitVec.getLsbD_ofNat, hj255, lsbFirst_testBit, List.getElem?_eq_getElem hj]

theorem codeOf_eq_nil {s : State} {a : Byte} (h : codeLength s a = 0) : codeOf s a = [] :=
  List.length_eq_zero_iff.1 ((length_codeOf s a).trans h)

theorem codeOf_congr {s t : State} {a : Byte} (hlen : t.codelen.read 0#8 a.toNat = s.codelen.read 0#8 a.toNat)
    (hbits : t.codebits.read 0#255 a.toNat = s.codebits.read 0#255 a.toNat) : codeOf t a = codeOf s a := by
  simp only [codeOf, codeLength, hlen, hbits]

/-! ### The writes of the load script -/

theorem access_wr {sp : Space} {i : Nat} (v : Nat) (hi : i < spaceSize sp) (hcsr : sp ≠ .csr)
    (hro : readOnly sp i = false) (u : State) :
    access (wr sp i v) u = answer writeDone (writeElement u sp i (BitVec.ofNat 256 v)) := by
  have hle : spaceSize sp ≤ 2 ^ 32 := by cases sp <;> decide
  have hidx : (BitVec.ofNat 32 i).toNat = i := Nat.mod_eq_of_lt (by omega)
  have hb : busError (wr sp i v) = false := busError_space_write (by rwa [hidx]) hcsr (by rwa [hidx])
  have hspace : spaceOf (wr sp i v).space = some sp := spaceOf_spaceId sp
  rw [access, hb, hspace]
  simp [wr, hidx]

theorem wrAll_replicate (sp : Space) (n v : Nat) :
    wrAll sp (List.replicate n v) = (List.range n).map fun i => wr sp i v :=
  List.ext_getElem (by simp [wrAll]) fun i _ _ => by simp [wrAll]

theorem givesCode_clear {i : Nat} (hi : i < 256) : GivesCode [wr .codelen i 0] (i, []) := by
  intro u hu
  have hrun : performAll [wr .codelen i 0] u =
      answer writeDone { u with codelen := u.codelen.write 0#8 i 0#8 } :=
    access_wr (sp := .codelen) 0 hi nofun rfl u
  obtain ⟨htext, hfreq, hnode, hcl, hcanonical⟩ := id hu
  rw [hrun]
  refine ⟨⟨htext, hfreq, hnode, Mem.Good.write hcl hi _, hcanonical⟩, fun a => ?_⟩
  split
  · next ha =>
    obtain rfl : a.toNat = i := ha
    exact codeOf_eq_nil (by simp [codeLength, Mem.read_write_same hcl.1])
  · next ha => exact codeOf_congr (Mem.read_write_ne hcl.1 _ (Ne.symm ha)) rfl

theorem givesCode_codeScript {e : Nat × BitSeq} (he : entryWellFormed e = true) :
    GivesCode (codeScript e.1 e.2) e := by
  obtain ⟨i, c⟩ := e
  obtain ⟨hi, -, hc⟩ := entryWellFormed_iff.1 he
  intro u hu
  have hrun : performAll (codeScript i c) u = answer writeDone (answer writeDone
      (u.setTable (u.codelen.write 0#8 i (BitVec.ofNat 8 c.length)) (u.codebits.write 0#255 i (codeWordOf c)))) := by
    have hlen : (BitVec.ofNat 256 c.length).setWidth 8 = BitVec.ofNat 8 c.length :=
      BitVec.setWidth_ofNat_of_le (by decide) _
    have hbits : (BitVec.ofNat 256 (lsbFirst c)).setWidth 255 = codeWordOf c :=
      BitVec.setWidth_ofNat_of_le (by decide) _
    have hfirst := access_wr (sp := .codelen) c.length hi nofun rfl u
    have hsecond := access_wr (sp := .codebits) (lsbFirst c) hi nofun rfl (access (wr .codelen i c.length) u)
    rw [← hlen, ← hbits]
    exact hsecond.trans (by rw [hfirst]; rfl)
  obtain ⟨htext, hfreq, hnode, hcl, hcb, hcanonical⟩ := id hu
  rw [hrun]
  refine ⟨⟨htext, hfreq, hnode, Mem.Good.write hcl hi _, Mem.Good.write hcb hi _, hcanonical⟩, fun a => ?_⟩
  split
  · next ha =>
    obtain rfl : a.toNat = i := ha
    exact codeOf_eq_of_reads hc (Mem.read_write_same hcl.1 _ _) (Mem.read_write_same hcb.1 _ _)
  · next ha => exact codeOf_congr (Mem.read_write_ne hcl.1 _ (Ne.symm ha)) (Mem.read_write_ne hcb.1 _ (Ne.symm ha))

/-- The codes the first part of the load script gives: the empty one to every symbol. -/
def emptyEntries : List (Nat × BitSeq) := (List.range Config.nsym).map fun i => (i, [])

/-- Loading empties the table and gives each entry's symbol its code, the later of two entries winning (R82, N16). -/
theorem codeOf_loadScript {es : List (Nat × BitSeq)} (h : ∀ e ∈ es, entryWellFormed e = true) {u : State}
    (hu : u.SpacesCanonical) (a : Byte) : codeOf (performAll (loadScript es) u) a = codeAfter es a.toNat [] := by
  have hwrites : wrAll .codelen (List.replicate Config.nsym 0) =
      emptyEntries.flatMap fun e => [wr .codelen e.1 0] := by
    rw [wrAll_replicate, emptyEntries, List.flatMap_map, List.map_eq_flatMap]
  have hclear : ∀ e ∈ emptyEntries, GivesCode [wr .codelen e.1 0] e := by
    intro e he
    obtain ⟨i, hi, rfl⟩ := List.mem_map.1 he
    exact givesCode_clear (List.mem_range.1 hi)
  have hempty : codeAfter emptyEntries a.toNat (codeOf u a) = [] :=
    codeAfter_eq (by simp [emptyEntries])
      (.inr ⟨(a.toNat, []), List.mem_map.2 ⟨a.toNat, List.mem_range.2 a.isLt, rfl⟩, rfl⟩)
  obtain ⟨hcan, hcleared⟩ := performAll_flatMap hclear hu
  obtain ⟨-, hloaded⟩ := performAll_flatMap (fun e he => givesCode_codeScript (h e he)) hcan
  rw [loadScript, hwrites, performAll_append, hloaded, hcleared, hempty]

/-- Settles O54: the entries that are read are those of the table, and loading them gives each symbol its own code. -/
theorem tableLineRoundTrips : Obligations.TableLineRoundTrips := by
  unfold Obligations.TableLineRoundTrips
  intro s s' policy hs hs'
  refine ⟨tableEntries s, readEntries_tableLine hs policy, fun a => ?_⟩
  have hown : ∀ e ∈ tableEntries s, e.1 = a.toNat → e.2 = codeOf s a := by
    intro e he ha
    obtain ⟨b, -, rfl⟩ := mem_tableEntries.1 he
    rw [BitVec.eq_of_toNat_eq ha]
  have hany : [] = codeOf s a ∨ ∃ e ∈ tableEntries s, e.1 = a.toNat := by
    by_cases hin : codeLength s a = 0
    · exact .inl (codeOf_eq_nil hin).symm
    · exact .inr ⟨_, mem_tableEntries.2 ⟨a, hin, rfl⟩, rfl⟩
  have hcode : codeOf (performAll (loadScript (tableEntries s)) s') a = codeOf s a := by
    rw [codeOf_loadScript (fun _ => entryWellFormed_of_mem_tableEntries) hs', codeAfter_eq hown hany]
  exact ⟨by rw [← length_codeOf, hcode, length_codeOf], hcode⟩

end Sys2Proof.Machine
end

section
namespace Sys2Proof.Machine

/-! ## The encoding of the commands (R90 to R96) -/

/-- Settles O3: a command's word decodes to it, and a word that decodes is one of the fourteen. -/
theorem decodeAndEncodeAgree : Obligations.DecodeAndEncodeAgree := by
  unfold Obligations.DecodeAndEncodeAgree
  exact fun _ _ _ => decode_eq_ok_iff

theorem exists_decode_error_iff {w : Word} : (∃ e, decode w = .error e) ↔ 14 ≤ w.toNat :=
  ⟨fun ⟨_, h⟩ => le_of_decode_error h, decode_error_of_le⟩

theorem splitWord_joinWord (c : CommandWord) : splitWord (joinWord c) = c := by
  rw [splitWord, joinWord, BitVec.extractLsb'_append_eq_left, BitVec.extractLsb'_append_eq_right]

theorem opcode_toNat (i : Instr) : (opcode i).toNat = (encode i).toNat % 16 := by
  rw [← splitWord_opc_toNat, encode, splitWord_joinWord]

/-- Settles O2: the illegal words are those from 14 up, and the opcode field of a command's word is its opcode. -/
theorem illegalWordsAreTheReservedOnes : Obligations.IllegalWordsAreTheReservedOnes := by
  unfold Obligations.IllegalWordsAreTheReservedOnes
  intro w
  refine ⟨?_, fun i h => ?_⟩
  · rw [exists_decode_error_iff]
    omega
  · rw [decode_eq_ok_iff.1 h, opcode_toNat]

/-- Settles O1: the fourteen words are those of the commands, the last two hold the reserved opcodes. -/
theorem opcodeMapWordsDecode : Obligations.OpcodeMapWordsDecode := by
  unfold Obligations.OpcodeMapWordsDecode
  exact ⟨decode_encode .nop, decode_encode .clr, decode_encode .count, decode_encode .build, decode_encode .gen,
    decode_encode .map, decode_encode .pad, decode_encode .pack, decode_encode .expand, decode_encode .strip,
    decode_encode .matchCodes, decode_encode .enc, decode_encode .dec, decode_encode .compress,
    commandOfOpcode_reserved (o := 14#4) (by decide), commandOfOpcode_reserved (o := 15#4) (by decide)⟩

/-! ## A host write to `CSR.CMD` (R97, R110) -/

/-- The step is the dispatch of the word written, and then the answer. -/
theorem step_commandWrite {s : State} {wdata : PortData} {rest : List Event}
    (h : s.inbox = .transaction ⟨true, 0#4, 1#32, wdata⟩ :: rest) :
    step s = answerCommand (runCommand (wdata.setWidth 32) { s with inbox := rest }) := by
  rw [step_transaction h, transact, if_pos (startsCommand_iff.2 rfl), commandWord]

theorem runCommand_of_ok {w : Word} {i : Instr} (h : decode w = .ok i) (s : State) :
    runCommand w s = exec i (startCommand w s) := by
  rw [runCommand, h]

theorem runCommand_of_error {w : Word} {e : DecodeError} (h : decode w = .error e) (s : State) :
    runCommand w s = .next (illegalCommand w (startCommand w s)) := by
  rw [runCommand, h]

/-- Settles O4: the step dispatches the word, and a legal one goes to `exec`, an illegal one to the failure ILLEGAL. -/
theorem commandWriteRunsTheDecodedCommand : Obligations.CommandWriteRunsTheDecodedCommand := by
  unfold Obligations.CommandWriteRunsTheDecodedCommand
  rintro s wdata rest w hin rfl
  refine ⟨fun i t hd hexec => ?_, fun e hd => ?_⟩
  · have hrun : exec i (startCommand (wdata.setWidth 32) { s with inbox := rest }) = .next t := hexec
    rw [step_commandWrite hin, runCommand_of_ok hd, hrun]
    rfl
  · rw [step_commandWrite hin, runCommand_of_error hd]
    rfl

theorem tableWord_toNat (w : Word) : tableWord 32 w.toNat = w := by
  rw [tableWord, Nat.mod_eq_of_lt w.isLt, BitVec.ofNat_toNat, BitVec.setWidth_eq]

theorem decodeTableWord_encode (i : Instr) : decodeTableWord 32 (encode i).toNat = some i := by
  rw [decodeTableWord, tableWord_toNat, decode_encode]

/-- Settles O5: the word placed is a write to `CSR.CMD` of the command's own word, which decodes to the command. -/
theorem fetchWordRunsItsCommand : Obligations.FetchWordRunsItsCommand := by
  unfold Obligations.FetchWordRunsItsCommand
  intro s t i hexec
  refine ⟨decodeTableWord_encode i, ?_⟩
  have hin : (s.withFetchWord 32 (encode i).toNat).inbox =
      .transaction ⟨true, 0#4, 1#32, (encode i).setWidth 256⟩ :: s.inbox := by
    rw [State.withFetchWord, tableWord_toNat, commandWrite]
  have hword : encode i = ((encode i).setWidth 256).setWidth 32 := by simp
  exact (commandWriteRunsTheDecodedCommand _ _ _ _ hin hword).1 i t (decode_encode i) hexec

end Sys2Proof.Machine
end

section
namespace Sys2Proof.Machine

/-! ## A command of one stage (R111 to R114) -/

theorem exec_of_one_stage {i : Instr} {p : Primitive} (hi : stagesOf i = [p]) (s : State) :
    exec i s = .next (runStage p s).state := by
  rw [exec_eq_runStages, hi, runStages_single]

theorem eq_stage_of_exec {i : Instr} {p : Primitive} {s t : State} (h : exec i s = .next t) (hi : stagesOf i = [p]) :
    t = (runStage p s).state := by
  rw [exec_of_one_stage hi] at h
  cases h
  rfl

theorem runStage_completed_of_exec {i : Instr} {p : Primitive} {s t u : State} (h : exec i s = .next t)
    (hi : stagesOf i = [p]) (hr : runStage p s = .completed u) : runStage p s = .completed t := by
  rw [eq_stage_of_exec h hi, hr, StageResult.state_completed]

/-! ## A stage of a composite, told by `ERR` (R116) -/

/-- From a state without a failure, `ERR` says how a stage has ended: no completion sets it, every failure does. -/
theorem runStage_cases_err (p : Primitive) {s : State} (h0 : s.err = 0#4) :
    (∃ t, runStage p s = .completed t ∧ t.err = 0#4) ∨ (∃ t, runStage p s = .failed t ∧ t.err ≠ 0#4) := by
  cases h : runStage p s with
  | completed t =>
    refine .inl ⟨t, rfl, ?_⟩
    by_cases hp : p = .clr
    · subst hp
      cases h
      rfl
    · exact (runStage_completed_registers hp h).1.trans h0
  | failed t =>
    obtain ⟨e, n, hraise⟩ := runStage_failed_by_raise h
    exact .inr ⟨t, rfl, (raiseFailure_registers hraise).1 ▸ errorCode_ne_zero e⟩

section
variable {i : Instr} {p : Primitive} {s t : State} (h0 : s.err = 0#4) (h : exec i s = .next t) (hi : stagesOf i = [p])
include h0 h hi

theorem runStage_completed_of_err (he : t.err = 0#4) : runStage p s = .completed t := by
  obtain rfl := eq_stage_of_exec h hi
  rcases runStage_cases_err p h0 with ⟨u, hu, -⟩ | ⟨u, hu, hne⟩ <;> rw [hu] at he ⊢
  · rfl
  · exact absurd he hne

theorem runStage_failed_of_err (he : t.err ≠ 0#4) : runStage p s = .failed t := by
  obtain rfl := eq_stage_of_exec h hi
  rcases runStage_cases_err p h0 with ⟨u, hu, hz⟩ | ⟨u, hu, -⟩ <;> rw [hu] at he ⊢
  · exact absurd hz he
  · rfl

end

/-- A BUILD that completes leaves a tree, so that GEN after it cannot fail (R141, R154). -/
theorem runStage_gen_after_build {s t : State} (h : runStage .build s = .completed t) :
    runStage .gen t =
      .completed (t.setTable (tableOfTree t.node t.root.toNat).codelen (tableOfTree t.node t.root.toNat).codebits) := by
  rcases runStage_gen t with ⟨hz, -⟩ | ⟨-, e⟩
  · exact absurd hz (buildTree_sound (tb := tieBreak) (co := childOrder) h).1
  · exact e

/-- Settles O22: as long as `ERR` is 0 a composite goes on with its later stages; the first failure leaves the
invalidation of the later stages as all that is done. EXPAND, COUNT and GEN after a BUILD cannot fail. -/
theorem compositesRunTheirStagesAndAbort : Obligations.CompositesRunTheirStagesAndAbort := by
  unfold Obligations.CompositesRunTheirStagesAndAbort
  refine ⟨fun s s1 s2 h0 hmap hpad => ?_, fun s s1 s2 h0 hexpand hstrip => ?_,
    fun s s1 s2 s3 h0 hcount hbuild hgen => ?_⟩
  · simp only [exec_eq_runStages .enc, exec_eq_runStages .pack, stagesOf]
    refine ⟨fun h1 => ?_, fun h1 h2 => ?_, fun h1 h2 => ?_⟩
    · rw [runStages_failed (runStage_failed_of_err h0 hmap rfl h1)]
      rfl
    · rw [runStages_completed (runStage_completed_of_err h0 hmap rfl h1),
        runStages_failed (runStage_failed_of_err h1 hpad rfl h2)]
      rfl
    · rw [runStages_completed (runStage_completed_of_err h0 hmap rfl h1),
        runStages_completed (runStage_completed_of_err h1 hpad rfl h2)]
  · have hx : runStage .expand s = .completed s1 := runStage_completed_of_exec hexpand rfl (runStage_expand s)
    have h1 : s1.err = 0#4 := (runStage_completed_registers (by decide) hx).1.trans h0
    simp only [exec_eq_runStages .dec, exec_eq_runStages .matchCodes, stagesOf, runStages_completed hx]
    refine ⟨fun h2 => ?_, fun h2 => ?_⟩
    · rw [runStages_failed (runStage_failed_of_err h1 hstrip rfl h2)]
      rfl
    · rw [runStages_completed (runStage_completed_of_err h1 hstrip rfl h2)]
  · have hc : runStage .count s = .completed s1 := runStage_completed_of_exec hcount rfl (runStage_count s)
    have h1 : s1.err = 0#4 := (runStage_completed_registers (by decide) hc).1.trans h0
    simp only [exec_eq_runStages .compress, exec_eq_runStages .enc, stagesOf, runStages_completed hc]
    refine ⟨fun h2 => ?_, fun h2 => ?_⟩
    · rw [runStages_failed (runStage_failed_of_err h1 hbuild rfl h2)]
      exact ⟨Mem.cleared, rfl, Mem.read_cleared 0#8⟩
    · have hb := runStage_completed_of_err h1 hbuild rfl h2
      have hg := runStage_completed_of_exec hgen rfl (runStage_gen_after_build hb)
      refine ⟨(runStage_completed_registers (by decide) hg).1.trans h2, ?_⟩
      rw [runStages_completed hb, runStages_completed hg]

/-! ## Every command and every step ends (R111) -/

/-- A transaction starts a command or is another access; both give one next state. -/
theorem exists_transact_next (t : Transaction) (s : State) : ∃ s', transact t s = .next s' := by
  cases hc : startsCommand t with
  | true => rcases transact_command hc s with ⟨_, -, e⟩ | ⟨_, -, e⟩ <;> exact ⟨_, e⟩
  | false => exact ⟨_, transact_access hc s⟩

/-- Settles O6: a command ends in the state its stages leave; a step is idle, a reset or a transaction. -/
theorem everyCommandAndStepEnds : Obligations.EveryCommandAndStepEnds := by
  unfold Obligations.EveryCommandAndStepEnds
  refine ⟨fun i s => ⟨_, exec_eq_runStages i s⟩, fun s => ?_⟩
  cases hin : s.inbox with
  | nil => exact ⟨s, step_idle hin⟩
  | cons ev rest =>
    cases ev with
    | reset => exact ⟨_, step_reset hin⟩
    | transaction t =>
      rw [step_transaction hin]
      exact exists_transact_next t _

/-! ## NOP and CLR (R112, R113) -/

theorem exec_nop (s : State) : exec .nop s = .next s := by
  rw [exec_of_one_stage rfl, runStage_nop, StageResult.state_completed]

theorem exec_clr (s : State) :
    exec .clr s = .next { State.reset with cmd := s.cmd, inbox := s.inbox, answers := s.answers } := by
  rw [exec_of_one_stage rfl, runStage_clr, StageResult.state_completed]

/-- Settles O23: the word 0 is NOP, so the step is the dispatch lines and the answer. -/
theorem nopClearsTheErrorOnly : Obligations.NopClearsTheErrorOnly := by
  unfold Obligations.NopClearsTheErrorOnly
  refine ⟨exec_nop, fun s wdata rest hin hword => ?_⟩
  exact (commandWriteRunsTheDecodedCommand s wdata rest 0#32 hin hword.symm).1 .nop _ (decode_encode .nop) (exec_nop _)

/-- No register but `CMD` shows `CMD` or the port's two fields (R22). -/
theorem readCsr_of_ne_cmd (s : State) (w : Word) (inbox : List Event) (answers : List Answer) {r : Csr}
    (hr : r ≠ .cmd) : readCsr { s with cmd := w, inbox := inbox, answers := answers } r = readCsr s r := by
  cases r
  case cmd => exact absurd rfl hr
  all_goals rfl

/-- Settles O24: the state CLR leaves is the reset state but for `CMD` and the port's two fields, of which no other
register reads. -/
theorem clrGivesTheResetStateButCmd : Obligations.ClrGivesTheResetStateButCmd := by
  unfold Obligations.ClrGivesTheResetStateButCmd
  exact ⟨decode_encode .clr, fun s => ⟨_, exec_clr s, rfl, fun _ => readCsr_of_ne_cmd State.reset _ _ _,
    fun _ => ⟨rfl, rfl, rfl, rfl, rfl, rfl, rfl, rfl⟩⟩⟩

end Sys2Proof.Machine
end

section
namespace Sys2Proof.Machine

/-! ## COUNT (R121 to R123) -/

/-- One symbol raises its own entry if it is below 128 and no other entry. -/
theorem countSymbol_read {f : Mem Word} (hf : Mem.Wf 0#32 f) (a : Byte) (i : Nat) :
    (countSymbol f a).read 0#32 i = f.read 0#32 i + if a.toNat = i ∧ i < 128 then 1#32 else 0#32 := by
  unfold countSymbol
  split
  · next ha =>
    simp only [Config.asciiLimit] at ha
    rw [Mem.read_write hf]
    by_cases hi : a.toNat = i
    · subst hi
      simp [ha]
    · simp [hi]
  · next ha =>
    simp only [Config.asciiLimit] at ha
    rw [if_neg (by omega), BitVec.add_zero]

/-- A symbol at the end of the text is counted last. -/
theorem countText_append_singleton (text : List Byte) (a : Byte) :
    countText (text ++ [a]) = countSymbol (countText text) a := by
  simp [countText]

/-- The counts wrap at 32 bits, as every addition of a count does. -/
theorem countText_read (text : List Byte) (i : Nat) :
    (countText text).read 0#32 i =
      BitVec.ofNat 32 (if i < 128 then text.countP (fun a => a.toNat == i) else 0) := by
  induction text using List.reverseRecOn with
  | nil => simp [countText]
  | append_singleton text a ih =>
    rw [countText_append_singleton, countSymbol_read (countText_good text).1, ih, List.countP_append,
      List.countP_singleton]
    by_cases hi : i < 128 <;> by_cases ha : a.toNat = i <;> simp [hi, ha, BitVec.ofNat_add]

/-- A text as long as a length register can say is counted without wrapping. -/
theorem countText_read_toNat {text : List Byte} (h : text.length < 2 ^ 32) (i : Nat) :
    ((countText text).read 0#32 i).toNat = if i < 128 then text.countP (fun a => a.toNat == i) else 0 := by
  rw [countText_read, BitVec.toNat_ofNat, Nat.mod_eq_of_lt]
  have hle : text.countP (fun a => a.toNat == i) ≤ text.length := List.countP_le_length
  split <;> omega

theorem textSymbols_length_lt (s : State) : (textSymbols s).length < 2 ^ 32 := by
  rw [textSymbols, Mem.slice_length]
  exact s.tlen.isLt

theorem textSymbols_countP (s : State) (p : Byte → Bool) :
    (textSymbols s).countP p = (List.range s.tlen.toNat).countP fun k => p (s.text.read 0#8 k) := by
  simp [textSymbols, Mem.slice, List.countP_map, Function.comp_def]

theorem exec_count (s : State) : exec .count s = .next { s with freq := countText (textSymbols s) } := by
  rw [exec_of_one_stage rfl, runStage_count, StageResult.state_completed, State.setFreq]

/-- Settles O25: COUNT puts the counts of the text in FREQ, and no count can pass the 32 bits of `TLEN`. -/
theorem countCountsTheSymbolsBelow128 : Obligations.CountCountsTheSymbolsBelow128 := by
  unfold Obligations.CountCountsTheSymbolsBelow128
  refine ⟨decode_encode .count, fun s => ⟨_, exec_count s, fun i => ?_⟩⟩
  rw [countText_read_toNat (textSymbols_length_lt s), textSymbols_countP]

end Sys2Proof.Machine
end

section
namespace Sys2Proof.Machine

/-! ## BUILD: the queue gives the least member (R132, R133) -/

/-- The block's order of the queue is the lexicographic order of the keys `(NFREQ, index)` (R132). -/
theorem keyBefore_tieBreak (a b : QueueKey) : keyBefore tieBreak a b = true ↔
    a.nfreq.toNat < b.nfreq.toNat ∨ (a.nfreq.toNat = b.nfreq.toNat ∧ a.index < b.index) := by
  simp [keyBefore, tieBreak, BitVec.toNat_inj]

/-- No member of the queue goes before the one `leastKey` finds (R133). -/
theorem not_keyBefore_leastKey (k : QueueKey) (q : List QueueKey) :
    ∀ x ∈ k :: q, ¬ keyBefore tieBreak x (leastKey tieBreak k q) = true := by
  induction q generalizing k with
  | nil =>
    intro x hx
    rw [List.mem_singleton.1 hx, leastKey, keyBefore_tieBreak]
    omega
  | cons k' q ih =>
    rw [leastKey]
    have hmin : ∀ x, x = k ∨ x = k' → ¬ keyBefore tieBreak x (if keyBefore tieBreak k' k then k' else k) = true := by
      intro x hx
      split
      all_goals
        next h =>
          rw [keyBefore_tieBreak] at h ⊢
          rcases hx with rfl | rfl <;> omega
    have hleast := ih (if keyBefore tieBreak k' k then k' else k)
    intro x hx
    by_cases hq : x ∈ q
    · exact hleast x (List.mem_cons_of_mem _ hq)
    · have h1 := hmin x (by simpa [hq] using hx)
      have h2 := hleast _ List.mem_cons_self
      rw [keyBefore_tieBreak] at h1 h2 ⊢
      omega

/-- The member `extract_min` takes goes before every other member of the queue (R133). -/
theorem extractMin_least {q q' : Queue} {a : QueueKey} (h : extractMin tieBreak q = some (a, q')) {k : QueueKey}
    (hk : k ∈ q) (hne : k.index ≠ a.index) : keyBefore tieBreak a k = true := by
  cases q with
  | nil => cases h
  | cons k0 q =>
    cases h
    have hle := not_keyBefore_leastKey k0 q k hk
    rw [keyBefore_tieBreak] at hle ⊢
    omega

/-! ## BUILD: an induction over the rounds (R135 to R138) -/

/-- What a round keeps, given the forest it works on, holds of the forest at the end. -/
theorem Forest.rounds_induction {P : List Node → Queue → Prop} {tb : Config.TieBreak} {co : Config.ChildOrder}
    {ls nodes : List Node} {q : Queue} (hn : ls.length ≤ 256)
    (hround : ∀ {nodes : List Node} {q q1 q2 : Queue} {a b : QueueKey}, Forest ls nodes q →
      extractMin tb q = some (a, q1) → extractMin tb q1 = some (b, q2) → P nodes q →
      P (nodes ++ [combine co a b]) (q2 ++ [⟨a.nfreq + b.nfreq, nodes.length⟩]))
    (h : Forest ls nodes q) (hP : P nodes q) (fuel : Nat) :
    Forest ls (buildRounds tb co fuel nodes q).1 (buildRounds tb co fuel nodes q).2 ∧
      P (buildRounds tb co fuel nodes q).1 (buildRounds tb co fuel nodes q).2 := by
  induction fuel generalizing nodes q with
  | zero => exact ⟨h, hP⟩
  | succ fuel ih =>
    rw [buildRounds]
    cases ha : extractMin tb q with
    | none => exact ⟨h, hP⟩
    | some p =>
      obtain ⟨a, q1⟩ := p
      cases hb : extractMin tb q1 with
      | none => simpa only [hb] using ⟨h, hP⟩
      | some p =>
        obtain ⟨b, q2⟩ := p
        have hperm : q.Perm (a :: b :: q2) := (extractMin_perm ha).trans ((extractMin_perm hb).cons a)
        simpa only [hb] using ih ((h.perm hperm).round hn co) (hround h ha hb hP)

/-! ## BUILD: each round joins the two least nodes (R134, R135) -/

/-- Node c is in the queue in round r of a BUILD over n leaves: it is made, and no node of an earlier round has it as
a child (R131). -/
def Waiting (m : Mem Node) (n r c : Nat) : Prop := c < n + r ∧ ∀ r' < r, ¬ isParent m (n + r') c

/-- Node c goes before node d by `(NFREQ, index)` (R132). -/
def NodeBefore (m : Mem Node) (c d : Nat) : Prop := freqAt m c < freqAt m d ∨ (freqAt m c = freqAt m d ∧ c < d)

/-- Round r joins the least node of the queue, on the left, and the second least, on the right (R135). -/
def JoinsLeastPair (m : Mem Node) (n r : Nat) : Prop :=
  ∃ a b, Waiting m n r a ∧ Waiting m n r b ∧ a ≠ b ∧
    m.read Node.zero (n + r) = .internal (nodeFreq (m.read Node.zero a) + nodeFreq (m.read Node.zero b))
      (BitVec.ofNat 9 a) (BitVec.ofNat 9 b) ∧
    (∀ c, Waiting m n r c → c ≠ a → NodeBefore m a c) ∧ (∀ c, Waiting m n r c → c ≠ a → c ≠ b → NodeBefore m b c)

theorem Waiting.congr {m m' : Mem Node} {n r c : Nat} (h : Waiting m n r c)
    (e : ∀ i < n + r, m.read Node.zero i = m'.read Node.zero i) : Waiting m' n r c :=
  ⟨h.1, fun r' hr' => mt (isParent_congr (e (n + r') (by omega)) c).2 (h.2 r' hr')⟩

theorem NodeBefore.congr {m m' : Mem Node} {c d : Nat} (h : NodeBefore m c d)
    (ec : m.read Node.zero c = m'.read Node.zero c) (ed : m.read Node.zero d = m'.read Node.zero d) :
    NodeBefore m' c d := by
  rwa [NodeBefore, ← freqAt_congr ec, ← freqAt_congr ed]

/-- What a round joins depends on the records made up to it. -/
theorem JoinsLeastPair.congr {m m' : Mem Node} {n r : Nat} (h : JoinsLeastPair m n r)
    (e : ∀ i ≤ n + r, m.read Node.zero i = m'.read Node.zero i) : JoinsLeastPair m' n r := by
  obtain ⟨a, b, ha, hb, hab, hnew, hleast, hsecond⟩ := h
  have hlt : ∀ i < n + r, m.read Node.zero i = m'.read Node.zero i := fun i hi => e i (Nat.le_of_lt hi)
  have hback : ∀ {c}, Waiting m' n r c → Waiting m n r c := fun hc => hc.congr fun i hi => (hlt i hi).symm
  refine ⟨a, b, ha.congr hlt, hb.congr hlt, hab, ?_, fun c hc hca => ?_, fun c hc hca hcb => ?_⟩
  · rw [← e _ (Nat.le_refl _), ← hlt a ha.1, ← hlt b hb.1, hnew]
  · exact (hleast c (hback hc) hca).congr (hlt a ha.1) (hlt c hc.1)
  · exact (hsecond c (hback hc) hca hcb).congr (hlt b hb.1) (hlt c hc.1)

/-- Between two rounds the nodes without a parent are those of the queue (R131). -/
theorem Forest.waiting_iff {ls nodes : List Node} {q : Queue} (h : Forest ls nodes q) {r c : Nat}
    (hr : ls.length + r = nodes.length) :
    Waiting (nodeMem nodes) ls.length r c ↔ c ∈ q.map QueueKey.index := by
  constructor
  · rintro ⟨hc, hno⟩
    by_contra hq
    obtain ⟨i, hi, -⟩ := h.used c (hr ▸ hc) hq
    have hlt := lt_of_isParent_nodeMem hi
    rcases Nat.lt_or_ge i ls.length with hleaf | hge
    · obtain ⟨sym, f, e⟩ := h.leaf _ (List.getElem_mem hleaf)
      exact not_isParent_of_leaf ((h.read_leaf hleaf).trans e) c hi
    · exact hno (i - ls.length) (by omega) (by rwa [Nat.add_sub_cancel' hge])
  · intro hc
    obtain ⟨k, hk, rfl⟩ := List.mem_map.1 hc
    exact ⟨hr ▸ (h.key k hk).1, fun _ _ => h.queued k hk _⟩

/-- The order of the queue is the order of its nodes: a key is its node's frequency and index (R132, R136). -/
theorem Forest.nodeBefore_of_keyBefore {ls nodes : List Node} {q : Queue} (h : Forest ls nodes q) {a k : QueueKey}
    (ha : a ∈ q) (hk : k ∈ q) (hb : keyBefore tieBreak a k = true) :
    NodeBefore (nodeMem nodes) a.index k.index := by
  rwa [NodeBefore, freqAt, freqAt, (h.key a ha).2, (h.key k hk).2, ← keyBefore_tieBreak]

/-- The round of this block on a forest joins the two least nodes of its queue. -/
theorem Forest.round_joinsLeastPair {ls nodes : List Node} {q q1 q2 : Queue} {a b : QueueKey} {r : Nat}
    (h : Forest ls nodes q) (ha : extractMin tieBreak q = some (a, q1)) (hb : extractMin tieBreak q1 = some (b, q2))
    (hr : ls.length + r = nodes.length) :
    JoinsLeastPair (nodeMem (nodes ++ [combine childOrder a b])) ls.length r := by
  have hpa := extractMin_perm ha
  have hpb := extractMin_perm hb
  have hq1 : ∀ {k}, k ∈ q → k.index ≠ a.index → k ∈ q1 := fun hk hne =>
    (List.mem_cons.1 (hpa.mem_iff.1 hk)).resolve_left fun e => hne (congrArg _ e)
  have haq : a ∈ q := hpa.mem_iff.2 List.mem_cons_self
  have hbq : b ∈ q := hpa.mem_iff.2 (List.mem_cons_of_mem _ (hpb.mem_iff.2 List.mem_cons_self))
  have hab : a.index ≠ b.index := (h.perm (hpa.trans (hpb.cons a))).heads_distinct.1
  have hold : ∀ i < ls.length + r,
      (nodeMem nodes).read Node.zero i = (nodeMem (nodes ++ [combine childOrder a b])).read Node.zero i :=
    fun i hi => (nodeMem_append_read_old (hr ▸ hi) _).symm
  have hwait : ∀ {k}, k ∈ q → Waiting (nodeMem nodes) ls.length r k.index :=
    fun hk => (h.waiting_iff hr).2 (List.mem_map_of_mem hk)
  have hqueue : ∀ {c}, Waiting (nodeMem (nodes ++ [combine childOrder a b])) ls.length r c →
      ∃ k ∈ q, k.index = c :=
    fun hc => List.mem_map.1 ((h.waiting_iff hr).1 (hc.congr fun i hi => (hold i hi).symm))
  have hbefore : ∀ {x k}, x ∈ q → k ∈ q → keyBefore tieBreak x k = true →
      NodeBefore (nodeMem (nodes ++ [combine childOrder a b])) x.index k.index := fun hx hk hxk =>
    (h.nodeBefore_of_keyBefore hx hk hxk).congr (hold _ (hwait hx).1) (hold _ (hwait hk).1)
  refine ⟨a.index, b.index, (hwait haq).congr hold, (hwait hbq).congr hold, hab, ?_, fun c hc hca => ?_,
    fun c hc hca hcb => ?_⟩
  · rw [← hold _ (hwait haq).1, ← hold _ (hwait hbq).1, (h.key a haq).2, (h.key b hbq).2, hr, nodeMem_append_read_new]
    rfl
  · obtain ⟨k, hk, rfl⟩ := hqueue hc
    exact hbefore haq hk (extractMin_least ha hk hca)
  · obtain ⟨k, hk, rfl⟩ := hqueue hc
    exact hbefore hbq hk (extractMin_least hb (hq1 hk hca) hcb)

/-- Every round of this block's BUILD joins the two least nodes of its queue (R135, R137). -/
theorem buildNodes_joinsLeastPair {f : Mem Word} {r : Nat}
    (hr : (leaves f).length + r < (buildNodes tieBreak childOrder f).length) :
    JoinsLeastPair (nodeMem (buildNodes tieBreak childOrder f)) (leaves f).length r := by
  refine (Forest.rounds_induction
    (P := fun nodes _ => ∀ r, (leaves f).length + r < nodes.length → JoinsLeastPair (nodeMem nodes) (leaves f).length r)
    (leaves_length_le f) ?round (Forest.init (leaves_are_leaves f) (leaves_total_lt f)) ?init _).2 r hr
  case init => exact fun r hr => absurd hr (by omega)
  case round =>
    intro nodes q q1 q2 a b h ha hb hP r hr
    rw [List.length_append, List.length_singleton] at hr
    rcases Nat.lt_succ_iff_lt_or_eq.1 hr with hold | hnew
    · exact (hP r hold).congr fun i hi => (nodeMem_append_read_old (by omega) _).symm
    · exact h.round_joinsLeastPair ha hb hnew

/-! ## BUILD: no count is lost (R141) -/

/-- The frequencies in the queue, added up. -/
def queueTotal (q : Queue) : Nat := (q.map fun k => k.nfreq.toNat).sum

theorem queueTotal_initialQueue (ls : List Node) :
    queueTotal (initialQueue ls) = (ls.map fun x => (nodeFreq x).toNat).sum := by
  conv_rhs => rw [← List.zipIdx_map_fst 0 ls, List.map_map]
  rw [queueTotal, initialQueue, List.map_map]
  rfl

/-- A round takes two frequencies out of the queue and puts their exact sum in. -/
theorem Forest.round_queueTotal {ls nodes : List Node} {a b : QueueKey} {q : Queue}
    (h : Forest ls nodes (a :: b :: q)) (hn : ls.length ≤ 256) (co : Config.ChildOrder) (i : Nat) :
    queueTotal (q ++ [⟨a.nfreq + b.nfreq, i⟩]) = queueTotal (a :: b :: q) := by
  obtain ⟨-, -, -, hsum, -⟩ := h.combine_sound hn co
  simp only [queueTotal, List.map_append, List.map_cons, List.map_nil, List.sum_append, List.sum_cons, List.sum_nil,
    hsum]
  omega

/-- A forest with one member in the queue has its last node there. -/
theorem Forest.single_index {ls nodes : List Node} {k : QueueKey} (h : Forest ls nodes [k])
    (hpos : 0 < nodes.length) : k.index = nodes.length - 1 := by
  by_contra hne
  obtain ⟨i, hi, -⟩ := h.used (nodes.length - 1) (by omega) (by simpa using Ne.symm hne)
  have := h.child_lt hi
  have := lt_of_isParent_nodeMem hi
  omega

/-- BUILD ends with a forest whose queue holds all the counts of the leaves. -/
theorem buildNodes_forest (tb : Config.TieBreak) (co : Config.ChildOrder) (f : Mem Word) :
    ∃ q, Forest (leaves f) (buildNodes tb co f) q ∧
      queueTotal q = ((leaves f).map fun x => (nodeFreq x).toNat).sum := by
  have hn := leaves_length_le f
  refine ⟨_, Forest.rounds_induction
    (P := fun _ q => queueTotal q = ((leaves f).map fun x => (nodeFreq x).toNat).sum) hn ?round
    (Forest.init (leaves_are_leaves f) (leaves_total_lt f)) (queueTotal_initialQueue _) (leaves f).length⟩
  intro nodes q q1 q2 a b h ha hb hP
  have hperm : q.Perm (a :: b :: q2) := (extractMin_perm ha).trans ((extractMin_perm hb).cons a)
  rw [(h.perm hperm).round_queueTotal hn co, ← hP]
  exact (hperm.map _).sum_eq.symm

/-- The root's frequency is the sum of the leaves', for every tie-break and child order. -/
theorem buildNodes_rootFreq (tb : Config.TieBreak) (co : Config.ChildOrder) {f : Mem Word} (hne : leaves f ≠ []) :
    freqAt (nodeMem (buildNodes tb co f)) (2 * (leaves f).length - 2) =
      ((leaves f).map fun x => (nodeFreq x).toNat).sum := by
  have hpos := List.length_pos_iff.2 hne
  have hlen := (buildNodes_sound tb co hne).1
  obtain ⟨q, hforest, htotal⟩ := buildNodes_forest tb co f
  have hsize := hforest.size
  obtain ⟨k, rfl⟩ : ∃ k, q = [k] := List.length_eq_one_iff.1 (by omega)
  have hroot : k.index = 2 * (leaves f).length - 2 := by
    rw [hforest.single_index (by omega)]
    omega
  rw [← htotal, ← hroot, freqAt, (hforest.key k (by simp)).2]
  simp [queueTotal]

/-- The counts of the leaves are the counts of all 256 symbols: a symbol left out has none (R134). -/
theorem leaves_total (f : Mem Word) : ((leaves f).map fun x => (nodeFreq x).toNat).sum =
    ((List.range 256).map fun i => (f.read 0#32 i).toNat).sum := by
  have hfreq : ∀ i, (nodeFreq (leafOf f i)).toNat = (f.read 0#32 i).toNat := fun i => by
    have := (f.read 0#32 i).isLt
    rw [leafOf, nodeFreq, BitVec.toNat_setWidth, Nat.mod_eq_of_lt (by omega)]
  have hpresent : (fun i => f.read 0#32 i != 0#32) = (· != 0) ∘ fun i => (f.read 0#32 i).toNat := by
    funext i
    simp [bne, BitVec.toNat_eq]
  rw [leaves, presentSymbols, Config.nsym, List.map_map, Function.comp_def]
  simp only [hfreq]
  rw [hpresent, ← List.filter_map, List.sum_filter_bne_zero]

/-! ## BUILD: the frequencies of the internal nodes do not fall (R144) -/

theorem NodeBefore.freqAt_le {m : Mem Node} {c d : Nat} (h : NodeBefore m c d) : freqAt m c ≤ freqAt m d := by
  rcases h with h | ⟨h, -⟩ <;> omega

/-- The two nodes a round joins, as the children of the node it makes (R135), and exact (R141). -/
theorem JoinsLeastPair.children {m : Mem Node} {n r : Nat} (h : JoinsLeastPair m n r) (hlt : n + r < 512)
    (hs : SoundInternal m (n + r)) :
    ∃ a b, Waiting m n r a ∧ Waiting m n r b ∧ a ≠ b ∧ freqAt m (n + r) = freqAt m a + freqAt m b ∧
      (∀ j, isParent m (n + r) j ↔ j = a ∨ j = b) ∧
      (∀ c, Waiting m n r c → c ≠ a → freqAt m a ≤ freqAt m c) ∧
      ∀ c, Waiting m n r c → c ≠ a → c ≠ b → freqAt m b ≤ freqAt m c := by
  obtain ⟨a, b, ha, hb, hab, hnew, hleast, hsecond⟩ := h
  obtain ⟨f, l, r', hread, -, -, -, hf⟩ := hs
  have hta : (BitVec.ofNat 9 a).toNat = a := (BitVec.toNat_ofNat _ _).trans (Nat.mod_eq_of_lt (Nat.lt_trans ha.1 hlt))
  have htb : (BitVec.ofNat 9 b).toNat = b := (BitVec.toNat_ofNat _ _).trans (Nat.mod_eq_of_lt (Nat.lt_trans hb.1 hlt))
  refine ⟨a, b, ha, hb, hab, ?_, fun j => ?_, fun c hc hca => (hleast c hc hca).freqAt_le,
    fun c hc hca hcb => (hsecond c hc hca hcb).freqAt_le⟩
  · rw [hnew] at hread
    cases hread
    rw [hta, htb] at hf
    rw [← hf, freqAt, hnew, nodeFreq]
  · rw [isParent_of_read hnew, hta, htb, eq_comm, @eq_comm _ b]

/-- The next round's node is no less frequent: its children are the node just made or members left in the queue, which
are no less frequent than the two taken out. -/
theorem freqAt_le_succ {m : Mem Node} {n r : Nat} (h : JoinsLeastPair m n r) (h' : JoinsLeastPair m n (r + 1))
    (hlt : n + (r + 1) < 512) (hs : SoundInternal m (n + r)) (hs' : SoundInternal m (n + (r + 1))) :
    freqAt m (n + r) ≤ freqAt m (n + (r + 1)) := by
  obtain ⟨a, b, -, hb, hab, hf, hpar, hleast, hsecond⟩ := h.children (by omega) hs
  obtain ⟨c, d, hc, hd, hcd, hf', -⟩ := h'.children hlt hs'
  have hle : freqAt m a ≤ freqAt m b := hleast b hb hab.symm
  have hcase : ∀ x, Waiting m n (r + 1) x → x = n + r ∨ freqAt m b ≤ freqAt m x := by
    rintro x ⟨hx, hno⟩
    by_cases hnew : x = n + r
    · exact .inl hnew
    · obtain ⟨hxa, hxb⟩ := not_or.1 (mt (hpar x).2 (hno r (Nat.lt_succ_self r)))
      exact .inr (hsecond x ⟨by omega, fun r' hr' => hno r' (Nat.lt_succ_of_lt hr')⟩ hxa hxb)
  rcases hcase c hc with rfl | hc
  · omega
  · rcases hcase d hd with rfl | hd <;> omega

/-- Over the rounds of a sound tree that each join the two least nodes the frequencies do not fall (R144). -/
theorem TreeSound.freqAt_mono {m : Mem Node} {n : Nat} (h : TreeSound m (2 * n - 1)) (hpos : 0 < n)
    (hjoin : ∀ r < n - 1, JoinsLeastPair m n r) {i j : Nat} (hi : n ≤ i) (hij : i ≤ j) (hj : j < 2 * n - 1) :
    freqAt m i ≤ freqAt m j := by
  obtain ⟨-, hmax, -, -, hinner, -⟩ := h
  have hcap : Config.maxNodes = 511 := rfl
  have hs : ∀ r < n - 1, SoundInternal m (n + r) := fun r hr => hinner (n + r) (by omega) (by omega)
  induction j, hij using Nat.le_induction with
  | base => exact Nat.le_refl _
  | succ j hij ih =>
    obtain ⟨r, rfl⟩ := Nat.exists_eq_add_of_le (Nat.le_trans hi hij)
    exact (ih (by omega)).trans (freqAt_le_succ (hjoin r (by omega)) (hjoin (r + 1) (by omega)) (by omega)
      (hs r (by omega)) (hs (r + 1) (by omega)))

/-! ## The command BUILD (R134 to R141) -/

theorem leaves_eq_nil_iff (f : Mem Word) : leaves f = [] ↔ ∀ i < 256, f.read 0#32 i = 0#32 := by
  simp [leaves, presentSymbols, Config.nsym]

theorem mem_presentSymbols (f : Mem Word) (i : Nat) : i ∈ presentSymbols f ↔ i < 256 ∧ f.read 0#32 i ≠ 0#32 := by
  simp [presentSymbols, Config.nsym]

/-- NODE after a BUILD of this block that completes. -/
def builtTree (s : State) : Mem Node := s.node.writeFrom Node.zero 0 (buildNodes tieBreak childOrder s.freq)

theorem exec_build_of_leaves {s : State} (h : leaves s.freq ≠ []) :
    exec .build s = .next (s.setTree (builtTree s) (BitVec.ofNat 10 (2 * (leaves s.freq).length - 1))
      (BitVec.ofNat 9 (2 * (leaves s.freq).length - 2))) := by
  rcases runStage_build s with ⟨hz, -⟩ | ⟨-, e⟩
  · exact absurd hz h
  · rw [exec_of_one_stage rfl, e, StageResult.state_completed, builtTree]

theorem builtTree_read_new {s : State} (hne : leaves s.freq ≠ []) {i : Nat} (hi : i < 2 * (leaves s.freq).length - 1) :
    (nodeMem (buildNodes tieBreak childOrder s.freq)).read Node.zero i = (builtTree s).read Node.zero i := by
  have hlen := (buildNodes_sound tieBreak childOrder hne).1
  rw [nodeMem_read, builtTree, Mem.read_writeFrom, if_pos ⟨Nat.zero_le _, by omega⟩, Nat.sub_zero]

theorem builtTree_read_above {s : State} (hne : leaves s.freq ≠ []) {i : Nat}
    (hi : 2 * (leaves s.freq).length - 1 ≤ i) : (builtTree s).read Node.zero i = s.node.read Node.zero i := by
  have hlen := (buildNodes_sound tieBreak childOrder hne).1
  rw [builtTree, Mem.read_writeFrom, if_neg (by omega)]

/-- The leaves stand first, in ascending symbol order (R134). -/
theorem builtTree_read_leaf {s : State} (k : Nat) (h : k < (presentSymbols s.freq).length) :
    (builtTree s).read Node.zero k = leafOf s.freq (presentSymbols s.freq)[k] := by
  have hk : k < (leaves s.freq).length := by rwa [leaves, List.length_map]
  have hne : leaves s.freq ≠ [] := List.length_pos_iff.1 (Nat.zero_lt_of_lt hk)
  obtain ⟨q, hforest, -⟩ := buildNodes_forest tieBreak childOrder s.freq
  rw [← builtTree_read_new hne (by omega), hforest.read_leaf hk]
  simp only [leaves, List.getElem_map]

theorem builtTree_joinsLeastPair {s : State} {r : Nat} (hr : r < (leaves s.freq).length - 1) :
    JoinsLeastPair (builtTree s) (leaves s.freq).length r := by
  have hne : leaves s.freq ≠ [] := List.length_pos_iff.1 (by omega)
  have hlen := (buildNodes_sound tieBreak childOrder hne).1
  exact (buildNodes_joinsLeastPair (by omega)).congr fun i hi => builtTree_read_new hne (by omega)

theorem builtTree_sound {s : State} (hne : leaves s.freq ≠ []) :
    TreeSound (builtTree s) (2 * (leaves s.freq).length - 1) := by
  obtain ⟨hlen, hsound⟩ := buildNodes_sound tieBreak childOrder hne
  rw [hlen] at hsound
  exact hsound.congr fun i hi => builtTree_read_new hne hi

/-- Settles O27: the queue holds the nodes without a parent, `extract_min` takes the least of them under the block's
tie-break, and later rounds leave the records of earlier ones alone. -/
theorem buildCombinesTheTwoLeastNodes : Obligations.BuildCombinesTheTwoLeastNodes := by
  unfold Obligations.BuildCombinesTheTwoLeastNodes
  intro s syms hsyms hasc hmem
  obtain rfl : syms = presentSymbols s.freq :=
    hasc.eq_of_mem_iff (presentSymbols_ascending s.freq) fun i => (hmem i).trans (mem_presentSymbols s.freq i).symm
  have hlen : (presentSymbols s.freq).length = (leaves s.freq).length := (List.length_map _).symm
  have hne : leaves s.freq ≠ [] := mt List.map_eq_nil_iff.1 hsyms
  refine ⟨builtTree s, ?_, builtTree_read_leaf, ?_, ?_⟩ <;> rw [hlen]
  · exact exec_build_of_leaves hne
  · exact fun r hr => builtTree_joinsLeastPair hr
  · exact fun j hj => builtTree_read_above hne hj

/-- Settles O28: the sums are exact as the tree is sound; a round keeps the sum of the queue, which ends as the root's
frequency; a round joins nodes no less frequent than the round before. -/
theorem buildFrequenciesAreExactAndRising : Obligations.BuildFrequenciesAreExactAndRising := by
  unfold Obligations.BuildFrequenciesAreExactAndRising
  rintro s t ⟨i, hi, hcount⟩ hexec
  have hne : leaves s.freq ≠ [] := fun e => hcount ((leaves_eq_nil_iff _).1 e i hi)
  have hpos := List.length_pos_iff.2 hne
  have hle := leaves_length_le s.freq
  have hsound := builtTree_sound hne
  rw [exec_build_of_leaves hne] at hexec
  cases hexec
  have hnn : (BitVec.ofNat 10 (2 * (leaves s.freq).length - 1)).toNat = 2 * (leaves s.freq).length - 1 :=
    (BitVec.toNat_ofNat _ _).trans (Nat.mod_eq_of_lt (by omega))
  have hroot : (BitVec.ofNat 9 (2 * (leaves s.freq).length - 2)).toNat = 2 * (leaves s.freq).length - 2 :=
    (BitVec.toNat_ofNat _ _).trans (Nat.mod_eq_of_lt (by omega))
  have hhalf : (2 * (leaves s.freq).length - 1 + 1) / 2 = (leaves s.freq).length := by omega
  simp only [State.setTree_node, State.setTree_nnodes, State.setTree_root, hnn, hroot, hhalf]
  refine ⟨?total, fun i f l r hi hread => ?exact, fun i j hi hij hj => ?rising⟩
  case total =>
    rw [← freqAt_congr (builtTree_read_new hne (by omega)), buildNodes_rootFreq tieBreak childOrder hne, leaves_total]
  case exact =>
    obtain ⟨-, -, hleaf, -, hinner, -⟩ := hsound
    rw [hhalf] at hleaf hinner
    rcases Nat.lt_or_ge i (leaves s.freq).length with hlt | hge
    · obtain ⟨sym, g, e⟩ := hleaf i hlt
      rw [hread] at e
      cases e
    · obtain ⟨f', l', r', e, -, -, -, hf⟩ := hinner i hge hi
      rw [hread] at e
      cases e
      exact hf
  case rising =>
    exact hsound.freqAt_mono hpos (fun r hr => builtTree_joinsLeastPair hr) hi (Nat.le_of_lt hij) hj

/-- Settles O26: without a count there is no leaf, and all BUILD does is take its failure and invalidate the tree. -/
theorem buildRejectsTheEmptyTable : Obligations.BuildRejectsTheEmptyTable := by
  unfold Obligations.BuildRejectsTheEmptyTable
  intro s hempty
  rcases runStage_build s with ⟨-, e⟩ | ⟨hne, -⟩
  · rw [exec_of_one_stage rfl, e]
    rfl
  · exact absurd ((leaves_eq_nil_iff _).2 hempty) hne

end Sys2Proof.Machine
end

section
namespace Sys2Proof.Machine

/-! ## Paths in the tree (R150, R151) -/

/-- Node j is the left (b = 0) or the right (b = 1) child of node i. -/
def IsChild (m : Mem Node) (b : Bool) (i j : Nat) : Prop :=
  ∃ f l r, m.read Node.zero i = .internal f l r ∧ (if b then r.toNat else l.toNat) = j

/-- The path leads from node i to a leaf of the symbol. -/
def LeadsTo (m : Mem Node) (i : Nat) (path : BitSeq) (sym : Byte) : Prop :=
  ∃ j f, followPath m i path = some j ∧ m.read Node.zero j = .leaf sym f

theorem IsChild.isParent {m : Mem Node} {b : Bool} {i j : Nat} (h : IsChild m b i j) : isParent m i j := by
  obtain ⟨f, l, r, hr, e⟩ := h
  cases b
  · exact ⟨f, l, r, hr, .inl e⟩
  · exact ⟨f, l, r, hr, .inr e⟩

theorem followPath_nil_iff {m : Mem Node} {i j : Nat} : followPath m i [] = some j ↔ i = j := Option.some_inj

theorem followPath_cons_iff {m : Mem Node} {i j : Nat} {b : Bool} {path : BitSeq} :
    followPath m i (b :: path) = some j ↔ ∃ k, IsChild m b i k ∧ followPath m k path = some j := by
  cases h : m.read Node.zero i with
  | leaf sym f => simp [followPath, IsChild, h]
  | internal f l r => simp [followPath, IsChild, h]

theorem followPath_snoc_iff {m : Mem Node} {i j : Nat} {path : BitSeq} {b : Bool} :
    followPath m i (path ++ [b]) = some j ↔ ∃ k, followPath m i path = some k ∧ IsChild m b k j := by
  induction path generalizing i with
  | nil => simp [followPath_cons_iff, followPath_nil_iff]
  | cons c path ih =>
    simp only [List.cons_append, followPath_cons_iff, ih]
    constructor
    · rintro ⟨n, hn, k, hk, hj⟩
      exact ⟨k, ⟨n, hn, hk⟩, hj⟩
    · rintro ⟨k, ⟨n, hn, hk⟩, hj⟩
      exact ⟨n, hn, k, hk, hj⟩

theorem leadsTo_leaf_iff {m : Mem Node} {i : Nat} {sym sym' : Byte} {f : NodeFreq} {path : BitSeq}
    (h : m.read Node.zero i = .leaf sym' f) : LeadsTo m i path sym ↔ path = [] ∧ sym' = sym := by
  cases path with
  | nil => simp [LeadsTo, followPath, h]
  | cons b path => simp [LeadsTo, followPath, h]

theorem leadsTo_internal_iff {m : Mem Node} {i : Nat} {sym : Byte} {f : NodeFreq} {l r : NodeIndex} {path : BitSeq}
    (h : m.read Node.zero i = .internal f l r) :
    LeadsTo m i path sym ↔ ∃ b p, path = b :: p ∧ LeadsTo m (if b then r.toNat else l.toNat) p sym := by
  cases path with
  | nil => simp [LeadsTo, followPath, h]
  | cons b path => simp [LeadsTo, followPath, h]

/-! ## Paths in a sound tree (R41, R152) -/

section
variable {m : Mem Node} {nn : Nat}

/-- A node that has a child is no leaf, and the child stands below it. -/
theorem TreeSound.isChild_lt (h : TreeSound m nn) {b : Bool} {i j : Nat} (hi : i < nn) (hc : IsChild m b i j) :
    (nn + 1) / 2 ≤ i ∧ j < i := by
  obtain ⟨-, -, hleaf, -, hinner, -⟩ := h
  obtain ⟨f, l, r, hr, e⟩ := hc
  have hge : (nn + 1) / 2 ≤ i := by
    by_contra hlt
    obtain ⟨sym, g, e'⟩ := hleaf i (Nat.lt_of_not_le hlt)
    rw [hr] at e'
    cases e'
  obtain ⟨f', l', r', e', hl, hrt, -⟩ := hinner i hge hi
  rw [hr] at e'
  cases e'
  refine ⟨hge, ?_⟩
  cases b
  · exact e ▸ hl
  · exact e ▸ hrt

/-- A node is the child of one node at most, and on one side only. -/
theorem TreeSound.isChild_unique (h : TreeSound m nn) {b b' : Bool} {i i' j : Nat} (hi : i < nn) (hi' : i' < nn)
    (hc : IsChild m b i j) (hc' : IsChild m b' i' j) : i = i' ∧ b = b' := by
  obtain ⟨hge, hlt⟩ := h.isChild_lt hi hc
  obtain ⟨-, -, -, -, hinner, hparent, -⟩ := h
  obtain ⟨k, -, huniq⟩ := hparent j (by omega)
  obtain rfl : i = i' := (huniq i hi hc.isParent).trans (huniq i' hi' hc'.isParent).symm
  obtain ⟨f, l, r, hr, -, -, hlr, -⟩ := hinner i hge hi
  obtain ⟨_, _, _, hr', e⟩ := hc
  obtain ⟨_, _, _, hr'', e'⟩ := hc'
  rw [hr] at hr' hr''
  cases hr'
  cases hr''
  have hne : l.toNat ≠ r.toNat := fun e => hlr (BitVec.eq_of_toNat_eq e)
  refine ⟨rfl, ?_⟩
  cases b with
  | false =>
    cases b' with
    | false => rfl
    | true => exact absurd (e.trans e'.symm) hne
  | true =>
    cases b' with
    | false => exact absurd (e'.trans e.symm) hne
    | true => rfl

/-- A path goes down, and each of its edges starts at another internal node. -/
theorem TreeSound.followPath_bounds (h : TreeSound m nn) {i j : Nat} {path : BitSeq} (hi : i < nn)
    (hp : followPath m i path = some j) : j ≤ i ∧ path.length ≤ i + 1 - (nn + 1) / 2 := by
  induction path generalizing i with
  | nil => exact ⟨Nat.le_of_eq (followPath_nil_iff.1 hp).symm, Nat.zero_le _⟩
  | cons b path ih =>
    obtain ⟨k, hk, hp⟩ := followPath_cons_iff.1 hp
    obtain ⟨hge, hlt⟩ := h.isChild_lt hi hk
    obtain ⟨hj, hlen⟩ := ih (by omega) hp
    rw [List.length_cons]
    omega

theorem TreeSound.pos (h : TreeSound m nn) : 0 < nn := by
  obtain ⟨hodd, -⟩ := h
  omega

/-- No path is longer than 255 edges (R152). -/
theorem TreeSound.path_length_le (h : TreeSound m nn) {j : Nat} {path : BitSeq}
    (hp : followPath m (nn - 1) path = some j) : path.length ≤ 255 := by
  have hpos := h.pos
  have hlen := (h.followPath_bounds (by omega) hp).2
  obtain ⟨-, hmax, -⟩ := h
  have hmax : nn ≤ 511 := hmax
  omega

/-- One path at most leads from the root to a node: its last edge comes from the node's one parent. -/
theorem TreeSound.path_unique (h : TreeSound m nn) {j : Nat} {p q : BitSeq}
    (hp : followPath m (nn - 1) p = some j) (hq : followPath m (nn - 1) q = some j) : p = q := by
  have hpos := h.pos
  have hroot : nn - 1 < nn := by omega
  have hlt : ∀ {p k}, followPath m (nn - 1) p = some k → k < nn := fun hp =>
    Nat.lt_of_le_of_lt (h.followPath_bounds hroot hp).1 hroot
  have hnil : ∀ {q b}, followPath m (nn - 1) (q ++ [b]) ≠ some (nn - 1) := by
    intro q b hq
    obtain ⟨k, hk, hc⟩ := followPath_snoc_iff.1 hq
    have := hlt hk
    have := (h.isChild_lt (hlt hk) hc).2
    omega
  induction p using List.reverseRecOn generalizing j q with
  | nil =>
    obtain rfl := followPath_nil_iff.1 hp
    rcases List.eq_nil_or_concat' q with rfl | ⟨q, b, rfl⟩
    · rfl
    · exact absurd hq hnil
  | append_singleton p b ih =>
    rcases List.eq_nil_or_concat' q with rfl | ⟨q, b', rfl⟩
    · obtain rfl := followPath_nil_iff.1 hq
      exact absurd hp hnil
    · obtain ⟨k, hk, hc⟩ := followPath_snoc_iff.1 hp
      obtain ⟨k', hk', hc'⟩ := followPath_snoc_iff.1 hq
      obtain ⟨rfl, rfl⟩ := h.isChild_unique (hlt hk) (hlt hk') hc hc'
      rw [ih hk hk']

theorem TreeSound.internal_of_le (h : TreeSound m nn) {i : Nat} (hge : (nn + 1) / 2 ≤ i) (hi : i < nn) :
    ∃ f l r, m.read Node.zero i = .internal f l r := by
  obtain ⟨-, -, -, -, hinner, -⟩ := h
  obtain ⟨f, l, r, hr, -⟩ := hinner i hge hi
  exact ⟨f, l, r, hr⟩

theorem TreeSound.lt_of_leaf (h : TreeSound m nn) {i : Nat} {sym : Byte} {f : NodeFreq} (hi : i < nn)
    (hr : m.read Node.zero i = .leaf sym f) : i < (nn + 1) / 2 := by
  by_contra hge
  obtain ⟨_, _, _, e⟩ := h.internal_of_le (Nat.le_of_not_lt hge) hi
  rw [hr] at e
  cases e

/-- A symbol has one leaf at most, since the leaves are in rising order of their symbols. -/
theorem TreeSound.leaf_unique (h : TreeSound m nn) {i j : Nat} {sym : Byte} {f g : NodeFreq} (hi : i < nn)
    (hj : j < nn) (hri : m.read Node.zero i = .leaf sym f) (hrj : m.read Node.zero j = .leaf sym g) : i = j := by
  have hi := h.lt_of_leaf hi hri
  have hj := h.lt_of_leaf hj hrj
  obtain ⟨-, -, -, hasc, -⟩ := h
  rcases Nat.lt_trichotomy i j with hlt | e | hlt
  · exact absurd (hasc i j sym sym f g hlt hj hri hrj) (Nat.lt_irrefl _)
  · exact e
  · exact absurd (hasc j i sym sym g f hlt hi hrj hri) (Nat.lt_irrefl _)

/-- One path at most leads from the root to a leaf of a symbol. -/
theorem TreeSound.leadsTo_unique (h : TreeSound m nn) {sym : Byte} {p q : BitSeq}
    (hp : LeadsTo m (nn - 1) p sym) (hq : LeadsTo m (nn - 1) q sym) : p = q := by
  have hroot : nn - 1 < nn := Nat.sub_one_lt_of_lt h.pos
  obtain ⟨i, f, hp, hri⟩ := hp
  obtain ⟨j, g, hq, hrj⟩ := hq
  have hi := (h.followPath_bounds hroot hp).1
  have hj := (h.followPath_bounds hroot hq).1
  obtain rfl := h.leaf_unique (by omega) (by omega) hri hrj
  exact h.path_unique hp hq

theorem TreeSound.leadsTo_length_le (h : TreeSound m nn) {sym : Byte} {p : BitSeq}
    (hp : LeadsTo m (nn - 1) p sym) : p.length ≤ 255 := by
  obtain ⟨i, f, hp, -⟩ := hp
  exact h.path_length_le hp

theorem TreeSound.root_internal (h : TreeSound m nn) (hnn : 1 < nn) :
    ∃ f l r, m.read Node.zero (nn - 1) = .internal f l r := h.internal_of_le (by omega) (by omega)

end

/-! ## The traversal of GEN (R152) -/

/-- The table's two elements for the symbol hold the code; for a symbol outside the table, the empty one. -/
def CodeTable.Gives (t : CodeTable) (sym : Byte) (c : BitSeq) : Prop :=
  t.codelen.read 0#8 sym.toNat = BitVec.ofNat 8 c.length ∧ t.codebits.read 0#255 sym.toNat = codeWordOf c

theorem emptyTable_gives (sym : Byte) : emptyTable.Gives sym [] := ⟨rfl, rfl⟩

theorem recordCode_codelen_read {t : CodeTable} (ht : t.Good) (sym : Byte) (path : BitSeq) (i : Nat) :
    (recordCode sym path t).codelen.read 0#8 i =
      if sym.toNat = i then BitVec.ofNat 8 path.length else t.codelen.read 0#8 i :=
  Mem.read_write ht.1.1 _ _ i

theorem recordCode_codebits_read {t : CodeTable} (ht : t.Good) (sym : Byte) (path : BitSeq) (i : Nat) :
    (recordCode sym path t).codebits.read 0#255 i =
      if sym.toNat = i then codeWordOf path else t.codebits.read 0#255 i :=
  Mem.read_write ht.2.1 _ _ i

theorem recordCode_gives_same {t : CodeTable} (ht : t.Good) (sym : Byte) (path : BitSeq) :
    (recordCode sym path t).Gives sym path :=
  ⟨by rw [recordCode_codelen_read ht, if_pos rfl], by rw [recordCode_codebits_read ht, if_pos rfl]⟩

theorem CodeTable.Gives.recordCode_ne {t : CodeTable} (ht : t.Good) {sym sym' : Byte} {c : BitSeq}
    (h : t.Gives sym c) (hne : sym' ≠ sym) (path : BitSeq) : (recordCode sym' path t).Gives sym c := by
  have hne : sym'.toNat ≠ sym.toNat := fun e => hne (BitVec.eq_of_toNat_eq e)
  exact ⟨by rw [recordCode_codelen_read ht, if_neg hne, h.1], by rw [recordCode_codebits_read ht, if_neg hne, h.2]⟩

theorem visit_of_leaf {m : Mem Node} {i : Nat} {sym : Byte} {f : NodeFreq} (h : m.read Node.zero i = .leaf sym f)
    (depth : Nat) (path : BitSeq) (t : CodeTable) : visit m (depth + 1) i path t = recordCode sym path t := by
  rw [visit, h]

theorem visit_of_internal {m : Mem Node} {i : Nat} {f : NodeFreq} {l r : NodeIndex}
    (h : m.read Node.zero i = .internal f l r) (depth : Nat) (path : BitSeq) (t : CodeTable) :
    visit m (depth + 1) i path t =
      visit m depth r.toNat (path ++ [true]) (visit m depth l.toNat (path ++ [false]) t) := by
  rw [visit, h]
  rfl

/-- The traversal below node i gives a symbol the code c when c is the only path to a leaf of it there and either
there is one or the table had the code before. The depth allowed must reach every such leaf. -/
theorem visit_gives {m : Mem Node} {sym : Byte} {c : BitSeq} {depth i : Nat} {path : BitSeq} {t : CodeTable}
    (ht : t.Good) (hdepth : ∀ p, LeadsTo m i p sym → p.length < depth)
    (honly : ∀ p, LeadsTo m i p sym → path ++ p = c) (hsome : t.Gives sym c ∨ ∃ p, LeadsTo m i p sym) :
    (visit m depth i path t).Gives sym c := by
  induction depth generalizing i path t with
  | zero => exact hsome.resolve_right fun ⟨p, hp⟩ => absurd (hdepth p hp) (Nat.not_lt_zero _)
  | succ depth ih =>
    cases hr : m.read Node.zero i with
    | leaf sym' f =>
      rw [visit_of_leaf hr]
      simp only [leadsTo_leaf_iff hr] at honly hsome
      by_cases e : sym' = sym
      · have hc : path = c := by simpa using honly [] ⟨rfl, e⟩
        exact e ▸ hc ▸ recordCode_gives_same ht _ _
      · exact (hsome.resolve_right fun ⟨_, _, e'⟩ => e e').recordCode_ne ht e _
    | internal f l r =>
      rw [visit_of_internal hr]
      have hdown : ∀ (b : Bool) p, LeadsTo m (if b then r.toNat else l.toNat) p sym → LeadsTo m i (b :: p) sym :=
        fun b p hp => (leadsTo_internal_iff hr).2 ⟨b, p, rfl, hp⟩
      have hdepth' : ∀ (b : Bool) p, LeadsTo m (if b then r.toNat else l.toNat) p sym → p.length < depth :=
        fun b p hp => Nat.lt_of_succ_lt_succ (hdepth _ (hdown b p hp))
      have honly' : ∀ (b : Bool) p, LeadsTo m (if b then r.toNat else l.toNat) p sym → path ++ [b] ++ p = c :=
        fun b p hp => by rw [List.append_assoc]; exact honly _ (hdown b p hp)
      have hleft := ih ht (hdepth' false) (honly' false)
      refine ih (ht.visit m depth _ _) (hdepth' true) (honly' true) ?_
      rcases hsome with h | ⟨p, hp⟩
      · exact .inl (hleft (.inl h))
      · obtain ⟨b, q, -, hq⟩ := (leadsTo_internal_iff hr).1 hp
        cases b
        · exact .inl (hleft (.inr ⟨q, hq⟩))
        · exact .inr ⟨q, hq⟩

theorem tableOfTree_of_leaf {m : Mem Node} {root : Nat} {sym : Byte} {f : NodeFreq}
    (h : m.read Node.zero root = .leaf sym f) : tableOfTree m root = recordCode sym [false] emptyTable := by
  rw [tableOfTree, h]
  rfl

theorem tableOfTree_of_internal {m : Mem Node} {root : Nat} {f : NodeFreq} {l r : NodeIndex}
    (h : m.read Node.zero root = .internal f l r) : tableOfTree m root = visit m 256 root [] emptyTable := by
  rw [tableOfTree, h]
  rfl

/-- The table of a sound tree of more than one node holds one code for every symbol: the path to its leaf, and the
empty code when it has none. -/
theorem TreeSound.tableOfTree_gives {m : Mem Node} {nn : Nat} (h : TreeSound m nn) (hnn : 1 < nn) (sym : Byte) :
    ∃ c : BitSeq, (tableOfTree m (nn - 1)).Gives sym c ∧ c.length ≤ 255 ∧
      ∀ p, LeadsTo m (nn - 1) p sym ↔ c ≠ [] ∧ c = p := by
  obtain ⟨f, l, r, hroot⟩ := h.root_internal hnn
  have hdepth : ∀ p, LeadsTo m (nn - 1) p sym → p.length < 256 := fun p hp =>
    Nat.lt_succ_of_le (h.leadsTo_length_le hp)
  rw [tableOfTree_of_internal hroot]
  by_cases hsome : ∃ c, LeadsTo m (nn - 1) c sym
  · obtain ⟨c, hc⟩ := hsome
    have hne : c ≠ [] := by
      obtain ⟨b, p, rfl, -⟩ := (leadsTo_internal_iff hroot).1 hc
      exact List.cons_ne_nil b p
    exact ⟨c, visit_gives emptyTable_good hdepth (fun p hp => h.leadsTo_unique hp hc) (.inr ⟨c, hc⟩),
      h.leadsTo_length_le hc, fun p => ⟨fun hp => ⟨hne, h.leadsTo_unique hc hp⟩, fun ⟨_, e⟩ => e ▸ hc⟩⟩
  · exact ⟨[], visit_gives emptyTable_good hdepth (fun p hp => absurd ⟨p, hp⟩ hsome) (.inl (emptyTable_gives sym)),
      Nat.zero_le _, fun p => ⟨fun hp => absurd ⟨p, hp⟩ hsome, fun ⟨hne, _⟩ => absurd rfl hne⟩⟩

/-! ## The command GEN (R152 to R155) -/

theorem exec_gen_of_tree {s : State} (h : s.nnodes ≠ 0#10) : exec .gen s = .next { s with
    codelen := (tableOfTree s.node s.root.toNat).codelen, codebits := (tableOfTree s.node s.root.toNat).codebits } := by
  rcases runStage_gen s with ⟨e, -⟩ | ⟨-, e⟩
  · exact absurd e h
  · rw [exec_of_one_stage rfl, e]
    rfl

theorem inTable_iff_codeOf_ne_nil {s : State} {sym : Byte} : InTable s sym ↔ codeOf s sym ≠ [] := by
  rw [InTable, ← length_codeOf, ne_eq, List.length_eq_zero_iff]

/-- The bits of a code's element above its length are 0 (R44). -/
theorem codeWordOf_getLsbD_of_le {c : BitSeq} {j : Nat} (h : c.length ≤ j) : (codeWordOf c).getLsbD j = false := by
  simp [codeWordOf, BitVec.getLsbD_ofNat, lsbFirst_testBit, List.getElem?_eq_none h]

/-- After GEN on a sound tree of more than one node, a symbol's code is the path to its leaf, and its element of CODEBITS
holds that code and zeros above; a symbol without a leaf is not in the table (R152, R155). -/
theorem leadsTo_iff_of_exec_gen {s t : State} (hinv : s.TreeInvariant) (hnn : 1 < s.nnodes.toNat)
    (h : exec .gen s = .next t) (sym : Byte) :
    (∀ p, LeadsTo s.node s.root.toNat p sym ↔ InTable t sym ∧ codeOf t sym = p) ∧
      t.codebits.read 0#255 sym.toNat = codeWordOf (codeOf t sym) := by
  have hne : s.nnodes ≠ 0#10 := fun e => by simp [e] at hnn
  obtain ⟨hroot, hsound⟩ := hinv.2 hne
  obtain ⟨c, ⟨hlen, hbits⟩, hc, hleads⟩ := hsound.tableOfTree_gives hnn sym
  rw [exec_gen_of_tree hne, hroot] at h
  obtain ⟨hl, hb⟩ : t.codelen = (tableOfTree s.node (s.nnodes.toNat - 1)).codelen ∧
      t.codebits = (tableOfTree s.node (s.nnodes.toNat - 1)).codebits := by
    cases h
    exact ⟨rfl, rfl⟩
  have hcode : codeOf t sym = c := codeOf_eq_of_reads hc (hl ▸ hlen) (hb ▸ hbits)
  exact ⟨fun p => by rw [hroot, hleads, inTable_iff_codeOf_ne_nil, hcode], by rw [hb, hbits, hcode]⟩

/-- Settles O32: the traversal gives each symbol the one path that leads to its leaf, and the depth 256 reaches every
leaf of a sound tree. -/
theorem genRecordsThePathOfEveryLeaf : Obligations.GenRecordsThePathOfEveryLeaf := by
  unfold Obligations.GenRecordsThePathOfEveryLeaf
  intro s hinv hnn
  have hne : s.nnodes ≠ 0#10 := fun e => by simp [e] at hnn
  have hexec := exec_gen_of_tree hne
  refine ⟨_, _, _, rfl, hexec, fun sym path => ?code, fun sym j hj => ?above⟩
  case code => exact ((leadsTo_iff_of_exec_gen hinv hnn hexec sym).1 path).symm
  case above =>
    rw [← length_codeOf] at hj
    exact (leadsTo_iff_of_exec_gen hinv hnn hexec sym).2 ▸ codeWordOf_getLsbD_of_le hj

/-- Settles O31: the table holds the one record of the root's symbol, and the one-bit code `0` is zero as an element. -/
theorem genGivesASingleLeafOneBit : Obligations.GenGivesASingleLeafOneBit := by
  unfold Obligations.GenGivesASingleLeafOneBit
  intro s sym f hne hroot
  refine ⟨_, _, exec_gen_of_tree hne, fun i => ?_⟩
  rw [tableOfTree_of_leaf hroot, recordCode_codelen_read emptyTable_good, recordCode_codebits_read emptyTable_good]
  exact ⟨if_congr eq_comm rfl rfl, ite_self 0#255⟩

/-- Settles O30: without a tree all GEN does is take its failure and empty the code lengths. -/
theorem genRejectsTheMissingTree : Obligations.GenRejectsTheMissingTree := by
  unfold Obligations.GenRejectsTheMissingTree
  intro s hnone
  refine ⟨Mem.cleared, ?_, Mem.read_cleared 0#8⟩
  rcases runStage_gen s with ⟨-, e⟩ | ⟨hne, -⟩
  · rw [exec_of_one_stage rfl, e]
    rfl
  · exact absurd hnone hne

end Sys2Proof.Machine
end

section
namespace Sys2Proof.Machine

/-! ## MAP (R161 to R163) -/

/-- In a concatenation over `range n`, the piece of k begins after the pieces before it. -/
theorem getElem?_flatMap_range {α : Type} (g : Nat → List α) {n k j : Nat} (hk : k < n) (hj : j < (g k).length) :
    ((List.range n).flatMap g)[((List.range k).map fun i => (g i).length).sum + j]? = (g k)[j]? := by
  induction n with
  | zero => exact absurd hk (Nat.not_lt_zero k)
  | succ n ih =>
    have hlen : ∀ k, ((List.range k).map fun i => (g i).length).sum = ((List.range k).flatMap g).length := fun k =>
      List.length_flatMap.symm
    rw [List.range_succ, List.flatMap_append, List.flatMap_singleton]
    rcases Nat.lt_succ_iff_lt_or_eq.1 hk with hlt | rfl
    · have hin := ih hlt
      rw [List.getElem?_eq_getElem hj] at hin
      obtain ⟨hbound, -⟩ := List.getElem?_eq_some_iff.1 hin
      rw [List.getElem?_append_left hbound, ih hlt]
    · rw [hlen, List.getElem?_append_right (Nat.le_add_right _ j), Nat.add_sub_cancel_left]

theorem payloadLength_eq_sum_range (s : State) :
    payloadLength s = ((List.range s.tlen.toNat).map fun k => codeLength s (s.text.read 0#8 k)).sum := by
  simp [payloadLength, textSymbols, Mem.slice, Function.comp_def]

theorem payload_eq_flatMap_range (s : State) :
    payload s = (List.range s.tlen.toNat).flatMap fun k => codeOf s (s.text.read 0#8 k) := by
  simp [payload, textSymbols, Mem.slice, List.flatMap_map]

/-- Bit j of the code of `TEXT[k]` stands j places after the codes before it. -/
theorem payload_getElem? (s : State) {k j : Nat} (hk : k < s.tlen.toNat) (hj : j < codeLength s (s.text.read 0#8 k)) :
    (payload s)[((List.range k).map fun i => codeLength s (s.text.read 0#8 i)).sum + j]? =
      some ((s.codebits.read 0#255 (s.text.read 0#8 k).toNat).getLsbD j) := by
  have hbit := getElem?_flatMap_range (fun k => codeOf s (s.text.read 0#8 k)) hk (by rwa [length_codeOf])
  simp only [length_codeOf] at hbit
  rw [payload_eq_flatMap_range, hbit]
  simp [codeOf, hj]

/-- The state MAP leaves when the payload fits (R161). -/
def mapped (s : State) : State := s.setBits (s.bits.writeFrom false 0 (payload s)) (infoWord (payloadLength s))

theorem runStage_map_of_le {s : State} (h : payloadLength s ≤ 524288) : runStage .map s = .completed (mapped s) := by
  rcases runStage_map s with ⟨hlt, -⟩ | ⟨-, e⟩
  · exact absurd h (Nat.not_le_of_lt hlt)
  · exact e

theorem runStage_map_of_lt {s : State} (h : 524288 < payloadLength s) :
    runStage .map s = raiseFailure .map .capacity (payloadLength s) s := by
  rcases runStage_map s with ⟨-, e⟩ | ⟨hle, -⟩
  · exact e
  · exact absurd h (Nat.not_lt_of_le hle)

/-- BITS hold the payload from bit 0 up. -/
theorem mapped_bits_read_of_payload {s : State} {i : Nat} {x : Bool} (h : (payload s)[i]? = some x) :
    (mapped s).bits.read false i = x := by
  obtain ⟨hi, -⟩ := List.getElem?_eq_some_iff.1 h
  rw [mapped, State.setBits_bits, Mem.read_writeFrom, if_pos ⟨Nat.zero_le i, by rwa [Nat.zero_add]⟩, Nat.sub_zero,
    List.getD_eq_getElem?_getD, h, Option.getD_some]

theorem mapped_bits_read_of_le {s : State} {i : Nat} (h : payloadLength s ≤ i) :
    (mapped s).bits.read false i = s.bits.read false i := by
  rw [mapped, State.setBits_bits, Mem.read_writeFrom, payload_length, if_neg (by omega)]

/-- Settles O37: the payload is the concatenation of the codes, so that each code begins after those before it; MAP
writes it from bit 0 up, or takes its failure before it writes. -/
theorem mapConcatenatesTheCodes : Obligations.MapConcatenatesTheCodes := by
  unfold Obligations.MapConcatenatesTheCodes
  refine ⟨decode_encode .map, fun s => ?_⟩
  intro sym offset P
  have hP : payloadLength s = P := payloadLength_eq_sum_range s
  refine ⟨fun hle => ⟨(mapped s).bits, ?exec, fun k hk j hj => ?code, fun j hj => ?above⟩, fun hlt => ?fails⟩
  case exec =>
    rw [exec_of_one_stage rfl, runStage_map_of_le (hP ▸ hle), ← hP]
    rfl
  case code => exact mapped_bits_read_of_payload (payload_getElem? s hk hj)
  case above => exact mapped_bits_read_of_le (hP ▸ hj)
  case fails =>
    rw [exec_of_one_stage rfl, runStage_map_of_lt (hP ▸ hlt), ← hP]
    rfl

/-! ## PAD (R167 to R170) -/

theorem padCount_eq (b : Nat) : padCount b = 8 - b % 8 := rfl

/-- PAD fills the last byte that the sequence begins (R168). -/
theorem add_padCount (b : Nat) : b + padCount b = 8 * ((b + 8) / 8) := by
  rw [padCount_eq]
  omega

/-- The state PAD leaves when the padded sequence fits (R167). -/
def padded (s : State) : State :=
  s.setBits (s.bits.writeFrom false s.blen.toNat (padBits s.blen.toNat))
    (infoWord (s.blen.toNat + padCount s.blen.toNat))

theorem runStage_pad_of_le {s : State} (h : s.blen.toNat + padCount s.blen.toNat ≤ 524288) :
    runStage .pad s = .completed (padded s) := by
  rcases runStage_pad s with ⟨hlt, -⟩ | ⟨-, e⟩
  · exact absurd h (Nat.not_le_of_lt hlt)
  · exact e

theorem runStage_pad_of_lt {s : State} (h : 524288 < s.blen.toNat + padCount s.blen.toNat) :
    runStage .pad s = raiseFailure .pad .capacity (s.blen.toNat + padCount s.blen.toNat) s := by
  rcases runStage_pad s with ⟨-, e⟩ | ⟨hle, -⟩
  · exact e
  · exact absurd h (Nat.not_lt_of_le hle)

/-- The bits PAD appends: a 1, then zeros. -/
theorem padded_bits_read_add {s : State} {j : Nat} (h : j < padCount s.blen.toNat) :
    (padded s).bits.read false (s.blen.toNat + j) = decide (j = 0) := by
  rw [padded, State.setBits_bits, Mem.read_writeFrom, padBits_length, if_pos ⟨by omega, by omega⟩,
    Nat.add_sub_cancel_left]
  cases j with
  | zero => rfl
  | succ j =>
    have hzero : ∀ n, (List.replicate n false).getD j false = false := fun n => by
      rw [List.getD_eq_getElem?_getD, List.getElem?_replicate]
      split <;> rfl
    exact hzero _

theorem padded_bits_read_outside {s : State} {j : Nat}
    (h : j < s.blen.toNat ∨ s.blen.toNat + padCount s.blen.toNat ≤ j) :
    (padded s).bits.read false j = s.bits.read false j := by
  rw [padded, State.setBits_bits, Mem.read_writeFrom, padBits_length, if_neg (by omega)]

/-- Settles O38: PAD writes a 1 and k - 1 zeros from bit `BLEN` up, or takes its failure, whose invalidation touches
nothing. -/
theorem padAppendsTheSentinelAndZeros : Obligations.PadAppendsTheSentinelAndZeros := by
  unfold Obligations.PadAppendsTheSentinelAndZeros
  refine ⟨decode_encode .pad, fun s => ?_⟩
  intro B k
  refine ⟨fun hle => ⟨(padded s).bits, ?exec, ?sentinel, fun j h1 hk => ?zeros, fun j hj => ?outside⟩,
    fun hlt => ?fails⟩
  case exec =>
    rw [exec_of_one_stage rfl, runStage_pad_of_le hle]
    rfl
  case sentinel => exact padded_bits_read_add (padCount_bounds _).1
  case zeros => exact (padded_bits_read_add hk).trans (decide_eq_false (Nat.ne_of_gt h1))
  case outside => exact padded_bits_read_outside hj
  case fails =>
    rw [exec_of_one_stage rfl, runStage_pad_of_lt hlt]
    rfl

/-! ## PACK (R172 to R175) -/

/-- The first bit most significant is the last bit least significant (R14). -/
theorem msbFirst_eq_lsbFirst_reverse (b : BitSeq) : msbFirst b = lsbFirst b.reverse := by
  induction b using List.reverseRecOn with
  | nil => rfl
  | append_singleton b x ih =>
    rw [List.reverse_concat, lsbFirst, ← ih, msbFirst, msbFirst, List.foldl_concat, Nat.add_comm]

theorem msbFirst_testBit (b : BitSeq) (j : Nat) : (msbFirst b).testBit j = b.reverse.getD j false := by
  rw [msbFirst_eq_lsbFirst_reverse, lsbFirst_testBit]

theorem msbFirst_lt (b : BitSeq) : msbFirst b < 2 ^ b.length := by
  refine Nat.lt_pow_two_of_testBit _ fun j hj => ?_
  rw [msbFirst_testBit, List.getD_eq_default _ _ (by rwa [List.length_reverse])]

/-- A byte made of 8 bits gives them back (R14, R68). -/
theorem bitsOfByte_byteOfBits {b : BitSeq} (h : b.length = 8) : bitsOfByte (byteOfBits b) = b := by
  refine List.ext_getElem (by simp [bitsOfByte, Config.byteBits, h]) fun k _ hk => ?_
  have h7 : 7 - k < b.reverse.length := by rw [List.length_reverse]; omega
  have hpos : b.length - 1 - (7 - k) = k := by omega
  simp only [bitsOfByte, byteOfBits, List.getElem_map, List.getElem_range, BitVec.getLsbD_ofNat, msbFirst_testBit,
    List.getD_eq_getElem _ _ h7, List.getElem_reverse, hpos]
  rw [decide_eq_true (by omega), Bool.true_and]

theorem packByte_toNat (m : Mem Bool) (j : Nat) : (packByte m j).toNat = msbFirst (m.slice false (8 * j) 8) := by
  have hlt := msbFirst_lt (m.slice false (8 * j) 8)
  rw [Mem.slice_length] at hlt
  exact (BitVec.toNat_ofNat _ _).trans (Nat.mod_eq_of_lt hlt)

theorem bitsOfByte_packByte (m : Mem Bool) (j : Nat) : bitsOfByte (packByte m j) = m.slice false (8 * j) 8 :=
  bitsOfByte_byteOfBits (Mem.slice_length _ _ _ _)

/-- The state PACK leaves when the length is a multiple of 8 (R172). -/
def packedUp (s : State) : State :=
  s.setPacked (s.packed.writeFrom 0#8 0 ((List.range (s.blen.toNat / 8)).map (packByte s.bits)))
    (infoWord (s.blen.toNat / 8))

theorem runStage_pack_of_aligned {s : State} (h : s.blen.toNat % 8 = 0) :
    runStage .pack s = .completed (packedUp s) := by
  rcases runStage_pack s with ⟨hne, -⟩ | ⟨-, e⟩
  · exact absurd h hne
  · exact e

theorem runStage_pack_of_unaligned {s : State} (h : s.blen.toNat % 8 ≠ 0) :
    runStage .pack s = raiseFailure .pack .unaligned s.blen.toNat s := by
  rcases runStage_pack s with ⟨-, e⟩ | ⟨hz, -⟩
  · exact e
  · exact absurd hz h

theorem packedUp_packed_read_of_lt {s : State} {j : Nat} (h : j < s.blen.toNat / 8) :
    (packedUp s).packed.read 0#8 j = packByte s.bits j := by
  rw [packedUp, State.setPacked_packed, Mem.read_writeFrom, if_pos ⟨Nat.zero_le j, by simpa using h⟩, Nat.sub_zero,
    List.getD_eq_getElem _ _ (by simpa using h), List.getElem_map, List.getElem_range]

theorem packedUp_packed_read_of_le {s : State} {j : Nat} (h : s.blen.toNat / 8 ≤ j) :
    (packedUp s).packed.read 0#8 j = s.packed.read 0#8 j := by
  rw [packedUp, State.setPacked_packed, Mem.read_writeFrom, if_neg (by simpa using h)]

/-- Settles O39: byte j is the value of its eight bits, the first most significant; an unaligned length is a failure
that empties the buffer. -/
theorem packMakesBytesFirstBitHigh : Obligations.PackMakesBytesFirstBitHigh := by
  unfold Obligations.PackMakesBytesFirstBitHigh
  refine ⟨decode_encode .pack, fun s => ?_⟩
  intro B bit
  refine ⟨fun hz => ⟨(packedUp s).packed, ?exec, fun j hj => ?byte, fun j hj => packedUp_packed_read_of_le hj⟩,
    fun hne => ?fails⟩
  case exec =>
    rw [exec_of_one_stage rfl, runStage_pack_of_aligned hz]
    rfl
  case byte =>
    rw [packedUp_packed_read_of_lt hj, packByte_toNat]
    simp only [msbFirst, Mem.slice, List.range_succ, List.range_zero, List.nil_append, List.map_append, List.map_cons,
      List.map_nil, List.foldl_append, List.foldl_cons, List.foldl_nil, bit, Nat.add_zero]
    omega
  case fails =>
    rw [exec_of_one_stage rfl, runStage_pack_of_unaligned hne, raiseFailure, infoWord_of_toNat]
    rfl
end Sys2Proof.Machine
end

section
namespace Sys2Proof.Machine

/-! ## Slices of a space -/

theorem Mem.slice_add {α : Type} (z : α) (m : Mem α) (base n k : Nat) :
    m.slice z base (n + k) = m.slice z base n ++ m.slice z (base + n) k := by
  simp [Mem.slice, List.range_add, Function.comp_def, Nat.add_assoc]

/-- A slice cut into pieces of equal length. -/
theorem Mem.flatMap_slice {α : Type} (z : α) (m : Mem α) (w n : Nat) :
    ((List.range n).flatMap fun j => m.slice z (w * j) w) = m.slice z 0 (w * n) := by
  induction n with
  | zero => rfl
  | succ n ih =>
    rw [List.range_succ, List.flatMap_append, List.flatMap_singleton, ih, Nat.mul_succ, Mem.slice_add, Nat.zero_add]

/-- A list written at the end of a slice is appended to it. -/
theorem Mem.slice_writeFrom_append {α : Type} [DecidableEq α] (z : α) (m : Mem α) (n : Nat) (vs : List α) :
    (m.writeFrom z n vs).slice z 0 (n + vs.length) = m.slice z 0 n ++ vs := by
  rw [Mem.slice_add, Nat.zero_add, Mem.slice_writeFrom, Mem.slice_congr fun k hk => ?_]
  rw [Mem.read_writeFrom, if_neg (by omega)]

/-! ## What MAP, PAD and PACK leave as the bit sequence and the buffer -/

theorem mapped_blen_toNat {s : State} (h : payloadLength s ≤ 524288) : (mapped s).blen.toNat = payloadLength s :=
  infoWord_toNat_of_lt (by omega)

theorem bitSequence_mapped {s : State} (h : payloadLength s ≤ 524288) : bitSequence (mapped s) = payload s := by
  rw [bitSequence, mapped_blen_toNat h, ← payload_length]
  exact Mem.slice_writeFrom false s.bits 0 (payload s)

theorem padded_blen_toNat {s : State} (h : s.blen.toNat + padCount s.blen.toNat ≤ 524288) :
    (padded s).blen.toNat = s.blen.toNat + padCount s.blen.toNat :=
  infoWord_toNat_of_lt (by omega)

theorem bitSequence_padded {s : State} (h : s.blen.toNat + padCount s.blen.toNat ≤ 524288) :
    bitSequence (padded s) = bitSequence s ++ padBits s.blen.toNat := by
  rw [bitSequence, padded_blen_toNat h, ← padBits_length]
  exact Mem.slice_writeFrom_append false s.bits _ _

theorem padBits_eq (b : Nat) : padBits b = true :: List.replicate (7 - b % 8) false := by
  have hcount : padCount b - 1 = 7 - b % 8 := by
    rw [padCount_eq]
    omega
  rw [padBits, hcount]
  rfl

theorem packedBytes_packedUp (s : State) :
    packedBytes (packedUp s) = (List.range (s.blen.toNat / 8)).map (packByte s.bits) := by
  have hlen : (packedUp s).plen.toNat = ((List.range (s.blen.toNat / 8)).map (packByte s.bits)).length := by
    rw [List.length_map, List.length_range]
    exact infoWord_toNat_of_lt (by have := s.blen.isLt; omega)
  rw [packedBytes, hlen]
  exact Mem.slice_writeFrom 0#8 s.packed 0 _

/-- The bits of the bytes PACK makes are the bit sequence (R172, R173). -/
theorem bits_packedBytes_packedUp {s : State} (h : s.blen.toNat % 8 = 0) :
    (packedBytes (packedUp s)).flatMap bitsOfByte = bitSequence s := by
  have hlen : 8 * (s.blen.toNat / 8) = s.blen.toNat := by omega
  simp only [packedBytes_packedUp, List.flatMap_map, bitsOfByte_packByte]
  rw [Mem.flatMap_slice, hlen, bitSequence]

/-! ## ENC (R177, R178) -/

/-- The payload, the sentinel and the zeros are the whole bytes that hold the payload and one more bit. -/
theorem mapped_add_padCount {s : State} (h : payloadLength s ≤ 524288) :
    (mapped s).blen.toNat + padCount (mapped s).blen.toNat = 8 * ((payloadLength s + 8) / 8) := by
  rw [mapped_blen_toNat h, add_padCount]

/-- After MAP of a payload that leaves room PAD does not fail. -/
theorem mapped_add_padCount_le {s : State} (h : payloadLength s < 524288) :
    (mapped s).blen.toNat + padCount (mapped s).blen.toNat ≤ 524288 := by
  rw [mapped_add_padCount (Nat.le_of_lt h)]
  omega

theorem padded_mapped_blen_toNat {s : State} (h : payloadLength s < 524288) :
    (padded (mapped s)).blen.toNat = 8 * ((payloadLength s + 8) / 8) := by
  rw [padded_blen_toNat (mapped_add_padCount_le h), mapped_add_padCount (Nat.le_of_lt h)]

/-- ENC completes its three stages when the payload leaves room for the padding. -/
theorem exec_enc_of_lt {s : State} (h : payloadLength s < 524288) :
    exec .enc s = .next (packedUp (padded (mapped s))) := by
  have haligned : (padded (mapped s)).blen.toNat % 8 = 0 := by
    rw [padded_mapped_blen_toNat h]
    omega
  rw [exec_eq_runStages, stagesOf, runStages_completed (runStage_map_of_le (Nat.le_of_lt h)),
    runStages_completed (runStage_pad_of_le (mapped_add_padCount_le h)), runStages_single,
    runStage_pack_of_aligned haligned, StageResult.state_completed]

/-- Settles O44: MAP leaves the payload, PAD appends to it, and PACK makes bytes of whole groups of eight. -/
theorem encPacksThePaddedPayload : Obligations.EncPacksThePaddedPayload := by
  unfold Obligations.EncPacksThePaddedPayload
  intro s P hlt
  have hP : payloadLength s = P := rfl
  rw [← hP] at hlt ⊢
  have hle := Nat.le_of_lt hlt
  have hblen := padded_mapped_blen_toNat hlt
  have hbytes : (padded (mapped s)).blen.toNat / 8 = (payloadLength s + 8) / 8 := by omega
  refine ⟨(padded (mapped s)).bits, (packedUp (padded (mapped s))).packed, packedUp (padded (mapped s)), ?state,
    exec_enc_of_lt hlt, ?sequence, bits_packedBytes_packedUp (by omega), fun j hj => ?bitsAbove,
    fun j hj => packedUp_packed_read_of_le (hbytes ▸ hj)⟩
  case state =>
    have hblenWord : BitVec.ofNat 32 (8 * ((payloadLength s + 8) / 8)) = (packedUp (padded (mapped s))).blen := by
      rw [← hblen]
      exact infoWord_of_toNat _
    have hplenWord : BitVec.ofNat 32 ((payloadLength s + 8) / 8) = (packedUp (padded (mapped s))).plen := by
      rw [← hbytes]
      rfl
    rw [hblenWord, hplenWord]
    rfl
  case sequence =>
    calc bitSequence (padded (mapped s))
      _ = bitSequence (mapped s) ++ padBits (mapped s).blen.toNat := bitSequence_padded (mapped_add_padCount_le hlt)
      _ = payload s ++ true :: List.replicate (7 - payloadLength s % 8) false := by
        rw [bitSequence_mapped hle, mapped_blen_toNat hle, padBits_eq]
  case bitsAbove =>
    calc (padded (mapped s)).bits.read false j
      _ = (mapped s).bits.read false j := padded_bits_read_outside (.inr (mapped_add_padCount hle ▸ hj))
      _ = s.bits.read false j := mapped_bits_read_of_le (by omega)

/-- Settles O45: MAP that fails has the buffer invalidated; a payload that fills BITS is written by MAP, then PAD finds
no room for its byte. -/
theorem encFailuresLeaveNoBuffer : Obligations.EncFailuresLeaveNoBuffer := by
  unfold Obligations.EncFailuresLeaveNoBuffer
  intro s P
  refine ⟨fun hlt => ?long, fun hfull => ?full⟩
  case long =>
    rw [exec_eq_runStages, stagesOf, runStages_failed (runStage_map_of_lt hlt)]
    rfl
  case full =>
    have hP : payloadLength s = 524288 := hfull
    have hle := Nat.le_of_eq hP
    have hsum := mapped_add_padCount hle
    rw [hP] at hsum
    have hpad := runStage_pad_of_lt (s := mapped s) (by omega)
    rw [hsum] at hpad
    have hexec : exec .enc s =
        .next { mapped s with err := 4#4, errstage := 6#4, errinfo := 524296#32, esticky := 1#1, plen := 0#32 } := by
      rw [exec_eq_runStages, stagesOf, runStages_completed (runStage_map_of_le hle), runStages_failed hpad]
      rfl
    refine ⟨(mapped s).bits, _, ?state, hexec, bitSequence_mapped hle,
      fun j hj => mapped_bits_read_of_le (by omega)⟩
    rw [mapped, hP]
    rfl

end Sys2Proof.Machine
end

section
namespace Sys2Proof.Machine

/-! ## The table of a sound tree (R220, R221) -/

/-- Every node of a sound tree is reached from the root: its parent stands above it and is reached. -/
theorem TreeSound.exists_path {m : Mem Node} {nn : Nat} (h : TreeSound m nn) {j : Nat} (hj : j < nn) :
    ∃ path, followPath m (nn - 1) path = some j := by
  by_cases hroot : j = nn - 1
  · exact ⟨[], followPath_nil_iff.2 hroot.symm⟩
  · obtain ⟨-, -, -, -, -, hparent, -⟩ := id h
    obtain ⟨i, ⟨hi, f, l, r, hr, e⟩, -⟩ := hparent j (by omega)
    obtain ⟨b, hc⟩ : ∃ b, IsChild m b i j := by
      rcases e with e | e
      · exact ⟨false, f, l, r, hr, e⟩
      · exact ⟨true, f, l, r, hr, e⟩
    have hlt := (h.isChild_lt hi hc).2
    obtain ⟨path, hp⟩ := h.exists_path hi
    exact ⟨path ++ [b], followPath_snoc_iff.2 ⟨i, hp, hc⟩⟩
  termination_by nn - j

/-- A path that goes on from a leaf does not exist, so of two leaves' paths neither starts the other. -/
theorem LeadsTo.sym_eq_of_isPrefix {m : Mem Node} {i : Nat} {p q : BitSeq} {a b : Byte} (hp : LeadsTo m i p a)
    (hq : LeadsTo m i q b) (h : p <+: q) : a = b := by
  obtain ⟨rest, rfl⟩ := h
  induction p generalizing i with
  | nil =>
    obtain ⟨j, f, hj, hr⟩ := hp
    obtain rfl := followPath_nil_iff.1 hj
    exact ((leadsTo_leaf_iff hr).1 hq).2
  | cons x p ih =>
    cases hr : m.read Node.zero i with
    | leaf sym f => exact absurd ((leadsTo_leaf_iff hr).1 hp).1 (List.cons_ne_nil x p)
    | internal f l r =>
      obtain ⟨_, _, e, hp⟩ := (leadsTo_internal_iff hr).1 hp
      obtain ⟨_, _, e', hq⟩ := (leadsTo_internal_iff hr).1 hq
      cases e
      cases e'
      exact ih hp hq

theorem PrefixFree.congr {s t : State} (h : PrefixFree s) (hcode : codeOf t = codeOf s) : PrefixFree t := by
  simpa only [PrefixFree, inTable_iff_codeOf_ne_nil, hcode] using h

/-- The table of a tree of one node holds its symbol alone (R153). -/
theorem inTable_iff_eq_of_single_leaf {s t : State} {sym' : Byte} {f : NodeFreq} (hne : s.nnodes ≠ 0#10)
    (hr : s.node.read Node.zero s.root.toNat = .leaf sym' f) (h : exec .gen s = .next t) (sym : Byte) :
    InTable t sym ↔ sym = sym' := by
  obtain ⟨l, b, hexec, hread⟩ := genGivesASingleLeafOneBit s sym' f hne hr
  rw [h] at hexec
  cases hexec
  rw [InTable, codeLength, (hread sym.toNat).1, ← BitVec.toNat_inj]
  split
  · next e => simp [e]
  · next e => simp [e]

section
variable {s t : State} (hinv : s.TreeInvariant) (hne : s.nnodes ≠ 0#10) (h : exec .gen s = .next t)
include hinv hne h

/-- GEN puts in the table the symbols of the tree's leaves (R153, R155). -/
theorem inTable_iff_leaf_of_exec_gen (sym : Byte) :
    InTable t sym ↔ ∃ i f, i < s.nnodes.toNat ∧ s.node.read Node.zero i = .leaf sym f := by
  obtain ⟨hroot, hsound⟩ := hinv.2 hne
  have hpos := hsound.pos
  by_cases hnn : 1 < s.nnodes.toNat
  · have hleads := (leadsTo_iff_of_exec_gen hinv hnn h sym).1
    constructor
    · intro hin
      obtain ⟨i, f, hp, hr⟩ := (hleads _).2 ⟨hin, rfl⟩
      rw [hroot] at hp
      have hi := (hsound.followPath_bounds (by omega) hp).1
      exact ⟨i, f, by omega, hr⟩
    · rintro ⟨i, f, hi, hr⟩
      obtain ⟨path, hp⟩ := hsound.exists_path hi
      exact ((hleads path).1 ⟨i, f, hroot ▸ hp, hr⟩).1
  · have hone : s.nnodes.toNat = 1 := by omega
    have hzero : s.root.toNat = 0 := by omega
    obtain ⟨-, -, hleaf, -⟩ := hsound
    obtain ⟨sym', f, hr⟩ := hleaf 0 (by omega)
    rw [inTable_iff_eq_of_single_leaf hne (hzero ▸ hr) h, hone]
    constructor
    · rintro rfl
      exact ⟨0, f, Nat.zero_lt_one, hr⟩
    · rintro ⟨i, g, hi, hr'⟩
      rw [Nat.lt_one_iff.1 hi, hr] at hr'
      cases hr'
      rfl

/-- No code of the table of a sound tree starts another: they are paths to leaves, or there is one only (R221). -/
theorem prefixFree_of_exec_gen : PrefixFree t := by
  intro a b hab ha hb hstarts
  obtain ⟨-, hsound⟩ := hinv.2 hne
  by_cases hnn : 1 < s.nnodes.toNat
  · have hcode : ∀ {c}, InTable t c → LeadsTo s.node s.root.toNat (codeOf t c) c := fun {c} hc =>
      ((leadsTo_iff_of_exec_gen hinv hnn h c).1 _).2 ⟨hc, rfl⟩
    exact hab ((hcode ha).sym_eq_of_isPrefix (hcode hb) hstarts)
  · obtain ⟨i, f, hi, hri⟩ := (inTable_iff_leaf_of_exec_gen hinv hne h a).1 ha
    obtain ⟨j, g, hj, hrj⟩ := (inTable_iff_leaf_of_exec_gen hinv hne h b).1 hb
    obtain rfl : i = j := by omega
    rw [hri] at hrj
    cases hrj
    exact hab rfl

end

/-! ## BUILD, then GEN (R220) -/

/-- The state BUILD leaves when a symbol has a count (R138). -/
def built (s : State) : State :=
  s.setTree (builtTree s) (BitVec.ofNat 10 (2 * (leaves s.freq).length - 1))
    (BitVec.ofNat 9 (2 * (leaves s.freq).length - 2))

theorem runStage_build_of_leaves {s : State} (h : leaves s.freq ≠ []) : runStage .build s = .completed (built s) := by
  rcases runStage_build s with ⟨hz, -⟩ | ⟨-, e⟩
  · exact absurd hz h
  · exact e

theorem runStage_build_of_no_leaves {s : State} (h : leaves s.freq = []) :
    runStage .build s = raiseFailure .build .emptyFreq 0 s := by
  rcases runStage_build s with ⟨-, e⟩ | ⟨hne, -⟩
  · exact e
  · exact absurd h hne

theorem built_nnodes_toNat (s : State) : (built s).nnodes.toNat = 2 * (leaves s.freq).length - 1 := by
  have hle := leaves_length_le s.freq
  exact (BitVec.toNat_ofNat _ _).trans (Nat.mod_eq_of_lt (by omega))

theorem built_nnodes_ne {s : State} (h : leaves s.freq ≠ []) : (built s).nnodes ≠ 0#10 :=
  (buildTree_sound (tb := tieBreak) (co := childOrder) (runStage_build_of_leaves h)).1

theorem built_treeInvariant {s : State} (h : leaves s.freq ≠ []) : (built s).TreeInvariant := by
  obtain ⟨hne, hroot, hsound⟩ := buildTree_sound (tb := tieBreak) (co := childOrder) (runStage_build_of_leaves h)
  exact ⟨fun e => absurd e hne, fun _ => ⟨hroot, hsound⟩⟩

/-- The leaves of the tree BUILD makes are those of the symbols with a count. -/
theorem built_leaf_iff {s : State} (h : leaves s.freq ≠ []) (sym : Byte) :
    (∃ i f, i < (built s).nnodes.toNat ∧ (built s).node.read Node.zero i = .leaf sym f) ↔
      s.freq.read 0#32 sym.toNat ≠ 0#32 := by
  have hlen : (presentSymbols s.freq).length = (leaves s.freq).length := (List.length_map _).symm
  have hsound := builtTree_sound h
  rw [built_nnodes_toNat]
  constructor
  · rintro ⟨i, f, hi, hr⟩
    have hlt := hsound.lt_of_leaf hi hr
    have hleaf := builtTree_read_leaf (s := s) i (by omega)
    have hmem := (mem_presentSymbols s.freq _).1 (List.getElem_mem (l := presentSymbols s.freq) (n := i) (by omega))
    rw [show (builtTree s).read Node.zero i = .leaf sym f from hr, leafOf] at hleaf
    cases hleaf
    rw [BitVec.toNat_ofNat, Nat.mod_eq_of_lt hmem.1]
    exact hmem.2
  · intro hcount
    obtain ⟨k, hk, e⟩ := List.getElem_of_mem ((mem_presentSymbols s.freq sym.toNat).2 ⟨sym.isLt, hcount⟩)
    have hleaf := builtTree_read_leaf (s := s) k hk
    rw [e, leafOf, BitVec.ofNat_toNat, BitVec.setWidth_eq] at hleaf
    exact ⟨k, _, by omega, hleaf⟩

/-! ## COMPRESS (R180, R181) -/

/-- The state COUNT leaves (R121). -/
def counted (s : State) : State := s.setFreq (countText (textSymbols s))

theorem runStage_count_eq_counted (s : State) : runStage .count s = .completed (counted s) := rfl

/-- The symbols with a count are the text's symbols below 128. -/
theorem counted_read_ne_zero_iff (s : State) (i : Nat) :
    (counted s).freq.read 0#32 i ≠ 0#32 ↔ i < 128 ∧ ∃ a ∈ textSymbols s, a.toNat = i := by
  rw [counted, State.setFreq_freq, ne_eq, ← BitVec.toNat_inj, countText_read_toNat (textSymbols_length_lt s)]
  split
  · next hi => simp [hi, List.countP_eq_zero]
  · next hi => simp [hi]

theorem counted_read_eq_zero {s : State} (h : ∀ a ∈ textSymbols s, 128 ≤ a.toNat) (i : Nat) :
    (counted s).freq.read 0#32 i = 0#32 := by
  by_contra hcount
  obtain ⟨hi, a, hmem, rfl⟩ := (counted_read_ne_zero_iff s i).1 hcount
  exact absurd (h a hmem) (Nat.not_le_of_lt hi)

theorem leaves_counted_ne_nil {s : State} {a : Byte} (hmem : a ∈ textSymbols s) (ha : a.toNat < 128) :
    leaves (counted s).freq ≠ [] := fun e =>
  (counted_read_ne_zero_iff s a.toNat).2 ⟨ha, a, hmem, rfl⟩ ((leaves_eq_nil_iff _).1 e a.toNat a.isLt)

/-- The table COMPRESS makes: that of the tree built over the counts (R180). -/
def textTable (s : State) : CodeTable := tableOfTree (built (counted s)).node (built (counted s)).root.toNat

/-- The state that COUNT, BUILD and GEN leave when the text has a symbol below 128 (R180). -/
def tabled (s : State) : State := { s with
  freq := countText (textSymbols s), node := (built (counted s)).node, nnodes := (built (counted s)).nnodes,
  root := (built (counted s)).root, codelen := (textTable s).codelen, codebits := (textTable s).codebits }

theorem setTable_built_counted (s : State) :
    (built (counted s)).setTable (textTable s).codelen (textTable s).codebits = tabled s := by
  simp only [tabled, built, counted, State.setTable, State.setTree, State.setFreq]

section
variable {s : State} (h : leaves (counted s).freq ≠ [])
include h

theorem runStages_count_build_gen (ps : List Primitive) :
    runStages (.count :: .build :: .gen :: ps) s = runStages ps (tabled s) := by
  have hbuild := runStage_build_of_leaves h
  rw [runStages_completed (runStage_count_eq_counted s), runStages_completed hbuild,
    runStages_completed (runStage_gen_after_build hbuild), ← textTable, setTable_built_counted]

theorem exec_compress_eq_exec_enc : exec .compress s = exec .enc (tabled s) := by
  rw [exec_eq_runStages, exec_eq_runStages]
  exact congrArg _ (runStages_count_build_gen h _)

theorem exec_gen_built_counted : exec .gen (built (counted s)) = .next (tabled s) :=
  setTable_built_counted s ▸ exec_gen_of_tree (built_nnodes_ne h)

theorem tabled_treeInvariant : (tabled s).TreeInvariant :=
  (built_treeInvariant h).congr ⟨rfl, rfl, rfl⟩

theorem tabled_prefixFree : PrefixFree (tabled s) :=
  prefixFree_of_exec_gen (built_treeInvariant h) (built_nnodes_ne h) (exec_gen_built_counted h)

/-- The table holds the text's symbols below 128. -/
theorem inTable_tabled_iff (a : Byte) : InTable (tabled s) a ↔ a ∈ textSymbols s ∧ a.toNat < 128 := by
  rw [inTable_iff_leaf_of_exec_gen (built_treeInvariant h) (built_nnodes_ne h) (exec_gen_built_counted h),
    built_leaf_iff h, counted_read_ne_zero_iff, and_comm]
  simp only [BitVec.toNat_inj, exists_eq_right]

end

/-- Settles O48: COUNT, BUILD and GEN make the table of the tree of the text's counts, and the rest is ENC. -/
theorem compressEncodesTheText : Obligations.CompressEncodesTheText := by
  unfold Obligations.CompressEncodesTheText
  rintro s ⟨a, hmem, ha⟩ hfits
  have hne := leaves_counted_ne_nil hmem ha
  rw [runStages_count_build_gen hne, runStages] at hfits
  obtain ⟨m, p, t, ht, hexec, hseq, hbytes, hbits, hpacked⟩ := encPacksThePaddedPayload (tabled s) hfits
  have hcode : codeOf t = codeOf (tabled s) := by rw [ht]; rfl
  have hblen : t.blen.toNat = 8 * ((payloadLength (tabled s) + 8) / 8) := by
    rw [ht]
    exact infoWord_toNat_of_lt (n := 8 * ((payloadLength (tabled s) + 8) / 8)) (by omega)
  have hplen : t.plen.toNat = (payloadLength (tabled s) + 8) / 8 := by
    rw [ht]
    exact infoWord_toNat_of_lt (n := (payloadLength (tabled s) + 8) / 8) (by omega)
  refine ⟨(counted s).freq, (tabled s).node, (tabled s).nnodes, (tabled s).root, (tabled s).codelen,
    (tabled s).codebits, m, p, t.blen, t.plen, t, ?state, (exec_compress_eq_exec_enc hne).trans hexec,
    countText_read_toNat (textSymbols_length_lt s), built_nnodes_ne hne, ?tree,
    (tabled_prefixFree hne).congr hcode, fun a => ?table, ?sequence, hbytes,
    fun j hj => hbits j (hblen ▸ hj), fun j hj => hpacked j (hplen ▸ hj)⟩
  case state =>
    rw [ht]
    rfl
  case tree => exact (tabled_treeInvariant hne).congr (by rw [ht]; exact ⟨rfl, rfl, rfl⟩)
  case table =>
    rw [inTable_iff_codeOf_ne_nil, hcode, ← inTable_iff_codeOf_ne_nil]
    exact inTable_tabled_iff hne a
  case sequence =>
    have hlen : ((textSymbols s).flatMap (codeOf (tabled s))).length = payloadLength (tabled s) :=
      payload_length (tabled s)
    rw [hcode, hlen]
    exact hseq

/-- Settles O49: no symbol is counted, so BUILD has no leaf and fails, and all later stages are invalidated. -/
theorem compressRejectsATextWithoutSymbols : Obligations.CompressRejectsATextWithoutSymbols := by
  unfold Obligations.CompressRejectsATextWithoutSymbols
  intro s hnone
  have hempty := (leaves_eq_nil_iff _).2 fun i _ => counted_read_eq_zero hnone i
  refine ⟨(counted s).freq, Mem.cleared, ?exec, fun i => ⟨counted_read_eq_zero hnone i, Mem.read_cleared 0#8 i⟩⟩
  rw [exec_eq_runStages, stagesOf, runStages_completed (runStage_count_eq_counted s),
    runStages_failed (runStage_build_of_no_leaves hempty)]
  rfl

end Sys2Proof.Machine
end

section
namespace Sys2Proof.Machine

/-! ## EXPAND (R191) -/

@[simp] theorem length_bitsOfByte (v : Byte) : (bitsOfByte v).length = 8 := by simp [bitsOfByte, Config.byteBits]

theorem bits_packedBytes_eq_flatMap_range (s : State) :
    (packedBytes s).flatMap bitsOfByte =
      (List.range s.plen.toNat).flatMap fun j => bitsOfByte (s.packed.read 0#8 j) := by
  simp [packedBytes, Mem.slice, List.flatMap_map]

/-- The bits of byte j of the buffer begin at bit 8j, and the byte's bit 7 comes first. -/
theorem bits_packedBytes_getElem? (s : State) {j k : Nat} (hj : j < s.plen.toNat) (hk : k < 8) :
    ((packedBytes s).flatMap bitsOfByte)[8 * j + k]? = some ((s.packed.read 0#8 j).getLsbD (7 - k)) := by
  have hbit := getElem?_flatMap_range (fun j => bitsOfByte (s.packed.read 0#8 j)) hj (j := k) (by simpa using hk)
  have hstart : ((List.range j).map fun i => (bitsOfByte (s.packed.read 0#8 i)).length).sum = 8 * j := by
    simp [Nat.mul_comm]
  rw [hstart] at hbit
  rw [bits_packedBytes_eq_flatMap_range, hbit]
  simp [bitsOfByte, Config.byteBits, hk]

/-- The state EXPAND leaves (R191). -/
def expanded (s : State) : State :=
  s.setBits (s.bits.writeFrom false 0 ((packedBytes s).flatMap bitsOfByte)) (infoWord (8 * s.plen.toNat))

theorem runStage_expand_eq_expanded (s : State) : runStage .expand s = .completed (expanded s) := runStage_expand s

theorem expanded_bits_read_of_lt {s : State} {j k : Nat} (hj : j < s.plen.toNat) (hk : k < 8) :
    (expanded s).bits.read false (8 * j + k) = (s.packed.read 0#8 j).getLsbD (7 - k) := by
  rw [expanded, State.setBits_bits, Mem.read_writeFrom, expanded_length, if_pos (by omega), Nat.sub_zero,
    List.getD_eq_getElem?_getD, bits_packedBytes_getElem? s hj hk, Option.getD_some]

theorem expanded_bits_read_of_le {s : State} {j : Nat} (h : 8 * s.plen.toNat ≤ j) :
    (expanded s).bits.read false j = s.bits.read false j := by
  rw [expanded, State.setBits_bits, Mem.read_writeFrom, expanded_length, if_neg (by omega)]

theorem expanded_blen_toNat {s : State} (h : s.plen.toNat ≤ 65536) : (expanded s).blen.toNat = 8 * s.plen.toNat :=
  infoWord_toNat_of_lt (by omega)

/-- EXPAND makes the bits of the buffer the bit sequence. -/
theorem bitSequence_expanded {s : State} (h : s.plen.toNat ≤ 65536) :
    bitSequence (expanded s) = (packedBytes s).flatMap bitsOfByte := by
  rw [bitSequence, expanded_blen_toNat h, ← expanded_length]
  exact Mem.slice_writeFrom false s.bits 0 _

/-- Settles O40: EXPAND writes the buffer's bits from bit 0 up, eight for each byte. -/
theorem expandWritesEveryByteHighBitFirst : Obligations.ExpandWritesEveryByteHighBitFirst := by
  unfold Obligations.ExpandWritesEveryByteHighBitFirst
  refine ⟨decode_encode .expand, fun s => ⟨(expanded s).bits, ?exec,
    fun j hj k hk => expanded_bits_read_of_lt hj hk, fun j hj => expanded_bits_read_of_le hj⟩⟩
  rw [exec_of_one_stage rfl, runStage_expand_eq_expanded]
  rfl

/-! ## STRIP (R194, R195) -/

theorem lastOne_replicate_false (k : Nat) : lastOne (List.replicate k false) = none := by
  induction k with
  | zero => rfl
  | succ k ih => simp [List.replicate_succ, lastOne, ih]

/-- With nothing but zeros after it, a 1 bit is the last one. -/
theorem lastOne_append_true_zeros (b : BitSeq) (k : Nat) :
    lastOne (b ++ true :: List.replicate k false) = some b.length := by
  induction b with
  | nil => simp [lastOne, lastOne_replicate_false]
  | cons x b ih => simp [lastOne, ih]

theorem Mem.slice_eq_replicate {α : Type} {z : α} {m : Mem α} {base n : Nat}
    (h : ∀ i, base ≤ i → i < base + n → m.read z i = z) : m.slice z base n = List.replicate n z := by
  refine List.eq_replicate_iff.2 ⟨Mem.slice_length _ _ _ _, fun x hx => ?_⟩
  obtain ⟨k, hk, rfl⟩ := List.mem_map.1 hx
  exact h _ (Nat.le_add_right _ _) (Nat.add_lt_add_left (List.mem_range.1 hk) _)

/-- The bit sequence around its last 1 bit. -/
theorem bitSequence_eq_of_last_one {s : State} {p : Nat} (hp : p < s.blen.toNat) (hone : s.bits.read false p = true)
    (hzero : ∀ i, p < i → i < s.blen.toNat → s.bits.read false i = false) :
    bitSequence s = s.bits.slice false 0 p ++ true :: List.replicate (s.blen.toNat - (p + 1)) false := by
  have hlen : s.blen.toNat = p + (1 + (s.blen.toNat - (p + 1))) := by omega
  have hsingle : s.bits.slice false p 1 = [true] := congrArg (fun x => [x]) hone
  calc bitSequence s
    _ = s.bits.slice false 0 (p + (1 + (s.blen.toNat - (p + 1)))) := by rw [bitSequence, ← hlen]
    _ = s.bits.slice false 0 p ++ (s.bits.slice false p 1 ++ s.bits.slice false (p + 1) (s.blen.toNat - (p + 1))) := by
      rw [Mem.slice_add, Mem.slice_add, Nat.zero_add]
    _ = _ := by
      rw [hsingle, Mem.slice_eq_replicate fun i hlo hhi => hzero i hlo (by omega)]
      rfl

/-- STRIP cuts the sequence before its last 1 bit (R194). -/
theorem runStage_strip_of_padded {s : State} {b : BitSeq} {k : Nat}
    (h : bitSequence s = b ++ true :: List.replicate k false) :
    runStage .strip s = .completed (s.setBlen (infoWord b.length)) := by
  have hlast := lastOne_append_true_zeros b k
  rw [← h] at hlast
  rcases runStage_strip s with ⟨hnone, -⟩ | ⟨p, hp, e⟩
  · rw [hlast] at hnone
    cases hnone
  · rw [hlast] at hp
    cases hp
    exact e

/-- STRIP fails on a sequence of zeros, the empty one included (R195). -/
theorem runStage_strip_of_zeros {s : State} (h : ∀ i < s.blen.toNat, s.bits.read false i = false) :
    runStage .strip s =
      .failed { s with err := 3#4, errstage := 9#4, errinfo := s.blen, esticky := 1#1 } := by
  have hnone : lastOne (bitSequence s) = none := by
    rw [bitSequence, Mem.slice_eq_replicate fun i _ hi => h i (by omega), lastOne_replicate_false]
  rcases runStage_strip s with ⟨-, e⟩ | ⟨p, hp, -⟩
  · rw [e, raiseFailure, infoWord_of_toNat]
    rfl
  · rw [hnone] at hp
    cases hp

/-- Settles O41: the last 1 bit and the zeros after it are what STRIP cuts off; a sequence of zeros is its failure. -/
theorem stripCutsAtTheLastOne : Obligations.StripCutsAtTheLastOne := by
  unfold Obligations.StripCutsAtTheLastOne
  refine ⟨decode_encode .strip, fun s p hp hone hzero => ?cuts, fun s h => ?fails⟩
  case cuts =>
    rw [exec_of_one_stage rfl, runStage_strip_of_padded (bitSequence_eq_of_last_one hp hone hzero), Mem.slice_length]
    rfl
  case fails =>
    rw [exec_of_one_stage rfl, runStage_strip_of_zeros h]
    rfl

end Sys2Proof.Machine
end

section
namespace Sys2Proof.Machine

/-! ## The resolver of MATCH (R199, R200) -/

/-- A candidate that equals the code bit for bit has its length. -/
theorem candidateIs_iff {s : State} {cand : BitSeq} {sym : Byte} :
    candidateIs s cand sym = true ↔ codeOf s sym = cand := by
  rw [candidateIs, ← length_codeOf, Bool.and_eq_true, beq_iff_eq, beq_iff_eq]
  exact ⟨fun h => h.2, fun h => ⟨congrArg _ h, h⟩⟩

/-- No symbol is left out of the search: none is found when no code is the candidate. -/
theorem resolve_eq_none_iff {s : State} {cand : BitSeq} : resolve s cand = none ↔ ∀ a, codeOf s a ≠ cand := by
  simp only [resolve, List.find?_eq_none, List.forall_mem_map, List.mem_range, candidateIs_iff]
  refine ⟨fun h a => ?_, fun h i _ => h _⟩
  simpa using h a.toNat a.isLt

theorem LowestMatch.ne_nil {s : State} {c : BitSeq} {sym : Byte} (h : LowestMatch s c sym) : c ≠ [] := by
  obtain ⟨⟨hin, rfl⟩, -⟩ := h
  exact inTable_iff_codeOf_ne_nil.1 hin

/-- The search rises, so that it finds the lowest symbol of a code first. -/
theorem LowestMatch.resolve_eq {s : State} {c : BitSeq} {sym : Byte} (h : LowestMatch s c sym) :
    resolve s c = some sym := by
  have hne := h.ne_nil
  obtain ⟨⟨-, hcode⟩, hlow⟩ := h
  have hfind : (List.range Config.nsym).find? (candidateIs s c ∘ BitVec.ofNat 8) = some sym.toNat := by
    refine List.find?_range_eq_some.2 ⟨?_, List.mem_range.2 sym.isLt, fun j hj => ?_⟩
    · simpa [candidateIs_iff] using hcode
    · have hj8 : (BitVec.ofNat 8 j).toNat = j := Nat.mod_eq_of_lt (hj.trans sym.isLt)
      rw [Function.comp_apply, Bool.not_eq_true', Bool.eq_false_iff, ne_eq, candidateIs_iff]
      intro e
      exact hlow _ (hj8.symm ▸ hj) (inTable_iff_codeOf_ne_nil.2 (e ▸ hne)) e
  rw [resolve, List.find?_map, hfind, Option.map_some, BitVec.ofNat_toNat, BitVec.setWidth_eq]

/-! ## The scan of MATCH over a greedy cut (R199) -/

/-- Bits that complete no code go into the candidate. -/
theorem scan_append_of_no_match {look : BitSeq → Option Byte} {c : BitSeq} (cap : Nat) (b : BitSeq) (i : Nat)
    (cand : BitSeq) (start n : Nat) (h : ∀ c', c' <+: c → c' ≠ [] → look (cand ++ c') = none) :
    scan look cap (c ++ b) i cand start n = scan look cap b (i + c.length) (cand ++ c) start n := by
  induction c generalizing i cand with
  | nil => simp
  | cons x c ih =>
    have hnext : ∀ c', c' <+: c → c' ≠ [] → look (cand ++ [x] ++ c') = none := fun c' hc _ => by
      simpa using h (x :: c') (List.cons_prefix_cons.2 ⟨rfl, hc⟩) (List.cons_ne_nil x c')
    rw [List.cons_append, scan, h [x] (List.cons_prefix_cons.2 ⟨rfl, List.nil_prefix⟩) (List.cons_ne_nil x [])]
    simp only [ih _ _ hnext, List.length_cons, List.append_assoc, List.singleton_append]
    rw [Nat.add_right_comm, Nat.add_assoc]

/-- A piece of a greedy cut with its symbol: the shortest code that starts what remains, and its lowest symbol. -/
def IsPiece (s : State) (c : BitSeq) (sym : Byte) : Prop :=
  LowestMatch s c sym ∧ ∀ a : Byte, InTable s a → codeOf s a <+: c → codeOf s a = c

/-- The last bit of a piece completes its symbol, and no bit before it completes one. -/
theorem IsPiece.scan_eq {s : State} {c : BitSeq} {sym : Byte} (h : IsPiece s c sym) (cap : Nat) (b : BitSeq)
    (i n : Nat) : scan (resolve s) cap (c ++ b) i [] i n =
      if n = cap then .overflow (i + c.length - 1)
      else emitBefore sym (scan (resolve s) cap b (i + c.length) [] (i + c.length) (n + 1)) := by
  obtain ⟨hmatch, hshort⟩ := h
  obtain ⟨c₀, x, rfl⟩ : ∃ c₀ x, c = c₀ ++ [x] := ⟨_, _, (List.dropLast_concat_getLast hmatch.ne_nil).symm⟩
  have hno : ∀ c', c' <+: c₀ → c' ≠ [] → resolve s ([] ++ c') = none := by
    refine fun c' hc hne => resolve_eq_none_iff.2 fun a e => ?_
    have hlong := hshort a (inTable_iff_codeOf_ne_nil.2 (e ▸ hne)) (e ▸ hc.trans (List.prefix_append c₀ [x]))
    have hle := hc.length_le
    rw [← List.nil_append c', ← e, hlong] at hle
    simp at hle
  rw [List.append_assoc, scan_append_of_no_match cap _ i [] i n hno, List.singleton_append, scan, List.nil_append,
    hmatch.resolve_eq]
  simp [Nat.add_assoc]

/-- What no code starts is left dangling, if there is any of it. -/
theorem NoCodeStarts.scan_eq {s : State} {b : BitSeq} (h : NoCodeStarts s b) (cap i n : Nat) :
    scan (resolve s) cap b i [] i n = if b = [] then .decoded [] else .dangling i := by
  have hno : ∀ c', c' <+: b → c' ≠ [] → resolve s ([] ++ c') = none := fun c' hc hne =>
    resolve_eq_none_iff.2 fun a e => h a (inTable_iff_codeOf_ne_nil.2 (e ▸ hne)) (e ▸ hc)
  have hscan := scan_append_of_no_match cap [] i [] i n hno
  rw [List.append_nil] at hscan
  rw [hscan, scan, List.nil_append]

theorem piecesBits_cons (p : BitSeq × Byte) (pieces : List (BitSeq × Byte)) :
    piecesBits (p :: pieces) = p.1 ++ piecesBits pieces := List.flatMap_cons

theorem GreedyCut.head_tail {s : State} {p : BitSeq × Byte} {pieces : List (BitSeq × Byte)} {rest : BitSeq}
    (h : GreedyCut s (p :: pieces) rest) : IsPiece s p.1 p.2 ∧ GreedyCut s pieces rest := by
  obtain ⟨hpieces, hrest⟩ := h
  exact ⟨hpieces p List.mem_cons_self, fun q hq => hpieces q (List.mem_cons_of_mem p hq), hrest⟩

/-- The scan of a cut whose pieces all fit emits a symbol for each piece, then finds the rest dangling. -/
theorem GreedyCut.scan_eq_of_fits {s : State} {pieces : List (BitSeq × Byte)} {rest : BitSeq}
    (h : GreedyCut s pieces rest) {cap n : Nat} (i : Nat) (hfits : n + pieces.length ≤ cap) :
    scan (resolve s) cap (piecesBits pieces ++ rest) i [] i n =
      if rest = [] then .decoded (pieces.map Prod.snd) else .dangling (i + (piecesBits pieces).length) := by
  induction pieces generalizing i n with
  | nil => exact NoCodeStarts.scan_eq h.2 cap i n
  | cons p pieces ih =>
    obtain ⟨hp, hcut⟩ := h.head_tail
    rw [List.length_cons] at hfits
    rw [piecesBits_cons, List.append_assoc, hp.scan_eq, if_neg (by omega), ih hcut _ (by omega), List.length_append,
      Nat.add_assoc]
    by_cases hrest : rest = [] <;> simp [hrest, emitBefore]

/-- The scan of a cut with too many pieces ends at the bit that completes the first piece too many. -/
theorem GreedyCut.scan_eq_of_overflow {s : State} {pieces : List (BitSeq × Byte)} {rest : BitSeq}
    (h : GreedyCut s pieces rest) {cap n k : Nat} (i : Nat) (hk : n + k = cap) (hmany : k < pieces.length) :
    scan (resolve s) cap (piecesBits pieces ++ rest) i [] i n =
      .overflow (i + (piecesBits (pieces.take (k + 1))).length - 1) := by
  induction pieces generalizing i n k with
  | nil => exact absurd hmany (Nat.not_lt_zero k)
  | cons p pieces ih =>
    obtain ⟨hp, hcut⟩ := h.head_tail
    rw [piecesBits_cons, List.append_assoc, hp.scan_eq, List.take_succ_cons, piecesBits_cons, List.length_append]
    cases k with
    | zero =>
      rw [if_pos (by omega)]
      simp [piecesBits]
    | succ k =>
      rw [if_neg (by omega), ih hcut _ (by omega) (Nat.lt_of_succ_lt_succ hmany), emitBefore, Nat.add_assoc]

/-! ## MATCH (R199 to R203) -/

/-- The state MATCH leaves when it emits the symbols (R199). -/
def matched (s : State) (syms : List Byte) : State := s.setOut (s.out.writeFrom 0#8 0 syms) (infoWord syms.length)

theorem matched_out_read_of_lt {s : State} {syms : List Byte} {k : Nat} (h : k < syms.length) :
    (matched s syms).out.read 0#8 k = syms[k] := by
  rw [matched, State.setOut_out, Mem.read_writeFrom, if_pos (by omega), Nat.sub_zero, List.getD_eq_getElem _ _ h]

theorem matched_out_read_of_le {s : State} {syms : List Byte} {j : Nat} (h : syms.length ≤ j) :
    (matched s syms).out.read 0#8 j = s.out.read 0#8 j := by
  rw [matched, State.setOut_out, Mem.read_writeFrom, if_neg (by omega)]

theorem outSymbols_matched (s : State) {syms : List Byte} (h : syms.length ≤ 65536) :
    outSymbols (matched s syms) = syms := by
  have hlen : (matched s syms).olen.toNat = syms.length := infoWord_toNat_of_lt (by omega)
  rw [outSymbols, hlen]
  exact Mem.slice_writeFrom 0#8 s.out 0 syms

section

variable {s : State} {pieces : List (BitSeq × Byte)} {rest : BitSeq} (hcut : GreedyCut s pieces rest)
  (hbits : bitSequence s = piecesBits pieces ++ rest)
include hcut hbits

theorem runStage_match_of_nothing_left (hrest : rest = []) (hfits : pieces.length ≤ 65536) :
    runStage .matchCodes s = .completed (matched s (pieces.map Prod.snd)) := by
  have hscan := hcut.scan_eq_of_fits (n := 0) 0 (cap := 65536) (by omega)
  rw [if_pos hrest, ← hbits] at hscan
  rw [runStage, stageMatch, Config.outCap, hscan]
  rfl

/-- Dangling bits are a failure that leaves OUT as it was (R201). -/
theorem runStage_match_of_dangling (hrest : rest ≠ []) (hfits : pieces.length ≤ 65536) :
    runStage .matchCodes s = .failed { s with
      err := 2#4, errstage := 10#4, errinfo := infoWord (piecesBits pieces).length, esticky := 1#1, olen := 0#32 } := by
  have hscan := hcut.scan_eq_of_fits (n := 0) 0 (cap := 65536) (by omega)
  rw [if_neg hrest, ← hbits, Nat.zero_add] at hscan
  rw [runStage, stageMatch, Config.outCap, hscan]
  rfl

/-- A symbol too many is a failure that leaves OUT as it was (R203). -/
theorem runStage_match_of_overflow (hmany : 65536 < pieces.length) :
    runStage .matchCodes s = .failed { s with
      err := 4#4, errstage := 10#4, errinfo := infoWord ((piecesBits (pieces.take 65537)).length - 1), esticky := 1#1,
      olen := 0#32 } := by
  have hscan := hcut.scan_eq_of_overflow (n := 0) 0 (Nat.zero_add _) hmany
  rw [← hbits, Nat.zero_add] at hscan
  rw [runStage, stageMatch, Config.outCap, hscan]
  rfl

end

/-- Settles O42: the scan follows the greedy cut piece by piece, so that its end says how MATCH ends. -/
theorem matchResolvesGreedily : Obligations.MatchResolvesGreedily := by
  unfold Obligations.MatchResolvesGreedily
  refine ⟨decode_encode .matchCodes, fun s pieces rest hcut hbits => ⟨fun hrest hfits => ?emits,
    fun hrest hfits => ?dangles, fun hmany => ?overflows⟩⟩
  case emits =>
    have hlen : (pieces.map Prod.snd).length = pieces.length := List.length_map _
    refine ⟨(matched s (pieces.map Prod.snd)).out, ?_, fun k hk => ?_, fun j hj => matched_out_read_of_le (hlen ▸ hj)⟩
    · rw [exec_of_one_stage rfl, runStage_match_of_nothing_left hcut hbits hrest hfits, ← hlen]
      rfl
    · rw [matched_out_read_of_lt (hlen ▸ hk), List.getElem_map]
  case dangles =>
    rw [exec_of_one_stage rfl, runStage_match_of_dangling hcut hbits hrest hfits]
    rfl
  case overflows =>
    rw [exec_of_one_stage rfl, runStage_match_of_overflow hcut hbits hmany]
    rfl

/-! ## Every sequence has a greedy cut (R199, R200) -/

/-- The code that starts a sequence, shortest first and lowest symbol next, is a piece. -/
theorem exists_isPiece_of_starts {s : State} {b : BitSeq} (h : ¬ NoCodeStarts s b) :
    ∃ c sym b', IsPiece s c sym ∧ b = c ++ b' := by
  have hex : ∃ a, InTable s a ∧ codeOf s a <+: b := by simpa [NoCodeStarts] using h
  obtain ⟨sym, ⟨hin, hpre⟩, hmin⟩ := exists_minimalFor_of_wellFoundedLT
    (fun a => InTable s a ∧ codeOf s a <+: b) (fun a => toLex ((codeOf s a).length, a.toNat)) hex
  have hleast : ∀ a, InTable s a → codeOf s a <+: b → (codeOf s sym).length < (codeOf s a).length ∨
      ((codeOf s sym).length = (codeOf s a).length ∧ sym.toNat ≤ a.toNat) := fun a ha hb => by
    have htotal := le_total (toLex ((codeOf s a).length, a.toNat)) (toLex ((codeOf s sym).length, sym.toNat))
    simpa [Prod.Lex.toLex_le_toLex] using htotal.elim (hmin ⟨ha, hb⟩) id
  obtain ⟨b', rfl⟩ := hpre
  refine ⟨codeOf s sym, sym, b', ⟨⟨⟨hin, rfl⟩, fun a hlt ha e => ?lowest⟩, fun a ha hpre => ?shortest⟩, rfl⟩
  case lowest =>
    have := hleast a ha (e ▸ List.prefix_append _ _)
    rw [e] at this
    omega
  case shortest =>
    have := hleast a ha (hpre.trans (List.prefix_append _ _))
    exact hpre.eq_of_length_le (by omega)

/-- Settles O43: as long as a code starts what remains, a piece is cut off, and what remains gets shorter. -/
theorem everySequenceHasAGreedyCut : Obligations.EverySequenceHasAGreedyCut := by
  unfold Obligations.EverySequenceHasAGreedyCut
  intro s b
  induction hlen : b.length using Nat.strong_induction_on generalizing b with
  | _ n ih =>
    by_cases hno : NoCodeStarts s b
    · exact ⟨[], b, ⟨fun p hp => absurd hp List.not_mem_nil, hno⟩, rfl⟩
    · obtain ⟨c, sym, b', hpiece, rfl⟩ := exists_isPiece_of_starts hno
      have hpos := List.length_pos_iff.2 hpiece.1.ne_nil
      rw [List.length_append] at hlen
      obtain ⟨pieces, rest, ⟨hpieces, hrest⟩, rfl⟩ := ih b'.length (by omega) b' rfl
      exact ⟨(c, sym) :: pieces, rest, ⟨List.forall_mem_cons.2 ⟨hpiece, hpieces⟩, hrest⟩,
        by rw [piecesBits_cons, List.append_assoc]⟩

end Sys2Proof.Machine
end

section
namespace Sys2Proof.Machine

/-! ## DEC (R207, R208) -/

theorem length_le_of_bitSequence_eq_append {s : State} {b b' : BitSeq} (h : bitSequence s = b ++ b') :
    b.length ≤ s.blen.toNat := by
  rw [← bitSequence_length, h, List.length_append]
  exact Nat.le_add_right _ _

/-- A smaller `BLEN` leaves the first bits of the bit sequence. -/
theorem bitSequence_setBlen_of_eq_append {s : State} {b b' : BitSeq} (h : bitSequence s = b ++ b') :
    bitSequence (s.setBlen (infoWord b.length)) = b := by
  have hle := length_le_of_bitSequence_eq_append h
  have hlen : (infoWord b.length).toNat = b.length := infoWord_toNat_of_lt (by have := s.blen.isLt; omega)
  have hcut := Mem.slice_add false s.bits 0 b.length (s.blen.toNat - b.length)
  rw [Nat.add_sub_cancel' hle] at hcut
  rw [bitSequence, State.setBlen_blen, hlen]
  exact (List.append_inj_left (h.symm.trans hcut) (Mem.slice_length _ _ _ _).symm).symm

theorem GreedyCut.congr {s t : State} {pieces : List (BitSeq × Byte)} {rest : BitSeq} (h : GreedyCut s pieces rest)
    (hcode : codeOf t = codeOf s) : GreedyCut t pieces rest := by
  simpa only [GreedyCut, LowestMatch, NoCodeStarts, inTable_iff_codeOf_ne_nil, hcode] using h

/-- The state EXPAND and STRIP leave of a buffer whose padding begins at bit `n` (R207). -/
def unpadded (s : State) (n : Nat) : State := (expanded s).setBlen (infoWord n)

theorem codeOf_unpadded (s : State) (n : Nat) : codeOf (unpadded s n) = codeOf s := rfl

theorem unpadded_bits_read_of_le {s : State} (n : Nat) {j : Nat} (h : 8 * s.plen.toNat ≤ j) :
    (unpadded s n).bits.read false j = s.bits.read false j := expanded_bits_read_of_le h

section

variable {s : State} {b : BitSeq} {k : Nat} (hplen : s.plen.toNat ≤ 65536)
  (hbuf : (packedBytes s).flatMap bitsOfByte = b ++ true :: List.replicate k false)
include hplen hbuf

theorem bitSequence_unpadded : bitSequence (unpadded s b.length) = b :=
  bitSequence_setBlen_of_eq_append ((bitSequence_expanded hplen).trans hbuf)

/-- On a padded buffer DEC comes down to MATCH over the bits before the padding. -/
theorem exec_dec_of_padded : exec .dec s = .next (runStage .matchCodes (unpadded s b.length)).state := by
  rw [exec_eq_runStages, stagesOf, runStages_completed (runStage_expand_eq_expanded s),
    runStages_completed (runStage_strip_of_padded ((bitSequence_expanded hplen).trans hbuf)), runStages_single]
  rfl

end

/-- Settles O46: EXPAND and STRIP leave the bits of the pieces, and MATCH emits the pieces' symbols. -/
theorem decDecodesAPaddedBuffer : Obligations.DecDecodesAPaddedBuffer := by
  unfold Obligations.DecDecodesAPaddedBuffer
  intro s pieces k hcut hfits hplen hbuf
  have hlen : (pieces.map Prod.snd).length = pieces.length := List.length_map _
  have hbits := bitSequence_unpadded hplen hbuf
  have hexec : exec .dec s = .next (matched (unpadded s (piecesBits pieces).length) (pieces.map Prod.snd)) := by
    rw [exec_dec_of_padded hplen hbuf, runStage_match_of_nothing_left (hcut.congr (codeOf_unpadded s _))
      (hbits.trans (List.append_nil _).symm) rfl hfits, StageResult.state_completed]
  refine ⟨(unpadded s (piecesBits pieces).length).bits, _, _, ?state, hexec, outSymbols_matched _ (hlen ▸ hfits), hbits,
    fun j hj => unpadded_bits_read_of_le _ hj, fun j hj => matched_out_read_of_le (hlen ▸ hj)⟩
  rw [← hlen]
  rfl

/-- EXPAND makes a sequence of zeros of a buffer of zero bytes. -/
theorem expanded_bits_read_of_zero_bytes {s : State} (h : ∀ j < s.plen.toNat, s.packed.read 0#8 j = 0#8) {i : Nat}
    (hi : i < 8 * s.plen.toNat) : (expanded s).bits.read false i = false := by
  have hbyte : i / 8 < s.plen.toNat := by omega
  have hread := expanded_bits_read_of_lt hbyte (Nat.mod_lt i (show 0 < 8 by decide))
  rwa [Nat.div_add_mod, h _ hbyte, BitVec.getLsbD_zero] at hread

/-- Settles O47: STRIP fails on the zeros of an all-zero buffer; on a padded one EXPAND and STRIP leave the cut
sequence, and MATCH fails on it. -/
theorem decFailuresDeliverNothing : Obligations.DecFailuresDeliverNothing := by
  unfold Obligations.DecFailuresDeliverNothing
  refine ⟨fun s hplen hzero => ?zeros, fun s pieces rest k hplen hcut hbuf => ?padded⟩
  case zeros =>
    have hread : ∀ i < 8 * s.plen.toNat, (expanded s).bits.read false i = false := fun i hi =>
      expanded_bits_read_of_zero_bytes hzero hi
    have hstrip := runStage_strip_of_zeros (s := expanded s) fun i hi => hread i (expanded_blen_toNat hplen ▸ hi)
    refine ⟨(expanded s).bits, ?_, hread, fun j hj => expanded_bits_read_of_le hj⟩
    rw [exec_eq_runStages, stagesOf, runStages_completed (runStage_expand_eq_expanded s), runStages_failed hstrip]
    rfl
  case padded =>
    have hcut' := hcut.congr (codeOf_unpadded s (piecesBits pieces ++ rest).length)
    have hbits := bitSequence_unpadded hplen hbuf
    refine ⟨fun hrest hfits => ⟨(unpadded s (piecesBits pieces ++ rest).length).bits, _, rfl, ?dangles, hbits,
        fun j hj => unpadded_bits_read_of_le _ hj⟩,
      fun hmany => ⟨(unpadded s (piecesBits pieces ++ rest).length).bits, _, rfl, ?overflows, hbits,
        fun j hj => unpadded_bits_read_of_le _ hj⟩⟩
    case dangles =>
      rw [exec_dec_of_padded hplen hbuf, runStage_match_of_dangling hcut' hbits hrest hfits]
      rfl
    case overflows =>
      rw [exec_dec_of_padded hplen hbuf, runStage_match_of_overflow hcut' hbits hmany]
      rfl

end Sys2Proof.Machine
end

section
namespace Sys2Proof.Machine

/-! ## The table of a tree of one node (R153) -/

section
variable {s t : State} (hinv : s.TreeInvariant) (hne : s.nnodes ≠ 0#10) (h : exec .gen s = .next t)
include hinv hne h

/-- A tree of one node gives its one symbol the code `0`. -/
theorem exists_single_code_of_exec_gen (hone : s.nnodes.toNat = 1) :
    ∃ sym, codeOf t sym = [false] ∧ ∀ a, InTable t a ↔ a = sym := by
  obtain ⟨hroot, hsound⟩ := hinv.2 hne
  have hzero : s.root.toNat = 0 := by omega
  obtain ⟨-, -, hleaf, -⟩ := hsound
  obtain ⟨sym, f, hr⟩ := hleaf 0 (by omega)
  refine ⟨sym, ?_, inTable_iff_eq_of_single_leaf hne (hzero ▸ hr) h⟩
  obtain ⟨l, b, hexec, hread⟩ := genGivesASingleLeafOneBit s sym f hne (hzero ▸ hr)
  rw [h] at hexec
  cases hexec
  obtain ⟨hlen, hbits⟩ := hread sym.toNat
  rw [if_pos rfl] at hlen
  exact codeOf_eq_of_reads (by decide) hlen hbits

end

/-! ## The laws of a generated table (R220 to R222) -/

/-- Settles O33: codes are paths to different leaves, or there is only one code. -/
theorem generatedTableIsPrefixFree : Obligations.GeneratedTableIsPrefixFree := by
  unfold Obligations.GeneratedTableIsPrefixFree
  exact fun _ _ hinv hne h => prefixFree_of_exec_gen hinv hne h

theorem eq_built_of_exec_build {s t : State} (hne : leaves s.freq ≠ []) (h : exec .build s = .next t) :
    t = built s := by
  rw [eq_stage_of_exec h rfl, runStage_build_of_leaves hne, StageResult.state_completed]

theorem leaves_ne_nil_of_count {f : Mem Word} {i : Nat} (hi : i < 256) (hcount : f.read 0#32 i ≠ 0#32) :
    leaves f ≠ [] := fun e => hcount ((leaves_eq_nil_iff f).1 e i hi)

/-- BUILD, then GEN leave in the table the symbols with a count (R220). -/
theorem inTable_iff_count {s u : State} (hne : leaves s.freq ≠ []) (h : exec .gen (built s) = .next u) (sym : Byte) :
    InTable u sym ↔ s.freq.read 0#32 sym.toNat ≠ 0#32 :=
  (inTable_iff_leaf_of_exec_gen (built_treeInvariant hne) (built_nnodes_ne hne) h sym).trans (built_leaf_iff hne sym)

theorem codeLength_le (s : State) (a : Byte) : codeLength s a ≤ 255 := Nat.le_of_lt_succ (BitVec.isLt _)

/-- Settles O34: the leaves are the symbols with a count, and a code is the path to its symbol's leaf, or the one bit
that a lone leaf gets. -/
theorem tableCoversTheFrequencyTable : Obligations.TableCoversTheFrequencyTable := by
  unfold Obligations.TableCoversTheFrequencyTable
  rintro s t u ⟨i, hi, hcount⟩ hbuild hgen sym
  have hne := leaves_ne_nil_of_count hi hcount
  obtain rfl := eq_built_of_exec_build hne hbuild
  have hinv := built_treeInvariant hne
  have hnn := built_nnodes_ne hne
  refine ⟨inTable_iff_count hne hgen sym, fun hin => ?range, fun hin hone => ?single, fun hin hmany => ?path⟩
  case range => exact ⟨Nat.pos_of_ne_zero hin, codeLength_le u sym⟩
  case single =>
    obtain ⟨sym', hcode, honly⟩ := exists_single_code_of_exec_gen hinv hnn hgen hone
    rw [(honly sym).1 hin, ← length_codeOf, hcode, List.length_singleton]
  case path =>
    have hpos := (hinv.2 hnn).2.pos
    obtain ⟨i, f, hp, hr⟩ := ((leadsTo_iff_of_exec_gen hinv (by omega) hgen sym).1 _).2 ⟨hin, rfl⟩
    exact ⟨_, i, f, hp, hr, length_codeOf u sym⟩

/-! ## A generated table is full (R222) -/

/-- From node i of a sound tree every bit sequence long enough leads down to a leaf. -/
theorem TreeSound.exists_leadsTo_prefix {m : Mem Node} {nn i : Nat} (h : TreeSound m nn) (hi : i < nn) (b : BitSeq)
    (hb : i + 1 - (nn + 1) / 2 ≤ b.length) : ∃ sym p, LeadsTo m i p sym ∧ p <+: b := by
  induction i using Nat.strong_induction_on generalizing b with
  | _ i ih =>
    cases hr : m.read Node.zero i with
    | leaf sym f => exact ⟨sym, [], (leadsTo_leaf_iff hr).2 ⟨rfl, rfl⟩, List.nil_prefix⟩
    | internal f l r =>
      have hchild : ∀ x : Bool, IsChild m x i (if x then r.toNat else l.toNat) := fun x => ⟨f, l, r, hr, rfl⟩
      have hge := (h.isChild_lt hi (hchild false)).1
      cases b with
      | nil => exact absurd hb (by simp; omega)
      | cons x b =>
        rw [List.length_cons] at hb
        have hlt := (h.isChild_lt hi (hchild x)).2
        obtain ⟨sym, p, hp, hpre⟩ := ih _ hlt (by omega) b (by omega)
        exact ⟨sym, x :: p, (leadsTo_internal_iff hr).2 ⟨x, p, rfl, hp⟩, List.cons_prefix_cons.2 ⟨rfl, hpre⟩⟩

/-- Two codes of a table that satisfies R221 that start the same sequence are the code of one symbol. -/
theorem PrefixFree.eq_of_starts {s : State} (h : PrefixFree s) {a a' : Byte} {b : BitSeq} (ha : InTable s a)
    (ha' : InTable s a') (hb : codeOf s a <+: b) (hb' : codeOf s a' <+: b) : a = a' := by
  by_contra hne
  rcases List.prefix_or_prefix_of_prefix hb hb' with hpre | hpre
  · exact h a a' hne ha ha' hpre
  · exact h a' a (Ne.symm hne) ha' ha hpre

/-- The sequences of n bits that begin with c are c with any n - |c| bits after it. -/
def prefixedEquiv (c : BitSeq) {n : Nat} (h : c.length ≤ n) :
    {v : List.Vector Bool n // c <+: v.toList} ≃ List.Vector Bool (n - c.length) where
  toFun v := ⟨v.1.toList.drop c.length, by simp⟩
  invFun w := ⟨⟨c ++ w.toList, by simp [h]⟩, List.prefix_append _ _⟩
  left_inv := by
    rintro ⟨v, hv⟩
    exact Subtype.ext (List.Vector.eq _ _ (List.prefix_append_drop hv).symm)
  right_inv w := by
    ext1
    simp

theorem card_prefixed (c : BitSeq) {n : Nat} (h : c.length ≤ n) :
    (Finset.univ.filter fun v : List.Vector Bool n => c <+: v.toList).card = 2 ^ (n - c.length) := by
  rw [← Fintype.card_subtype, Fintype.card_congr (prefixedEquiv c h), card_vector, Fintype.card_bool]

/-- The symbol is in the table and its code starts the bit sequence. -/
abbrev CodeStarts (s : State) (a : Byte) (b : BitSeq) : Prop := codeLength s a ≠ 0 ∧ codeOf s a <+: b

theorem card_codeStarts (s : State) (a : Byte) :
    (Finset.univ.filter fun v : List.Vector Bool 255 => CodeStarts s a v.toList).card =
      if codeLength s a = 0 then 0 else 2 ^ (255 - codeLength s a) := by
  split
  · next hz => simp [CodeStarts, hz]
  · next hne =>
    have hcard := card_prefixed (codeOf s a) (n := 255) (by rw [length_codeOf]; exact codeLength_le s a)
    rw [length_codeOf] at hcard
    simpa [CodeStarts, hne] using hcard

/-- The Kraft sum of the table, times 2^255 (R222). -/
def kraftSum (s : State) : Nat :=
  ((List.range 256).map fun i => if codeLength s (BitVec.ofNat 8 i) = 0 then 0
    else 2 ^ (255 - codeLength s (BitVec.ofNat 8 i))).sum

theorem kraftSum_eq_sum (s : State) : kraftSum s = ∑ i ∈ Finset.range 256,
    if codeLength s (BitVec.ofNat 8 i) = 0 then 0 else 2 ^ (255 - codeLength s (BitVec.ofNat 8 i)) := rfl

/-- The Kraft sum, times 2^255: a code of k bits starts 2^(255 - k) of the sequences of 255 bits, so that the sum counts
each of these sequences once for every code that starts it. -/
theorem kraft_eq_of_unique_start {s : State}
    (h : ∀ b : BitSeq, 255 ≤ b.length → ∃ sym, (InTable s sym ∧ codeOf s sym <+: b) ∧
      ∀ sym', InTable s sym' → codeOf s sym' <+: b → sym' = sym) :
    kraftSum s = 2 ^ 255 := by
  have hone : ∀ v : List.Vector Bool 255,
      ((Finset.range 256).filter fun i => CodeStarts s (BitVec.ofNat 8 i) v.toList).card = 1 := by
    intro v
    obtain ⟨sym, hsym, honly⟩ := h v.toList (Nat.le_of_eq v.toList_length.symm)
    refine Finset.card_eq_one.2 ⟨sym.toNat, Finset.ext fun i => ?_⟩
    rw [Finset.mem_filter, Finset.mem_range, Finset.mem_singleton]
    constructor
    · rintro ⟨hi, hin, hpre⟩
      rw [← honly _ hin hpre, BitVec.toNat_ofNat, Nat.mod_eq_of_lt hi]
    · rintro rfl
      rw [BitVec.ofNat_toNat, BitVec.setWidth_eq]
      exact ⟨sym.isLt, hsym⟩
  calc kraftSum s
    _ = ∑ i ∈ Finset.range 256,
        (Finset.univ.filter fun v : List.Vector Bool 255 => CodeStarts s (BitVec.ofNat 8 i) v.toList).card :=
      (kraftSum_eq_sum s).trans (Finset.sum_congr rfl fun i _ => (card_codeStarts s _).symm)
    _ = ∑ v : List.Vector Bool 255,
        ((Finset.range 256).filter fun i => CodeStarts s (BitVec.ofNat 8 i) v.toList).card :=
      Finset.sum_card_bipartiteAbove_eq_sum_card_bipartiteBelow
        fun i (v : List.Vector Bool 255) => CodeStarts s (BitVec.ofNat 8 i) v.toList
    _ = ∑ _ : List.Vector Bool 255, 1 := Finset.sum_congr rfl fun v _ => hone v
    _ = 2 ^ 255 := by rw [Finset.sum_const, Finset.card_univ, card_vector, Fintype.card_bool, smul_eq_mul, mul_one]

/-- The Kraft sum of a table of one symbol has one term. -/
theorem kraft_eq_of_single {s : State} {sym : Byte} (h : ∀ a, InTable s a ↔ a = sym) :
    kraftSum s = 2 ^ (255 - codeLength s sym) := by
  rw [kraftSum_eq_sum, Finset.sum_eq_single sym.toNat, BitVec.ofNat_toNat, BitVec.setWidth_eq,
    if_neg ((h sym).2 rfl)]
  · intro i hi hne
    refine if_pos (of_not_not (mt (h _).1 fun e => hne ?_))
    rw [← e, BitVec.toNat_ofNat, Nat.mod_eq_of_lt (Finset.mem_range.1 hi)]
  · exact fun hout => absurd (Finset.mem_range.2 sym.isLt) hout

/-- In the table of a sound tree of more than one node a code starts every sequence of 255 bits or more: walking down
the tree along it ends at a leaf. -/
theorem exists_codeStarts_of_exec_gen {s t : State} (hinv : s.TreeInvariant) (hnn : 1 < s.nnodes.toNat)
    (h : exec .gen s = .next t) {b : BitSeq} (hb : 255 ≤ b.length) : ∃ sym, InTable t sym ∧ codeOf t sym <+: b := by
  have hne : s.nnodes ≠ 0#10 := fun e => by simp [e] at hnn
  obtain ⟨hroot, hsound⟩ := hinv.2 hne
  have hmax : s.nnodes.toNat ≤ 511 := hsound.2.1
  obtain ⟨sym, p, hp, hpre⟩ := hsound.exists_leadsTo_prefix (i := s.nnodes.toNat - 1) (by omega) b (by omega)
  obtain ⟨hin, rfl⟩ := ((leadsTo_iff_of_exec_gen hinv hnn h sym).1 p).1 (hroot ▸ hp)
  exact ⟨sym, hin, hpre⟩

/-- Settles O35: with more than one node each long sequence runs down the tree into one leaf, and the sum counts those
sequences; with one node the sum has one term, that of the code `0`. -/
theorem generatedTableIsFull : Obligations.GeneratedTableIsFull := by
  unfold Obligations.GeneratedTableIsFull
  intro s t hinv hne h kraft
  refine ⟨fun hnn => ?many, fun hone => ?single⟩
  case many =>
    have hunique : ∀ b : BitSeq, 255 ≤ b.length → ∃ sym, (InTable t sym ∧ codeOf t sym <+: b) ∧
        ∀ sym', InTable t sym' → codeOf t sym' <+: b → sym' = sym := by
      intro b hb
      have hfree := prefixFree_of_exec_gen hinv hne h
      obtain ⟨sym, hin, hpre⟩ := exists_codeStarts_of_exec_gen hinv hnn h hb
      exact ⟨sym, ⟨hin, hpre⟩, fun sym' hin' hpre' => hfree.eq_of_starts hin' hin hpre' hpre⟩
    exact ⟨kraft_eq_of_unique_start hunique, hunique⟩
  case single =>
    obtain ⟨sym, hcode, honly⟩ := exists_single_code_of_exec_gen hinv hne h hone
    refine ⟨?_, fun a ha hpre => ?_⟩
    · have hsum := kraft_eq_of_single honly
      rwa [← length_codeOf, hcode] at hsum
    · rw [(honly a).1 ha, hcode] at hpre
      exact absurd hpre (by decide)

end Sys2Proof.Machine
end

section
namespace Sys2Proof.Machine

/-! ## A node that goes before another is no higher in the tree (R223) -/

theorem NodeBefore.asymm {m : Mem Node} {c d : Nat} (h : NodeBefore m c d) : ¬ NodeBefore m d c := by
  rw [NodeBefore] at h ⊢
  omega

/-- What a round takes out of the queue goes before what it leaves in. -/
theorem JoinsLeastPair.nodeBefore {m : Mem Node} {n r c d : Nat} (h : JoinsLeastPair m n r) (hlt : n + r < 512)
    (hc : isParent m (n + r) c) (hd : Waiting m n r d) (hleft : ¬ isParent m (n + r) d) : NodeBefore m c d := by
  obtain ⟨a, b, ⟨ha, -⟩, ⟨hb, -⟩, -, hnew, hleast, hsecond⟩ := h
  have hpar : ∀ j, isParent m (n + r) j ↔ a = j ∨ b = j := fun j => by
    rw [isParent_of_read hnew, BitVec.toNat_ofNat, BitVec.toNat_ofNat, Nat.mod_eq_of_lt (Nat.lt_trans ha hlt),
      Nat.mod_eq_of_lt (Nat.lt_trans hb hlt)]
  obtain ⟨hda, hdb⟩ := not_or.1 (mt (hpar d).2 hleft)
  rcases (hpar c).1 hc with rfl | rfl
  · exact hleast d hd (Ne.symm hda)
  · exact hsecond d hd (Ne.symm hda) (Ne.symm hdb)

section
variable {m : Mem Node} {n : Nat} (hsound : TreeSound m (2 * n - 1)) (hjoin : ∀ r < n - 1, JoinsLeastPair m n r)
include hsound hjoin

/-- Of two nodes the one that goes before the other is taken out of the queue no later. -/
theorem parent_le_of_nodeBefore {x y p q : Nat} (hxy : NodeBefore m x y) (hp : p < 2 * n - 1) (hq : q < 2 * n - 1)
    (hpx : isParent m p x) (hqy : isParent m q y) (hnq : n ≤ q) (hxq : x < q) : p ≤ q := by
  by_contra hqp
  have hmax : 2 * n - 1 ≤ 511 := hsound.2.1
  obtain ⟨r, rfl⟩ := Nat.exists_eq_add_of_le hnq
  have honly : ∀ i < p, ¬ isParent m i x := by
    intro i hi hix
    obtain ⟨-, -, -, -, -, hparent, -⟩ := hsound
    obtain ⟨k, -, huniq⟩ := hparent x (by omega)
    have := huniq i (by omega) hix
    have := huniq p hp hpx
    omega
  have hwait : Waiting m n r x := ⟨hxq, fun r' hr' => honly (n + r') (by omega)⟩
  exact hxy.asymm ((hjoin r (by omega)).nodeBefore (by omega) hqy hwait (honly (n + r) (by omega)))

/-- A node that goes before another, and is a leaf or made before it, is no higher in the tree: its parent is taken
out of the queue no later than the other's, and so on up to the root. -/
theorem path_length_le_of_nodeBefore {x y : Nat} {p q : BitSeq} (hxy : x = y ∨ NodeBefore m x y ∧ (x < n ∨ x < y))
    (hp : followPath m (2 * n - 2) p = some x) (hq : followPath m (2 * n - 2) q = some y) : q.length ≤ p.length := by
  have hpos := hsound.pos
  have hlt : ∀ {p k}, followPath m (2 * n - 2) p = some k → k < 2 * n - 1 := fun hp => by
    have := (hsound.followPath_bounds (by omega) hp).1
    omega
  induction q using List.reverseRecOn generalizing x y p with
  | nil => exact Nat.zero_le _
  | append_singleton q b ih =>
    rcases hxy with rfl | ⟨hbefore, horder⟩
    · rw [hsound.path_unique hp hq]
    · obtain ⟨j, hj, hjy⟩ := followPath_snoc_iff.1 hq
      obtain ⟨hnj, hyj⟩ := hsound.isChild_lt (hlt hj) hjy
      have hjroot := hlt hj
      rcases List.eq_nil_or_concat' p with rfl | ⟨p, c, rfl⟩
      · obtain rfl := followPath_nil_iff.1 hp
        omega
      · obtain ⟨i, hi, hix⟩ := followPath_snoc_iff.1 hp
        have hni := (hsound.isChild_lt (hlt hi) hix).1
        have hij := parent_le_of_nodeBefore hsound hjoin hbefore (hlt hi) hjroot hix.isParent hjy.isParent (by omega)
          (by omega)
        have hmono := hsound.freqAt_mono (by omega) hjoin (i := i) (by omega) hij hjroot
        have hparents : i = j ∨ NodeBefore m i j ∧ (i < n ∨ i < j) := by
          rw [NodeBefore]
          omega
        simpa using ih hparents hi hj

end

/-! ## The lengths of the codes follow the counts (R223) -/

/-- A symbol with a count has a leaf among the first nodes, and the leaf has its count. -/
theorem exists_builtTree_leaf {s : State} {sym : Byte} (h : s.freq.read 0#32 sym.toNat ≠ 0#32) :
    ∃ k < (leaves s.freq).length, (builtTree s).read Node.zero k =
      .leaf sym ((s.freq.read 0#32 sym.toNat).setWidth 40) := by
  obtain ⟨k, hk, e⟩ := List.getElem_of_mem ((mem_presentSymbols s.freq sym.toNat).2 ⟨sym.isLt, h⟩)
  have hleaf := builtTree_read_leaf (s := s) k hk
  rw [e, leafOf, BitVec.ofNat_toNat, BitVec.setWidth_eq] at hleaf
  exact ⟨k, by rwa [leaves, List.length_map], hleaf⟩

theorem built_root_toNat (s : State) : (built s).root.toNat = 2 * (leaves s.freq).length - 2 := by
  have hle := leaves_length_le s.freq
  exact (BitVec.toNat_ofNat _ _).trans (Nat.mod_eq_of_lt (by omega))

/-- After BUILD and GEN over two symbols or more, the code of a symbol with a count is the path to its leaf. -/
theorem exists_leaf_path_of_count {s u : State} {sym : Byte} (hmany : 1 < (leaves s.freq).length)
    (hgen : exec .gen (built s) = .next u) (h : s.freq.read 0#32 sym.toNat ≠ 0#32) :
    ∃ k < (leaves s.freq).length, freqAt (builtTree s) k = (s.freq.read 0#32 sym.toNat).toNat ∧
      followPath (builtTree s) (2 * (leaves s.freq).length - 2) (codeOf u sym) = some k := by
  have hne : leaves s.freq ≠ [] := List.length_pos_iff.1 (by omega)
  have hsound := builtTree_sound hne
  have hnn : 1 < (built s).nnodes.toNat := by rw [built_nnodes_toNat]; omega
  obtain ⟨k, hk, hread⟩ := exists_builtTree_leaf h
  obtain ⟨i, f, hp, hr⟩ := ((leadsTo_iff_of_exec_gen (built_treeInvariant hne) hnn hgen sym).1 _).2
    ⟨(inTable_iff_count hne hgen sym).2 h, rfl⟩
  rw [built_root_toNat] at hp
  have hi := (hsound.followPath_bounds (by omega) hp).1
  obtain rfl := hsound.leaf_unique (by omega) (by omega) hr hread
  have hcount := (s.freq.read 0#32 sym.toNat).isLt
  refine ⟨i, hk, ?_, hp⟩
  rw [freqAt, hread, nodeFreq, BitVec.toNat_setWidth, Nat.mod_eq_of_lt (by omega)]

/-- Settles O36: the less frequent symbol's leaf goes before the other's, so that it is no higher in the tree; a tree of
one node has one code. -/
theorem moreFrequentSymbolsGetNoLongerCodes : Obligations.MoreFrequentSymbolsGetNoLongerCodes := by
  unfold Obligations.MoreFrequentSymbolsGetNoLongerCodes
  intro s t u a b hbuild hgen hb hlt
  have ha : s.freq.read 0#32 a.toNat ≠ 0#32 := fun e => by simp [e] at hlt
  have hne := leaves_ne_nil_of_count b.isLt hb
  have hpos := List.length_pos_iff.2 hne
  obtain rfl := eq_built_of_exec_build hne hbuild
  by_cases hmany : 1 < (leaves s.freq).length
  · obtain ⟨i, -, hfi, hpi⟩ := exists_leaf_path_of_count hmany hgen ha
    obtain ⟨j, hj, hfj, hpj⟩ := exists_leaf_path_of_count hmany hgen hb
    have hbefore : NodeBefore (builtTree s) j i := .inl (by omega)
    have hlen := path_length_le_of_nodeBefore (builtTree_sound hne) (fun r hr => builtTree_joinsLeastPair hr)
      (.inr ⟨hbefore, .inl hj⟩) hpj hpi
    rwa [length_codeOf, length_codeOf] at hlen
  · have hone : (built s).nnodes.toNat = 1 := by rw [built_nnodes_toNat]; omega
    obtain ⟨sym, -, honly⟩ := exists_single_code_of_exec_gen (built_treeInvariant hne) (built_nnodes_ne hne) hgen hone
    rw [(honly a).1 ((inTable_iff_count hne hgen a).2 ha), (honly b).1 ((inTable_iff_count hne hgen b).2 hb)]

end Sys2Proof.Machine
end

section
namespace Sys2Proof.Machine

/-! ## PACK and EXPAND undo each other (R227) -/

/-- A byte made of its own 8 bits (R14, R68). -/
theorem byteOfBits_bitsOfByte (v : Byte) : byteOfBits (bitsOfByte v) = v := by
  refine BitVec.eq_of_getLsbD_eq fun i hi => ?_
  have hbits := bitsOfByte_byteOfBits (length_bitsOfByte v)
  have hbit : ∀ w : Byte, (bitsOfByte w)[7 - i]? = some (w.getLsbD i) := fun w => by
    simp [bitsOfByte, Config.byteBits, show 7 - i < 8 by omega, show 7 - (7 - i) = i by omega]
  exact Option.some_inj.1 (by rw [← hbit, ← hbit, hbits])

/-- EXPAND of a buffer whose bits `BLEN` can count makes them the bit sequence, whether they fit BITS or not. -/
theorem bitSequence_expanded_of_lt {s : State} (h : 8 * s.plen.toNat < 2 ^ 32) :
    bitSequence (expanded s) = (packedBytes s).flatMap bitsOfByte := by
  have hblen : (expanded s).blen.toNat = 8 * s.plen.toNat := infoWord_toNat_of_lt h
  rw [bitSequence, hblen, ← expanded_length]
  exact Mem.slice_writeFrom false s.bits 0 _

theorem packedUp_plen_toNat (s : State) : (packedUp s).plen.toNat = s.blen.toNat / 8 :=
  infoWord_toNat_of_lt (by have := s.blen.isLt; omega)

theorem expanded_packedUp_blen {s : State} (h : s.blen.toNat % 8 = 0) : (expanded (packedUp s)).blen = s.blen := by
  have hlen : 8 * (packedUp s).plen.toNat = s.blen.toNat := by rw [packedUp_plen_toNat]; omega
  exact (congrArg infoWord hlen).trans (infoWord_of_toNat s.blen)

theorem bitSequence_expanded_packedUp {s : State} (h : s.blen.toNat % 8 = 0) :
    bitSequence (expanded (packedUp s)) = bitSequence s := by
  have hblen := s.blen.isLt
  rw [bitSequence_expanded_of_lt (by rw [packedUp_plen_toNat]; omega), bits_packedBytes_packedUp h]

/-- PACK of the bits EXPAND has made of a byte gives the byte. -/
theorem packByte_expanded {s : State} {j : Nat} (hj : j < s.plen.toNat) :
    packByte (expanded s).bits j = s.packed.read 0#8 j := by
  have hbits : (expanded s).bits.slice false (8 * j) 8 = bitsOfByte (s.packed.read 0#8 j) :=
    List.map_congr_left fun k hk => expanded_bits_read_of_lt hj (List.mem_range.1 hk)
  exact (congrArg byteOfBits hbits).trans (byteOfBits_bitsOfByte _)

section
variable {s : State} (h : s.plen.toNat ≤ 65536)
include h

theorem packedUp_expanded_plen : (packedUp (expanded s)).plen = s.plen := by
  have hlen : (expanded s).blen.toNat / 8 = s.plen.toNat := by rw [expanded_blen_toNat h]; omega
  exact (congrArg infoWord hlen).trans (infoWord_of_toNat s.plen)

theorem packedBytes_packedUp_expanded : packedBytes (packedUp (expanded s)) = packedBytes s := by
  have hlen : (expanded s).blen.toNat / 8 = s.plen.toNat := by rw [expanded_blen_toNat h]; omega
  rw [packedBytes_packedUp, hlen, packedBytes, Mem.slice]
  refine List.map_congr_left fun j hj => ?_
  rw [packByte_expanded (List.mem_range.1 hj), Nat.zero_add]

end

/-! ## STRIP undoes PAD (R227) -/

/-- A sequence that is not full leaves room for its padding. -/
theorem add_padCount_le {b : Nat} (h : b < 524288) : b + padCount b ≤ 524288 := by
  rw [add_padCount]
  omega

section
variable {s : State} (h : s.blen.toNat < 524288)
include h

theorem bitSequence_padded_eq :
    bitSequence (padded s) = bitSequence s ++ true :: List.replicate (7 - s.blen.toNat % 8) false := by
  rw [bitSequence_padded (add_padCount_le h), padBits_eq]

theorem runStage_strip_padded : runStage .strip (padded s) = .completed ((padded s).setBlen s.blen) := by
  rw [runStage_strip_of_padded (bitSequence_padded_eq h), bitSequence_length, infoWord_of_toNat]

theorem bitSequence_padded_setBlen : bitSequence ((padded s).setBlen s.blen) = bitSequence s := by
  have hcut := bitSequence_setBlen_of_eq_append (bitSequence_padded_eq h)
  rwa [bitSequence_length, infoWord_of_toNat] at hcut

end

/-- The bit sequence `1`, which holds its sentinel alone. -/
def loneSentinel : State := { State.reset with bits := [(0, true)], blen := 1#32 }

/-- Settles O50: the bits of the packed bytes are the sequence, and the byte of a byte's bits is the byte; STRIP finds
the 1 that PAD put after the sequence. STRIP empties the sequence `1`, and PAD makes a whole byte of it. -/
theorem stagesUndoEachOther : Obligations.StagesUndoEachOther := by
  unfold Obligations.StagesUndoEachOther
  refine ⟨fun s t u haligned hpack hexpand => ?packExpand, fun s t u hplen hexpand hpack => ?expandPack,
    fun s t u hroom hpad hstrip => ?padStrip, loneSentinel, _, _, exec_eq_runStages _ _, exec_eq_runStages _ _,
    ?stripPad⟩
  case packExpand =>
    obtain rfl : t = packedUp s := by
      rw [eq_stage_of_exec hpack rfl, runStage_pack_of_aligned haligned, StageResult.state_completed]
    obtain rfl : u = expanded (packedUp s) := eq_stage_of_exec hexpand rfl
    exact ⟨bitSequence_expanded_packedUp haligned, expanded_packedUp_blen haligned⟩
  case expandPack =>
    obtain rfl : t = expanded s := eq_stage_of_exec hexpand rfl
    obtain rfl : u = packedUp (expanded s) := by
      rw [eq_stage_of_exec hpack rfl,
        runStage_pack_of_aligned (by rw [expanded_blen_toNat hplen]; exact Nat.mul_mod_right _ _),
        StageResult.state_completed]
    exact ⟨packedBytes_packedUp_expanded hplen, packedUp_expanded_plen hplen⟩
  case padStrip =>
    obtain rfl : t = padded s := by
      rw [eq_stage_of_exec hpad rfl, runStage_pad_of_le (add_padCount_le hroom), StageResult.state_completed]
    obtain rfl : u = (padded s).setBlen s.blen := by
      rw [eq_stage_of_exec hstrip rfl, runStage_strip_padded hroom, StageResult.state_completed]
    exact ⟨bitSequence_padded_setBlen hroom, rfl⟩
  case stripPad => decide

end Sys2Proof.Machine
end

section
namespace Sys2Proof.Machine

/-! ## ENC, then DEC (R226) -/

/-- The symbols of the text that are in the table. -/
def tableText (s : State) : List Byte := (textSymbols s).filter fun a => codeLength s a != 0

/-- The codes of those symbols, as the pieces of a bit sequence. -/
def textPieces (s : State) : List (BitSeq × Byte) := (tableText s).map fun a => (codeOf s a, a)

theorem mem_tableText {s : State} {a : Byte} : a ∈ tableText s ↔ a ∈ textSymbols s ∧ InTable s a := by
  simp [tableText, InTable]

theorem textPieces_map_snd (s : State) : (textPieces s).map Prod.snd = tableText s := by
  simp [textPieces, Function.comp_def]

theorem textPieces_length (s : State) : (textPieces s).length = (tableText s).length := List.length_map _

theorem tableText_eq_textSymbols {s : State} (h : ∀ a ∈ textSymbols s, InTable s a) : tableText s = textSymbols s :=
  List.filter_eq_self.2 fun a ha => by simpa [InTable] using h a ha

/-- A symbol outside the table adds no bit to the payload (R162). -/
theorem piecesBits_textPieces (s : State) : piecesBits (textPieces s) = payload s := by
  rw [piecesBits, textPieces, tableText, List.flatMap_map, payload]
  induction textSymbols s with
  | nil => rfl
  | cons a text ih =>
    by_cases hz : codeLength s a = 0
    · have hnil : codeOf s a = [] := List.length_eq_zero_iff.1 ((length_codeOf s a).trans hz)
      simpa [hz, hnil] using ih
    · simpa [hz] using ih

/-- With a table that satisfies R221 the codes of the text are its greedy cut. -/
theorem PrefixFree.greedyCut_textPieces {s : State} (h : PrefixFree s) : GreedyCut s (textPieces s) [] := by
  refine ⟨fun p hp => ?_, fun a ha hpre => inTable_iff_codeOf_ne_nil.1 ha (List.prefix_nil.1 hpre)⟩
  obtain ⟨sym, hsym, rfl⟩ := List.mem_map.1 hp
  have hin := (mem_tableText.1 hsym).2
  have honly : ∀ a, InTable s a → codeOf s a <+: codeOf s sym → a = sym := fun a ha hpre =>
    h.eq_of_starts ha hin hpre List.prefix_rfl
  refine ⟨⟨⟨hin, rfl⟩, fun a hlt ha e => ?_⟩, fun a ha hpre => congrArg _ (honly a ha hpre)⟩
  exact absurd hlt (honly a ha (e ▸ List.prefix_rfl) ▸ Nat.lt_irrefl _)

/-- ENC without a failure means that the payload left room for the padding (R178). -/
theorem payloadLength_lt_of_exec_enc {s t : State} (h : exec .enc s = .next t) (he : t.err = 0#4) :
    payloadLength s < 524288 := by
  obtain ⟨hmap, hpad⟩ := encFailuresLeaveNoBuffer s
  rcases Nat.lt_trichotomy (payloadLength s) 524288 with hlt | heq | hgt
  · exact hlt
  · obtain ⟨m, t', rfl, hexec, -⟩ := hpad heq
    rw [h] at hexec
    cases hexec
    exact absurd he (show (4#4 : BitVec 4) ≠ 0#4 by decide)
  · have hexec := hmap hgt
    rw [h] at hexec
    cases hexec
    exact absurd he (show (4#4 : BitVec 4) ≠ 0#4 by decide)

/-- The state ENC leaves when the payload leaves room for the padding (R177). -/
def encoded (s : State) : State := packedUp (padded (mapped s))

@[simp] theorem encoded_err (s : State) : (encoded s).err = s.err := rfl
@[simp] theorem encoded_nnodes (s : State) : (encoded s).nnodes = s.nnodes := rfl
@[simp] theorem codeOf_encoded (s : State) : codeOf (encoded s) = codeOf s := rfl

section
variable {s : State} (h : payloadLength s < 524288)
include h

theorem eq_encoded_of_exec {t : State} (ht : exec .enc s = .next t) : t = encoded s := by
  rw [exec_enc_of_lt h] at ht
  cases ht
  rfl

theorem bitSequence_encoded :
    bitSequence (encoded s) = payload s ++ true :: List.replicate (7 - payloadLength s % 8) false := by
  obtain ⟨m, k, t, -, hexec, hseq, -⟩ := encPacksThePaddedPayload s h
  rw [← eq_encoded_of_exec h hexec]
  exact hseq

theorem encoded_plen_le : (encoded s).plen.toNat ≤ 65536 := by
  rw [encoded, packedUp_plen_toNat, padded_mapped_blen_toNat h]
  omega

/-- The buffer ENC leaves holds the codes of the text and the padding. -/
theorem bits_packedBytes_encoded : (packedBytes (encoded s)).flatMap bitsOfByte =
    piecesBits (textPieces s) ++ true :: List.replicate (7 - payloadLength s % 8) false := by
  obtain ⟨m, k, t, -, hexec, -, hbytes, -⟩ := encPacksThePaddedPayload s h
  rw [← eq_encoded_of_exec h hexec, hbytes, eq_encoded_of_exec h hexec, bitSequence_encoded h, piecesBits_textPieces]

/-- DEC after ENC gives the text's symbols that are in the table, if they fit OUT. -/
theorem exists_exec_dec_encoded_of_fits (hfree : PrefixFree s) (hfits : (tableText s).length ≤ 65536) :
    ∃ u, exec .dec (encoded s) = .next u ∧ u.err = s.err ∧ outSymbols u = tableText s := by
  have hcut := hfree.greedyCut_textPieces.congr (codeOf_encoded s)
  obtain ⟨m, o, u, hu, hexec, hout, -⟩ := decDecodesAPaddedBuffer (encoded s) (textPieces s) _ hcut
    (textPieces_length s ▸ hfits) (encoded_plen_le h) (bits_packedBytes_encoded h)
  exact ⟨u, hexec, by rw [hu, encoded_err], by rw [hout, textPieces_map_snd]⟩

/-- DEC after ENC fails if they do not fit OUT. -/
theorem exists_exec_dec_encoded_of_overflow (hfree : PrefixFree s) (hmany : 65536 < (tableText s).length) :
    ∃ u, exec .dec (encoded s) = .next u ∧ u.err = 4#4 := by
  have hcut := hfree.greedyCut_textPieces.congr (codeOf_encoded s)
  obtain ⟨m, u, hu, hexec, -⟩ := (decFailuresDeliverNothing.2 (encoded s) (textPieces s) [] _ (encoded_plen_le h) hcut
    (by rw [List.append_nil]; exact bits_packedBytes_encoded h)).2 (textPieces_length s ▸ hmany)
  exact ⟨u, hexec, by rw [hu]⟩

end

/-- Settles O51: ENC leaves the codes of the symbols in the table, which are the greedy cut that DEC follows; DEC fails
only if there are too many of them. -/
theorem roundTripWithAPrefixFreeTable : Obligations.RoundTripWithAPrefixFreeTable := by
  unfold Obligations.RoundTripWithAPrefixFreeTable
  intro s t u hfree h0 henc het hdec
  have hpay := payloadLength_lt_of_exec_enc henc het
  obtain rfl := eq_encoded_of_exec hpay henc
  have hgives : (tableText s).length ≤ 65536 → u.err = 0#4 ∧ outSymbols u = tableText s := by
    intro hfits
    obtain ⟨u', hexec, herr, hout⟩ := exists_exec_dec_encoded_of_fits hpay hfree hfits
    rw [hdec] at hexec
    cases hexec
    exact ⟨herr.trans h0, hout⟩
  refine ⟨fun heu => ?succeeds, fun hall htlen => ?all⟩
  case succeeds =>
    rcases Nat.lt_or_ge 65536 (tableText s).length with hmany | hfits
    · obtain ⟨u', hexec, herr⟩ := exists_exec_dec_encoded_of_overflow hpay hfree hmany
      rw [hdec] at hexec
      cases hexec
      rw [heu] at herr
      exact absurd herr (by decide)
    · exact (hgives hfits).2
  case all =>
    have htext := tableText_eq_textSymbols hall
    have hlen : (textSymbols s).length = s.tlen.toNat := Mem.slice_length _ _ _ _
    rw [htext, hlen] at hgives
    exact hgives htlen

/-! ## COMPRESS, then DEC (R225, R229) -/

/-- Settles O52: a non-empty text of symbols below 128 has a tree, whose table satisfies R221 and holds every symbol of
the text. -/
theorem compressThenDecGivesTheText : Obligations.CompressThenDecGivesTheText := by
  unfold Obligations.CompressThenDecGivesTheText
  intro s t u hpos hfits hall h0 hcompress het hdec
  have hlen : (textSymbols s).length = s.tlen.toNat := Mem.slice_length _ _ _ _
  obtain ⟨a, ha⟩ := List.exists_mem_of_length_pos (hlen ▸ hpos)
  have hne := leaves_counted_ne_nil ha (hall a ha)
  have hin : ∀ a ∈ textSymbols (tabled s), InTable (tabled s) a := fun a ha =>
    (inTable_tabled_iff hne a).2 ⟨ha, hall a ha⟩
  rw [exec_compress_eq_exec_enc hne] at hcompress
  obtain ⟨heu, hout⟩ :=
    (roundTripWithAPrefixFreeTable (tabled s) t u (tabled_prefixFree hne) h0 hcompress het hdec).2 hin hfits
  refine ⟨heu, BitVec.eq_of_toNat_eq ?_, hout⟩
  calc u.olen.toNat
    _ = (outSymbols u).length := (Mem.slice_length _ _ _ _).symm
    _ = (textSymbols s).length := congrArg List.length hout
    _ = s.tlen.toNat := hlen

@[simp] theorem tabled_err (s : State) : (tabled s).err = s.err := rfl
@[simp] theorem tabled_nnodes (s : State) : (tabled s).nnodes = (built (counted s)).nnodes := rfl
@[simp] theorem textSymbols_tabled (s : State) : textSymbols (tabled s) = textSymbols s := rfl

section
variable {s : State} {sym : Byte} {n : Nat} (hn : 1 ≤ n) (hsym : sym.toNat < 128)
  (htext : textSymbols s = List.replicate n sym)
include hn hsym htext

/-- A text of copies of one symbol has one leaf. -/
theorem presentSymbols_counted_of_replicate : presentSymbols (counted s).freq = [sym.toNat] := by
  refine (presentSymbols_ascending _).eq_of_mem_iff (List.pairwise_singleton _ _) fun i => ?_
  rw [mem_presentSymbols, counted_read_ne_zero_iff, htext, List.mem_singleton]
  constructor
  · rintro ⟨-, -, a, ha, rfl⟩
    rw [List.eq_of_mem_replicate ha]
  · rintro rfl
    exact ⟨sym.isLt, hsym, sym, List.mem_replicate.2 ⟨by omega, rfl⟩, rfl⟩

theorem leaves_counted_length_of_replicate : (leaves (counted s).freq).length = 1 := by
  rw [leaves, List.length_map, presentSymbols_counted_of_replicate hn hsym htext, List.length_singleton]

theorem leaves_counted_ne_nil_of_replicate : leaves (counted s).freq ≠ [] :=
  List.length_pos_iff.1 (by rw [leaves_counted_length_of_replicate hn hsym htext]; exact Nat.one_pos)

theorem built_nnodes_of_replicate : (built (counted s)).nnodes = 1#10 := by
  refine BitVec.eq_of_toNat_eq ?_
  rw [built_nnodes_toNat, leaves_counted_length_of_replicate hn hsym htext]
  rfl

theorem inTable_tabled_of_replicate : InTable (tabled s) sym :=
  (inTable_tabled_iff (leaves_counted_ne_nil_of_replicate hn hsym htext) sym).2
    ⟨htext ▸ List.mem_replicate.2 ⟨by omega, rfl⟩, hsym⟩

theorem codeOf_tabled_of_replicate : codeOf (tabled s) sym = [false] := by
  have hne := leaves_counted_ne_nil_of_replicate hn hsym htext
  obtain ⟨sym', hcode, honly⟩ := exists_single_code_of_exec_gen (built_treeInvariant hne) (built_nnodes_ne hne)
    (exec_gen_built_counted hne) (by rw [built_nnodes_of_replicate hn hsym htext]; rfl)
  rw [(honly sym).1 (inTable_tabled_of_replicate hn hsym htext), hcode]

theorem payload_tabled_of_replicate : payload (tabled s) = List.replicate n false := by
  rw [payload, textSymbols_tabled, htext, List.flatMap_replicate, codeOf_tabled_of_replicate hn hsym htext,
    List.flatten_replicate_singleton]

theorem payloadLength_tabled_of_replicate : payloadLength (tabled s) = n := by
  rw [← payload_length, payload_tabled_of_replicate hn hsym htext, List.length_replicate]

theorem tableText_tabled_of_replicate : tableText (tabled s) = List.replicate n sym := by
  refine (tableText_eq_textSymbols fun a ha => ?_).trans htext
  rw [textSymbols_tabled, htext] at ha
  exact List.eq_of_mem_replicate ha ▸ inTable_tabled_of_replicate hn hsym htext

end

/-- Settles O53: the one symbol has the one leaf, so that its code is `0` and the payload is a zero for each copy. -/
theorem oneSymbolTextsRoundTrip : Obligations.OneSymbolTextsRoundTrip := by
  unfold Obligations.OneSymbolTextsRoundTrip
  intro s sym n hn hfits _ hsym htext
  have hne := leaves_counted_ne_nil_of_replicate hn hsym htext
  have hlen := payloadLength_tabled_of_replicate hn hsym htext
  have hall := tableText_tabled_of_replicate hn hsym htext
  have hroom : payloadLength (tabled s) < 524288 := by omega
  obtain ⟨u, hdec, herr, hout⟩ := exists_exec_dec_encoded_of_fits hroom (tabled_prefixFree hne)
    (by rwa [hall, List.length_replicate])
  refine ⟨encoded (tabled s), u, ?compress, hdec, ?err, herr.trans (tabled_err s), ?nodes, ?code, ?sequence,
    hout.trans hall⟩
  case compress => exact (exec_compress_eq_exec_enc hne).trans (exec_enc_of_lt hroom)
  case err => rw [encoded_err, tabled_err]
  case nodes => rw [encoded_nnodes, tabled_nnodes, built_nnodes_of_replicate hn hsym htext]
  case code => rw [codeOf_encoded, codeOf_tabled_of_replicate hn hsym htext]
  case sequence => rw [bitSequence_encoded hroom, payload_tabled_of_replicate hn hsym htext, hlen]

end Sys2Proof.Machine
end

section
namespace Sys2Proof.Machine

/-! ## The failures of a command (R244) -/

/-- The failures a command can end with (R244): those of its stages, but in a composite PACK stands after PAD and GEN
after BUILD, where they cannot fail. -/
def raisedByCommand : Instr → List ErrorKind
  | .enc => [.capacity]
  | .compress => [.emptyFreq, .capacity]
  | i => (stagesOf i).flatMap raisedBy

section
variable {s t : State}

/-- A command keeps `ERR`, which CLR clears, or leaves the code of a failure of one of its stages. -/
theorem err_of_exec {i : Instr} (h0 : s.err = 0#4) (h : exec i s = .next t) :
    t.err ∈ 0#4 :: ((stagesOf i).flatMap raisedBy).map errorCode := by
  by_cases hi : i = .clr
  · subst hi
    cases (exec_clr s).symm.trans h
    exact List.mem_cons_self
  · have hps : Primitive.clr ∉ stagesOf i := by revert hi; cases i <;> decide
    cases (exec_eq_runStages i s).symm.trans h
    rcases runStages_failureRegisters hps s with ⟨he, -⟩ | ⟨p, hp, e, hmem, he, -⟩
    · exact (he.trans h0) ▸ List.mem_cons_self
    · exact he ▸ List.mem_cons_of_mem _ (List.mem_map_of_mem (List.mem_flatMap_of_mem hp hmem))

/-- ENC fails only for want of room: a payload that leaves some is padded to whole bytes, which PACK takes (R178). -/
theorem err_of_exec_enc (h : exec .enc s = .next t) : t.err = s.err ∨ t.err = 4#4 := by
  obtain ⟨hlong, hfull⟩ := encFailuresLeaveNoBuffer s
  rcases Nat.lt_trichotomy (payloadLength s) 524288 with hlt | heq | hgt
  · exact .inl (eq_encoded_of_exec hlt h ▸ encoded_err s)
  · obtain ⟨m, u, rfl, hexec, -⟩ := hfull heq
    cases h.symm.trans hexec
    exact .inr rfl
  · cases h.symm.trans (hlong hgt)
    exact .inr rfl

/-- COMPRESS fails in BUILD, or GEN has a tree and the rest is ENC (R181). -/
theorem err_of_exec_compress (h : exec .compress s = .next t) : t.err = s.err ∨ t.err = 1#4 ∨ t.err = 4#4 := by
  by_cases hnone : leaves (counted s).freq = []
  · rw [exec_eq_runStages, stagesOf, runStages_completed (runStage_count_eq_counted s),
      runStages_failed (runStage_build_of_no_leaves hnone)] at h
    cases h
    exact .inr (.inl (invalidateAll_registers _ _).1)
  · rw [exec_compress_eq_exec_enc hnone] at h
    exact (err_of_exec_enc h).imp (·.trans (tabled_err s)) .inr

/-- A command ends with `ERR` = 0 or with the code of a failure R244 lists for it. -/
theorem err_mem_of_exec {i : Instr} (h0 : s.err = 0#4) (h : exec i s = .next t) :
    t.err ∈ 0#4 :: (raisedByCommand i).map errorCode := by
  cases i with
  | enc =>
    rcases err_of_exec_enc h with he | he
    · exact (he.trans h0) ▸ List.mem_cons_self
    · exact he ▸ (by decide)
  | compress =>
    rcases err_of_exec_compress h with he | he | he
    · exact (he.trans h0) ▸ List.mem_cons_self
    · exact he ▸ (by decide)
    · exact he ▸ (by decide)
  | nop | clr | count | build | gen | map | pad | pack | expand | strip | matchCodes | dec => exact err_of_exec h0 h

end

/-- Settles O20: each list of the statement holds 0 and the codes that R244 gives its commands. -/
theorem commandsRaiseOnlyTheirFailures : Obligations.CommandsRaiseOnlyTheirFailures := by
  unfold Obligations.CommandsRaiseOnlyTheirFailures
  intro i s t h0 h
  have hlisted : ∀ {codes}, 0#4 :: (raisedByCommand i).map errorCode ⊆ codes → t.err ∈ codes := fun hsub =>
    hsub (err_mem_of_exec h0 h)
  refine ⟨fun hi => List.mem_singleton.1 (hlisted ?_), fun hi => hlisted ?_, fun hi => hlisted ?_,
    fun hi => hlisted ?_, fun hi => hlisted ?_, fun hi => hlisted ?_, fun hi => hlisted ?_, fun hi => hlisted ?_,
    fun hi => hlisted ?_⟩ <;> revert hi <;> cases i <;> decide

/-! ## A primitive command that fails (R247, R248) -/

/-- A primitive command is the list of its one stage (R114). -/
theorem stagesOf_primitiveCommand (p : Primitive) : stagesOf (primitiveCommand p) = [p] := by cases p <;> rfl

/-- Every command but the three composites is a primitive (R114). -/
theorem exists_primitiveCommand_eq {i : Instr} (h : i ∉ [Instr.enc, .dec, .compress]) :
    ∃ p, primitiveCommand p = i := by
  cases i with
  | enc | dec | compress => exact absurd h (by decide)
  | nop => exact ⟨.nop, rfl⟩
  | clr => exact ⟨.clr, rfl⟩
  | count => exact ⟨.count, rfl⟩
  | build => exact ⟨.build, rfl⟩
  | gen => exact ⟨.gen, rfl⟩
  | map => exact ⟨.map, rfl⟩
  | pad => exact ⟨.pad, rfl⟩
  | pack => exact ⟨.pack, rfl⟩
  | expand => exact ⟨.expand, rfl⟩
  | strip => exact ⟨.strip, rfl⟩
  | matchCodes => exact ⟨.matchCodes, rfl⟩

theorem primitiveCommand_eq_gen_iff {p : Primitive} : primitiveCommand p = .gen ↔ p = .gen := by
  cases p <;> decide

/-- Settles O21: `ERR` shows that the one stage failed, and a failure writes its registers and INV alone. -/
theorem failingPrimitiveWritesNoSpace : Obligations.FailingPrimitiveWritesNoSpace := by
  unfold Obligations.FailingPrimitiveWritesNoSpace
  intro i s t hi h0 h hne
  obtain ⟨p, rfl⟩ := exists_primitiveCommand_eq hi
  obtain ⟨e, n, hraise⟩ := runStage_failed_by_raise
    (runStage_failed_of_err h0 h (stagesOf_primitiveCommand p) hne)
  obtain ⟨htext, hfreq, hnode, hcodebits, hbits, hpacked, hout, hcodelen⟩ := raiseFailure_spaces hraise
  refine ⟨htext, hfreq, hnode, hcodebits, hbits, hpacked, hout, fun hgen => ?others, fun hgen j => ?gen⟩
  case others => exact hcodelen (mt primitiveCommand_eq_gen_iff.2 hgen)
  case gen =>
    rw [raiseFailure_eq_failed hraise, invalidate_codelen, if_pos (primitiveCommand_eq_gen_iff.1 hgen),
      Mem.read_cleared]

/-! ## No event, and the reset input (R255, R270, R271) -/

/-- Settles O7: the two ways a step goes without a transaction. -/
theorem idleAndResetSteps : Obligations.IdleAndResetSteps := by
  unfold Obligations.IdleAndResetSteps
  exact ⟨fun _ => step_idle, fun _ _ => step_reset⟩

end Sys2Proof.Machine
end
